-- ==== Sys2Proof/Word.lean ====
section
/-! DEFINITION. The word types of CORE: the element (00_scope.md R6), the three request formats (30_encoding.md R45)
and the byte the data buses show when they carry no value (30_encoding.md R53). -/

namespace Sys2Proof

/-- One element of a ring buffer: `W = 8` bits (R6). -/
abbrev Byte := BitVec 8

/-- The request of a stand-alone ring buffer, `W + 3` bits (R46). -/
abbrev RbWord := BitVec 11

/-- The request of CORE (R47). -/
abbrev CwWord := BitVec 22

/-- `STATUS` read as one word, `TXR` in bit 1 and `RXF` in bit 0 (R48). -/
abbrev StWord := BitVec 2

/-- All ones: what a data bus shows beside a valid bit of 0 (R53, R54). -/
abbrev Byte.idle : Byte := 0xFF

/-- The three fixed-length formats (R45). -/
inductive Format where
  | rb
  | cw
  | st
deriving DecidableEq, Repr

/-- The bits of a word of each format (R45). -/
def Format.width : Format → Nat
  | .rb => 11
  | .cw => 22
  | .st => 2

end Sys2Proof
end

