-- ==== Sys2Proof/Syntax.lean ====
section
/-! DEFINITION. The operations of CORE, one constructor per row of spec/opcode_table.json (30_encoding.md R58).
An operand is a data field of the request word, taken as it stands (R52). -/

namespace Sys2Proof

/-- One row of the opcode table. -/
inductive Instr where
  /-- INIT: reset of the stand-alone ring buffer (R61). -/
  | init
  /-- IS_EMPTY (R62). -/
  | isEmpty
  /-- IS_FULL (R63). -/
  | isFull
  /-- TRY_PUSH with operand `wr_data` (R64). -/
  | tryPush (v : Byte)
  /-- TRY_POP (R65). -/
  | tryPop
  /-- RB_NOP (R57). -/
  | rbNop
  /-- CORE_INIT: reset of the whole block (R111). -/
  | coreInit
  /-- DISPATCH: the dispatcher may be invoked in this cycle (R93, R59). -/
  | dispatch
  /-- ENQUEUE with operand `enq_data` (R76). -/
  | enqueue (b : Byte)
  /-- DEQUEUE (R87). -/
  | dequeue
  /-- U_TXRDY: the UART's transmit register has become ready (R108). -/
  | uTxrdy
  /-- U_RXBYTE with operand `u_rxdata`: the UART has received a byte (R109). -/
  | uRxbyte (b : Byte)
  /-- NOP (R112). -/
  | nop
  /-- ON_TRANSMIT_READY, selected by `STATUS` inside an invocation (R77). -/
  | onTransmitReady
  /-- ON_BYTE_RECEIVED, selected by `STATUS` inside an invocation, operand `RXDATA` (R86). -/
  | onByteReceived
deriving DecidableEq, Repr

/-- The format column of the opcode table (R58). -/
def Instr.format : Instr → Format
  | .init => .rb
  | .isEmpty => .rb
  | .isFull => .rb
  | .tryPush _ => .rb
  | .tryPop => .rb
  | .rbNop => .rb
  | .coreInit => .cw
  | .dispatch => .cw
  | .enqueue _ => .cw
  | .dequeue => .cw
  | .uTxrdy => .cw
  | .uRxbyte _ => .cw
  | .nop => .cw
  | .onTransmitReady => .st
  | .onByteReceived => .st

/-- The place of an operation inside its cycle: pop before push (R66), and DEQUEUE, DISPATCH, ENQUEUE, UART events (R106). -/
def Instr.rank : Instr → Nat
  | .init => 0
  | .isEmpty => 1
  | .isFull => 2
  | .tryPop => 3
  | .tryPush _ => 4
  | .rbNop => 5
  | .coreInit => 0
  | .dequeue => 1
  | .dispatch => 2
  | .enqueue _ => 3
  | .uTxrdy => 4
  | .uRxbyte _ => 5
  | .nop => 6
  | .onTransmitReady => 0
  | .onByteReceived => 1

end Sys2Proof
end

