-- ==== Sys2Proof/WellFormed.lean ====
section
/-! DEFINITION. What a well-formed term is. Every operation of the table is well formed by its type, since no encoding is
illegal (30_encoding.md R51) and an operand is any byte (R52). The checks are those the spec makes on the parameters
(00_scope.md R7), on the operations of one cycle (30_encoding.md R49, R50; 44_core_cycle.md R115) and on a run (R116). -/

namespace Sys2Proof

/-- A slot count: `N >= 2`, a power of two or not (R7). -/
def slotCountOk (n : Nat) : Bool := decide (2 ≤ n)

/-- One cycle performs something (R58: every word selects a row). -/
def Bundle.notEmpty (b : List Instr) : Bool := !b.isEmpty

/-- The operations of one word have one format (R49). -/
def Bundle.sameFormat (b : List Instr) : Bool :=
  match b with
  | [] => true
  | i :: is => is.all fun j => j.format == i.format

/-- At most one of each operation (R115), in the order of the cycle (R66, R106). -/
def Bundle.inOrder (b : List Instr) : Bool := decide ((b.map Instr.rank).Pairwise (· < ·))

/-- A reset is performed alone (R50). -/
def Bundle.resetAlone (b : List Instr) : Bool :=
  (!b.contains .init && !b.contains .coreInit) || b.length == 1

/-- IS_EMPTY and IS_FULL are performed in every RB cycle that is no reset (R62, R63). -/
def Bundle.observes (b : List Instr) : Bool :=
  b.all fun i => i.format != .rb || i == .init || (b.contains .isEmpty && b.contains .isFull)

/-- The two idle rows stand for "nothing requested" and are selected exactly then (R57). -/
def Bundle.idleAlone (b : List Instr) : Bool :=
  (!b.contains .nop || b.length == 1) &&
  (!b.contains .rbNop || b.length == 3) &&
  (!(b.contains .isEmpty && b.length == 2))

/-- The dispatcher's branches are selected by `STATUS`, one an invocation (R94). -/
def Bundle.oneBranch (b : List Instr) : Bool :=
  b.all fun i => i.format != .st || b.length == 1

/-- The operations that some request word can select in one cycle. -/
def Bundle.wf (b : List Instr) : Bool :=
  Bundle.notEmpty b && Bundle.sameFormat b && Bundle.inOrder b && Bundle.resetAlone b &&
  Bundle.observes b && Bundle.idleAlone b && Bundle.oneBranch b

/-- The `rst` bit of a CW word (R47). -/
def CwWord.isReset (w : CwWord) : Bool := w[21]

/-- The `rst` bit of an RB word (R46). -/
def RbWord.isReset (w : RbWord) : Bool := w[10]

/-- A run is a list of CW words that begins with a reset word (R116). -/
def Run.wf (ws : List CwWord) : Bool :=
  match ws with
  | [] => false
  | w :: _ => CwWord.isReset w

end Sys2Proof
end

