-- ==== Sys2Proof/Decode.lean ====
section
/-! DEFINITION. Decoding and encoding of request words: the opcode table as rows of mask and match (30_encoding.md R58),
bundle decoding (R49), the fields of the words (R46, R47), the bytes a word is laid out in, the encoder, and the textual
mnemonics of test programs (R55, R56). -/

namespace Sys2Proof

/-! ### Fields -/

/-- The byte of a word whose least significant bit is bit `lo` (R52: no extension, no assembly). -/
def dataField {n : Nat} (w : BitVec n) (lo : Nat) : Byte := w.extractLsb' lo 8

/-- The fields of an RB word (R46). -/
structure RbFields where
  rst : Bool
  wrEn : Bool
  rdEn : Bool
  wrData : Byte
deriving DecidableEq, Repr

/-- The fields of a CW word (R47). -/
structure CwFields where
  rst : Bool
  ie : Bool
  enqReq : Bool
  deqReq : Bool
  uTxrdy : Bool
  uRxbyte : Bool
  enqData : Byte
  uRxdata : Byte
deriving DecidableEq, Repr

/-- Read the fields of an RB word (R46). -/
def rbFields (w : RbWord) : RbFields where
  rst := w[10]
  wrEn := w[9]
  rdEn := w[8]
  wrData := dataField w 0

/-- Read the fields of a CW word (R47). -/
def cwFields (w : CwWord) : CwFields where
  rst := w[21]
  ie := w[20]
  enqReq := w[19]
  deqReq := w[18]
  uTxrdy := w[17]
  uRxbyte := w[16]
  enqData := dataField w 8
  uRxdata := dataField w 0

/-- The RB word with the given fields, most significant first (R46). -/
def rbWordOf (f : RbFields) : RbWord :=
  BitVec.cast (by decide) (BitVec.ofBool f.rst ++ BitVec.ofBool f.wrEn ++ BitVec.ofBool f.rdEn ++ f.wrData)

/-- The CW word with the given fields, most significant first (R47). -/
def cwWordOf (f : CwFields) : CwWord :=
  BitVec.cast (by decide) (BitVec.ofBool f.rst ++ BitVec.ofBool f.ie ++ BitVec.ofBool f.enqReq ++
    BitVec.ofBool f.deqReq ++ BitVec.ofBool f.uTxrdy ++ BitVec.ofBool f.uRxbyte ++ f.enqData ++ f.uRxdata)

/-- The ST word: `{TXR, RXF}` (R48). -/
def stWordOf (txr rxf : Bool) : StWord :=
  BitVec.cast (by decide) (BitVec.ofBool txr ++ BitVec.ofBool rxf)

/-! ### The opcode table and bundle decoding -/

/-- A row of the opcode table: `mask`, `match`, and the operation with the operands it takes from the word. -/
structure Row (n : Nat) where
  mask : BitVec n
  pattern : BitVec n
  instr : BitVec n → Instr

/-- A row is selected when the word and the mask give the match (R49). -/
def Row.selects {n : Nat} (r : Row n) (w : BitVec n) : Bool := w &&& r.mask == r.pattern

/-- The RB rows of R58, in the order in which a cycle performs them (R53, R66). -/
def rbTable : List (Row 11) :=
  [ ⟨0x400, 0x400, fun _ => .init⟩,
    ⟨0x400, 0x000, fun _ => .isEmpty⟩,
    ⟨0x400, 0x000, fun _ => .isFull⟩,
    ⟨0x500, 0x100, fun _ => .tryPop⟩,
    ⟨0x600, 0x200, fun w => .tryPush (dataField w 0)⟩,
    ⟨0x700, 0x000, fun _ => .rbNop⟩ ]

/-- The CW rows of R58, in the order in which a cycle performs them (R106). -/
def cwTable : List (Row 22) :=
  [ ⟨0x200000, 0x200000, fun _ => .coreInit⟩,
    ⟨0x240000, 0x040000, fun _ => .dequeue⟩,
    ⟨0x300000, 0x100000, fun _ => .dispatch⟩,
    ⟨0x280000, 0x080000, fun w => .enqueue (dataField w 8)⟩,
    ⟨0x220000, 0x020000, fun _ => .uTxrdy⟩,
    ⟨0x210000, 0x010000, fun w => .uRxbyte (dataField w 0)⟩,
    ⟨0x3F0000, 0x000000, fun _ => .nop⟩ ]

/-- The ST rows of R58. -/
def stTable : List (Row 2) :=
  [ ⟨0x2, 0x2, fun _ => .onTransmitReady⟩,
    ⟨0x2, 0x0, fun _ => .onByteReceived⟩ ]

/-- Bundle decoding: every selected row's operation (R49). -/
def selectRows {n : Nat} (table : List (Row n)) (w : BitVec n) : List Instr :=
  (table.filter fun r => r.selects w).map fun r => r.instr w

/-- The operations of an RB word. -/
def decodeRb (w : RbWord) : List Instr := selectRows rbTable w

/-- The operations of a CW word. -/
def decodeCw (w : CwWord) : List Instr := selectRows cwTable w

/-- The operation an ST word selects. -/
def decodeSt (w : StWord) : List Instr := selectRows stTable w

/-! ### Words laid out in bytes -/

/-- A request word of one of the three formats. -/
inductive PortWord where
  | rb (w : RbWord)
  | cw (w : CwWord)
  | st (w : StWord)
deriving DecidableEq, Repr

/-- Why bytes are no request word. -/
inductive DecodeError where
  /-- A word has one byte (ST), two (RB) or three (CW). -/
  | noFormatOfThisLength
  /-- A bit above the format's width is set; the spec gives the words no such bit (R45). -/
  | bitAboveTheWord
deriving DecidableEq, Repr

/-- The number whose bytes are listed, the least significant first (DESIGN CHOICE, log 14). -/
def bytesToNat : List Byte → Nat
  | [] => 0
  | b :: bs => b.toNat + 256 * bytesToNat bs

/-- The `k` bytes of a number, the least significant first (DESIGN CHOICE, log 14). -/
def natToBytes : Nat → Nat → List Byte
  | 0, _ => []
  | k + 1, w => BitVec.ofNat 8 w :: natToBytes k (w / 256)

/-- The word of `n` bits with the given value, if it has no bit above. -/
def wordOfNat (n w : Nat) : Except DecodeError (BitVec n) :=
  if w < 2 ^ n then .ok (BitVec.ofNat n w) else .error .bitAboveTheWord

/-- Read a request word from bytes: the length tells the format. -/
def readWord (bs : List Byte) : Except DecodeError PortWord :=
  match bs with
  | [_] => (wordOfNat 2 (bytesToNat bs)).map .st
  | [_, _] => (wordOfNat 11 (bytesToNat bs)).map .rb
  | [_, _, _] => (wordOfNat 22 (bytesToNat bs)).map .cw
  | _ => .error .noFormatOfThisLength

/-- The operations a request word selects. -/
def PortWord.bundle : PortWord → List Instr
  | .rb w => decodeRb w
  | .cw w => decodeCw w
  | .st w => decodeSt w

/-- The decoder: total on any bytes, a rejection by name. -/
def decode (bs : List Byte) : Except DecodeError (List Instr) :=
  (readWord bs).map PortWord.bundle

/-- IS_EMPTY and IS_FULL are selected by every RB word that is no reset; they are not what such a word asks for. -/
def Instr.alwaysOn (i : Instr) : Bool := i == .isEmpty || i == .isFull

/-- The first operation of a bundle that the word requests by a bit (or the idle row of a word that requests none). -/
def principal (b : List Instr) : Option Instr := b.find? fun i => !i.alwaysOn

/-- The bytes that hold `nbits` bits. -/
def bytesFor (nbits : Nat) : Nat := (nbits + 7) / 8

/-- The operation the decoder reads from a word numbered as the opcode table numbers it (log 13). -/
def decodeTableWord (nbits w : Nat) : Option Instr :=
  if w < 2 ^ (8 * bytesFor nbits) then
    match decode (natToBytes (bytesFor nbits) w) with
    | .ok b => principal b
    | .error _ => none
  else none

/-! ### The encoder -/

/-- The control bits that request an operation, from the bit positions of R46 to R48, and its operand; all other bits 0. -/
def encodeBits : Instr → Nat
  | .init => 2 ^ 10
  | .isEmpty => 0
  | .isFull => 0
  | .tryPush v => 2 ^ 9 + v.toNat
  | .tryPop => 2 ^ 8
  | .rbNop => 0
  | .coreInit => 2 ^ 21
  | .dispatch => 2 ^ 20
  | .enqueue b => 2 ^ 19 + 2 ^ 8 * b.toNat
  | .dequeue => 2 ^ 18
  | .uTxrdy => 2 ^ 17
  | .uRxbyte b => 2 ^ 16 + b.toNat
  | .nop => 0
  | .onTransmitReady => 2
  | .onByteReceived => 0

/-- The bytes of the request word that requests one operation and no other. -/
def encode (i : Instr) : List Byte := natToBytes (bytesFor i.format.width) (encodeBits i)

/-- The bits that request every operation of a bundle. -/
def encodeBundleBits (b : List Instr) : Nat := b.foldl (fun w i => w ||| encodeBits i) 0

/-- The CW word that requests a bundle. -/
def cwWordOfBundle (b : List Instr) : CwWord := BitVec.ofNat 22 (encodeBundleBits b)

/-- The RB word that requests a bundle. -/
def rbWordOfBundle (b : List Instr) : RbWord := BitVec.ofNat 11 (encodeBundleBits b)

/-! ### Mnemonics of test programs (R55) and the expansion of ENQUEUE_STRING (R56) -/

/-- A mnemonic of an RB line. -/
inductive RbMnemonic where
  | init
  | push (xx : Byte)
  | pop
  | nop
deriving DecidableEq, Repr

/-- A mnemonic of a CW line. -/
inductive CwMnemonic where
  | rst
  | ie
  | enq (xx : Byte)
  | deq
  | utx
  | urx (xx : Byte)
  | nop
deriving DecidableEq, Repr

/-- The bits an RB mnemonic sets (R55). -/
def RbMnemonic.bits : RbMnemonic → RbWord
  | .init => rbWordOf ⟨true, false, false, 0⟩
  | .push xx => rbWordOf ⟨false, true, false, xx⟩
  | .pop => rbWordOf ⟨false, false, true, 0⟩
  | .nop => 0

/-- The bits a CW mnemonic sets (R55). -/
def CwMnemonic.bits : CwMnemonic → CwWord
  | .rst => cwWordOf ⟨true, false, false, false, false, false, 0, 0⟩
  | .ie => cwWordOf ⟨false, true, false, false, false, false, 0, 0⟩
  | .enq xx => cwWordOf ⟨false, false, true, false, false, false, xx, 0⟩
  | .deq => cwWordOf ⟨false, false, false, true, false, false, 0, 0⟩
  | .utx => cwWordOf ⟨false, false, false, false, true, false, 0, 0⟩
  | .urx xx => cwWordOf ⟨false, false, false, false, false, true, 0, xx⟩
  | .nop => 0

/-- Assemble an RB line; the order of its mnemonics has no meaning (R55). -/
def assembleRb (line : List RbMnemonic) : RbWord := line.foldr (fun m w => m.bits ||| w) 0

/-- Assemble a CW line (R55). -/
def assembleCw (line : List CwMnemonic) : CwWord := line.foldr (fun m w => m.bits ||| w) 0

/-- ENQUEUE_STRING expands to one ENQUEUE word per byte, in order (R56, R80); here in consecutive cycles with every
other request bit 0. -/
def enqueueStringWords (bytes : List Byte) : List CwWord := bytes.map fun b => assembleCw [.enq b]

/-- The fields of the CW word NOP (R57). -/
def CwFields.nop : CwFields := ⟨false, false, false, false, false, false, 0, 0⟩

/-- One byte of an ENQUEUE_STRING, with what R80 leaves free: the cycles before its word, and the other fields of its word. -/
structure StringByte where
  gap : List CwFields
  other : CwFields
  byte : Byte
deriving DecidableEq, Repr

/-- The word of a byte of a string: an ENQUEUE of it, the other fields as given; `rst` is 0, or no ENQUEUE would be
selected (R50, R80). -/
def StringByte.word (p : StringByte) : CwWord :=
  cwWordOf { p.other with rst := false, enqReq := true, enqData := p.byte }

/-- The word of a cycle between two bytes: no ENQUEUE, since MAIN is in the string; all else as given (R80, log 18). -/
def gapWord (f : CwFields) : CwWord := cwWordOf { f with enqReq := false }

/-- The expansion of ENQUEUE_STRING in its general form: one ENQUEUE word per byte, in order, in cycles that are
consecutive or not, the other fields free (R56, R80). -/
def spreadStringWords (ps : List StringByte) : List CwWord := ps.flatMap fun p => p.gap.map gapWord ++ [p.word]

end Sys2Proof
end

