-- ==== Sys2Proof/Config.lean ====
section
/-! DEFINITION. What an implementation fixes: the slot counts of the buffers at `State.reset` (00_scope.md R7,
92_eei_decisions.md D3) and the free values (93_implementation_defined.md U20). -/

namespace Sys2Proof

/-- DESIGN CHOICE (log 1): slots of the transmit store at `State.reset`.
The spec leaves `N_TX` open; 8 is the only slot count its source mentions. -/
def Config.nTx : Nat := 8

/-- DESIGN CHOICE (log 1): slots of the receive store at `State.reset`. -/
def Config.nRx : Nat := 8

/-- DESIGN CHOICE (log 1): slots of the stand-alone ring buffer at `State.reset`. -/
def Config.nRb : Nat := 8

/-- Free value (log 10): one status output bit in a cycle before the first reset, "any value" (U20).
The argument is the number of free values used before it. -/
opaque Config.freeBit : Nat → Bool

end Sys2Proof
end

