-- ==== Sys2Proof/Machine/State.lean ====
section
/-! DEFINITION. The state of CORE (10_state.md R10), of the stand-alone ring buffer (30_encoding.md R45), their ports
(R46, R47, R53, R54), the reasons a step can stop, and the state right after reset (10_state.md R28). -/

namespace Sys2Proof.Machine

/-- A backing store: pairs of slot number and element, slot numbers strictly rising.
A slot that is not listed has never been written and has no value (log 7). -/
abbrev Memory := List Host.Cell

/-- A ring buffer (R11 to R13). `slots` is `N`, fixed when the hardware is built (R7); the indices are positions, not counts. -/
structure RingBuffer where
  slots : Nat
  mem : Memory
  writeIndex : Nat
  readIndex : Nat
deriving DecidableEq, Repr

/-- The status outputs of CORE (R54). -/
structure CoreStatus where
  irq : Bool
  txEmpty : Bool
  txFull : Bool
  rxEmpty : Bool
  rxFull : Bool
  txActive : Bool
deriving DecidableEq, Repr

/-- The outputs of CORE in one cycle (R54): results, events, and the status outputs. -/
structure CoreOut where
  enqOk : Bool
  deqValid : Bool
  deqData : Byte
  txWrite : Bool
  txWdata : Byte
  rxDrop : Bool
  status : CoreStatus
deriving DecidableEq, Repr

/-- The status outputs of a stand-alone ring buffer (R53). -/
structure RbStatus where
  empty : Bool
  full : Bool
deriving DecidableEq, Repr

/-- The outputs of a stand-alone ring buffer in one cycle (R53). -/
structure RbOut where
  wrOk : Bool
  rdValid : Bool
  rdData : Byte
  status : RbStatus
deriving DecidableEq, Repr

/-- The outputs of CORE with every result and event inactive (R54). -/
def CoreOut.inactive (st : CoreStatus) : CoreOut := ⟨false, false, Byte.idle, false, Byte.idle, false, st⟩

/-- The outputs of a stand-alone ring buffer with every result inactive (R53). -/
def RbOut.inactive (st : RbStatus) : RbOut := ⟨false, false, Byte.idle, st⟩

/-- The agents (R130, R131). -/
inductive Agent where
  | main
  | int
  | uart
  | platform
deriving DecidableEq, Repr

/-- What the outside presents for one step (log 3). -/
inductive Request where
  /-- One clock cycle of the stand-alone ring buffer with this RB word (R46). -/
  | rb (w : RbWord)
  /-- One clock cycle of CORE with this CW word (R47, R105). -/
  | cw (w : CwWord)
  /-- Operation level (R9): the dispatcher is invoked, whatever `STATUS` holds (R94, R99). -/
  | invoke
  /-- Operation level (R9): an agent performs one operation of CORE (R131). -/
  | call (a : Agent) (i : Instr)
deriving DecidableEq, Repr

/-- Why the machine stops with a fault. -/
inductive Fault where
  /-- Raised by the byte-received branch and by ON_BYTE_RECEIVED when no U_RXBYTE has happened since power-up
  (R99 "the model treats the read as a fault", 93_implementation_defined.md U6 "fault", 92_eei_decisions.md D33 "the read is
  a fault"). Safe: the spec names it. -/
  | rxdataNeverWritten
  /-- Raised by a pop of a slot that nothing has written (U3). Safe: no state that meets the invariant does it. -/
  | slotNeverWritten
deriving DecidableEq, Repr

/-- Why the machine gives a step no meaning. -/
inductive Refusal where
  /-- Raised by `exec` for an instruction that has no meaning yet. Safe. -/
  | notModelled (mnemonic : String)
  /-- Raised by every operation but the resets before the first reset (R29, R143, U1: "refuse"). Safe. -/
  | beforeReset
  /-- Raised by every operation but the resets on a buffer with an index out of range or fewer than two slots
  (R16, U14, U17: "refuse"). Safe: unreachable after reset. -/
  | illFormedBuffer
  /-- Raised by a step with no request left: the run has ended (R116, log 3). Safe. -/
  | noRequest
  /-- Raised by a call of an operation by an agent R131 does not list for it (U15: "refuse"). Safe. -/
  | wrongAgent
deriving DecidableEq, Repr

/-- An outcome of an operation that can stop. -/
abbrev Res (α : Type) := Host.Outcome α Fault Refusal

/-- The machine. The first seven fields are the state of CORE, exactly those of R10. -/
structure State where
  /-- The transmit path's ring buffer. -/
  tx : RingBuffer
  /-- The receive path's ring buffer. -/
  rx : RingBuffer
  /-- A transmission is in progress (R19). -/
  active : Bool
  /-- `STATUS.TXR`, transmit-ready (R22). -/
  txr : Bool
  /-- `STATUS.RXF`, byte-received (R22). -/
  rxf : Bool
  /-- The UART's transmit register (R23). -/
  txdata : Byte
  /-- The UART's receive register (R24). -/
  rxdata : Byte
  /-- The stand-alone ring buffer the RB words address (R45, log 2). -/
  rb : RingBuffer
  /-- The output pins of CORE in the last cycle (R54, log 4). -/
  out : CoreOut
  /-- The output pins of the stand-alone ring buffer in its last cycle (R53, log 4). -/
  rbOut : RbOut
  /-- The requests still to be sampled, oldest first (log 3). -/
  requests : List Request
  /-- The model's own: CORE has been reset since power-up (R29, log 8). -/
  coreReset : Bool
  /-- The model's own: the stand-alone ring buffer has been reset since power-up (R29, log 8). -/
  rbReset : Bool
  /-- The model's own: a U_RXBYTE has happened since power-up (R99, U6, log 9). -/
  rxdataWritten : Bool
  /-- The model's own: how many free values have been used (log 10). -/
  freeCount : Nat
deriving DecidableEq, Repr

/-! ### Writing one field -/

def State.setTx (s : State) (v : RingBuffer) : State := { s with tx := v }
def State.setRx (s : State) (v : RingBuffer) : State := { s with rx := v }
def State.setActive (s : State) (v : Bool) : State := { s with active := v }
def State.setTxr (s : State) (v : Bool) : State := { s with txr := v }
def State.setRxf (s : State) (v : Bool) : State := { s with rxf := v }
def State.setTxdata (s : State) (v : Byte) : State := { s with txdata := v }
def State.setRxdata (s : State) (v : Byte) : State := { s with rxdata := v }
def State.setRb (s : State) (v : RingBuffer) : State := { s with rb := v }
def State.setOut (s : State) (v : CoreOut) : State := { s with out := v }
def State.setRbOut (s : State) (v : RbOut) : State := { s with rbOut := v }
def State.setRequests (s : State) (v : List Request) : State := { s with requests := v }
def State.setCoreReset (s : State) (v : Bool) : State := { s with coreReset := v }
def State.setRbReset (s : State) (v : Bool) : State := { s with rbReset := v }
def State.setRxdataWritten (s : State) (v : Bool) : State := { s with rxdataWritten := v }
def State.setFreeCount (s : State) (v : Nat) : State := { s with freeCount := v }

/-! ### Reset -/

/-- A ring buffer of `n` slots after power-up and INIT: nothing written, both indices 0 (R28, R61). -/
def RingBuffer.fresh (n : Nat) : RingBuffer := ⟨n, [], 0, 0⟩

/-- The machine right after power-up and reset, for any slot counts (R28).
DESIGN CHOICE (log 5, 6): `TXDATA` and `RXDATA` are 0 and the output pins show the reset state. -/
def State.resetOf (nTx nRx nRb : Nat) : State where
  tx := RingBuffer.fresh nTx
  rx := RingBuffer.fresh nRx
  active := false
  txr := false
  rxf := false
  txdata := 0
  rxdata := 0
  rb := RingBuffer.fresh nRb
  out := CoreOut.inactive ⟨false, true, false, true, false, false⟩
  rbOut := RbOut.inactive ⟨true, false⟩
  requests := []
  coreReset := true
  rbReset := true
  rxdataWritten := false
  freeCount := 0

/-- The machine right after reset, with the slot counts of Config (log 1). -/
def State.reset : State := State.resetOf Config.nTx Config.nRx Config.nRb

end Sys2Proof.Machine
end

