-- ==== Sys2Proof/Machine/Operands.lean ====
section
/-! DEFINITION. Operand forms: the index advance (40_ringbuffer.md R60), the two addressing modes (20_memory.md R31),
and the register operand RXDATA of the byte-received branch (43_dispatcher.md R96, R99). -/

namespace Sys2Proof.Machine

/-- `adv`: the next slot, by comparison with `N - 1` (R60). -/
def adv (n i : Nat) : Nat := if i = n - 1 then 0 else i + 1

/-- The slot a push stores to (R31). -/
def RingBuffer.storeSlot (b : RingBuffer) : Nat := b.writeIndex

/-- The slot a pop loads from (R31). -/
def RingBuffer.loadSlot (b : RingBuffer) : Nat := b.readIndex

/-- The write index after a push (R31). -/
def RingBuffer.nextWrite (b : RingBuffer) : Nat := adv b.slots b.writeIndex

/-- The read index after a pop (R31). -/
def RingBuffer.nextRead (b : RingBuffer) : Nat := adv b.slots b.readIndex

/-- Read `RXDATA`, without a side effect (R24, R36). With no U_RXBYTE since power-up the spec names the stop: "the model
treats the read as a fault rather than choose a value" (R99; U6 `fault`; D33; 95_test_vectors.md section 5.2 row 7). -/
def readRxdata (s : State) : Res Byte :=
  if s.rxdataWritten then .next s.rxdata else .fault .rxdataNeverWritten

/-- The index register's width, `max(1, ceil(log2 N))` (R8). -/
def indexWidth (n : Nat) : Nat := max 1 (Nat.clog 2 n)

/-- The usable capacity, `N - 1` (R8). -/
def RingBuffer.capacity (b : RingBuffer) : Nat := b.slots - 1

end Sys2Proof.Machine
end

