-- ==== Sys2Proof/Machine/Flags.lean ====
section
/-! DEFINITION. The conditions computed from the state and never stored: empty, full, count and contents
(10_state.md R14, R15, R17), the ST word (30_encoding.md R48), the interrupt request (60_exceptions.md R125) and the
status outputs (30_encoding.md R53, R54). -/

namespace Sys2Proof.Machine

/-- Empty: the indices are equal (R14). -/
def RingBuffer.empty (b : RingBuffer) : Bool := b.writeIndex == b.readIndex

/-- Full: the advanced write index equals the read index (R15). -/
def RingBuffer.full (b : RingBuffer) : Bool := b.nextWrite == b.readIndex

/-- The number of elements buffered, `(write_index - read_index) mod N` (R17). -/
def RingBuffer.count (b : RingBuffer) : Nat := (b.writeIndex + b.slots - b.readIndex) % b.slots

/-- `k` slots in ring order from slot `i`. -/
def slotsFrom (n : Nat) : Nat → Nat → List Nat
  | 0, _ => []
  | k + 1, i => i :: slotsFrom n k (adv n i)

/-- The slots that hold the buffered elements, the oldest first (R17). -/
def RingBuffer.liveSlots (b : RingBuffer) : List Nat := slotsFrom b.slots b.count b.readIndex

/-- The index range a buffer has in every reachable state, and `N >= 2` (R16, R7). -/
def RingBuffer.shapeOk (b : RingBuffer) : Bool :=
  slotCountOk b.slots && decide (b.writeIndex < b.slots) && decide (b.readIndex < b.slots)

/-- `STATUS` as one word (R48). -/
def State.st (s : State) : StWord := stWordOf s.txr s.rxf

/-- The interrupt request: `TXR OR RXF` (R125). -/
def State.irq (s : State) : Bool := s.txr || s.rxf

/-- The status outputs of CORE, functions of the state alone (R110). -/
def State.coreStatus (s : State) : CoreStatus where
  irq := s.irq
  txEmpty := s.tx.empty
  txFull := s.tx.full
  rxEmpty := s.rx.empty
  rxFull := s.rx.full
  txActive := s.active

/-- The status outputs of the stand-alone ring buffer (R53). -/
def State.rbStatus (s : State) : RbStatus where
  empty := s.rb.empty
  full := s.rb.full

/-- Six free values for the status outputs of CORE in a cycle before its first reset (U20, log 10). -/
def State.freeCoreStatus (s : State) : CoreStatus where
  irq := Config.freeBit s.freeCount
  txEmpty := Config.freeBit (s.freeCount + 1)
  txFull := Config.freeBit (s.freeCount + 2)
  rxEmpty := Config.freeBit (s.freeCount + 3)
  rxFull := Config.freeBit (s.freeCount + 4)
  txActive := Config.freeBit (s.freeCount + 5)

/-- Two free values for the status outputs of the stand-alone ring buffer before its first reset (U20, log 10). -/
def State.freeRbStatus (s : State) : RbStatus where
  empty := Config.freeBit s.freeCount
  full := Config.freeBit (s.freeCount + 1)

end Sys2Proof.Machine
end

