-- ==== Sys2Proof/Machine/Ops.lean ====
section
/-! DEFINITION. The operations the meanings share: the backing store (20_memory.md R31, R35), the ring buffer
(40_ringbuffer.md R61, R64, R65), the guards (70_reset_and_hazards.md R143; 10_state.md R16), the paths
(41_transmit_path.md R76 to R78; 42_receive_path.md R86, R87) and the one invocation of the dispatcher, which is all CORE
has of an exception: its entry (43_dispatcher.md R94 to R96) and its end, the clear of the flag (R97). -/

namespace Sys2Proof.Machine

/-- Perform `f` on what `o` answers; a stop stops the rest. -/
def andThen {α β : Type} (o : Res α) (f : α → Res β) : Res β :=
  match o with
  | .next a => f a
  | .fault r => .fault r
  | .refused r => .refused r

/-! ### The backing store -/

/-- What a slot nothing has written reads as: no value (U3, log 7). -/
def Memory.unlisted : Option Byte := none

/-- Read one slot; no side effect (R36). -/
def Memory.read : Memory → Nat → Option Byte
  | [], _ => Memory.unlisted
  | c :: m, i => if c.1 = i then some c.2 else Memory.read m i

/-- Write one slot, keeping the slot numbers strictly rising. -/
def Memory.write : Memory → Nat → Byte → Memory
  | [], i, v => [(i, v)]
  | c :: m, i, v =>
    if i < c.1 then (i, v) :: c :: m
    else if i = c.1 then (i, v) :: m
    else c :: Memory.write m i v

/-- The canonical form: slot numbers strictly rising. No entry equals what an unlisted slot reads as, since that is no value. -/
abbrev Memory.wf (m : Memory) : Prop := (m.map Prod.fst).Pairwise (· < ·)

/-! ### The ring buffer -/

/-- INIT: both indices to the start; the store is not written (R61). -/
def RingBuffer.init (b : RingBuffer) : RingBuffer := { b with writeIndex := 0, readIndex := 0 }

/-- The store of a push: element first, index second (R40). -/
def RingBuffer.store (b : RingBuffer) (v : Byte) : RingBuffer :=
  { b with mem := b.mem.write b.storeSlot v, writeIndex := b.nextWrite }

/-- TRY_PUSH and its result (R64). -/
def RingBuffer.tryPush (b : RingBuffer) (v : Byte) : RingBuffer × Bool :=
  if b.full then (b, false) else (b.store v, true)

/-- The buffer after a load: the index advanced, the slot not cleared (R65). -/
def RingBuffer.drop (b : RingBuffer) : RingBuffer := { b with readIndex := b.nextRead }

/-- TRY_POP and its result (R65). -/
def RingBuffer.tryPop (b : RingBuffer) : Res (RingBuffer × Option Byte) :=
  if b.empty then .next (b, none)
  else
    match b.mem.read b.loadSlot with
    | none => .fault .slotNeverWritten
    | some v => .next (b.drop, some v)

/-! ### Guards -/

/-- An operation of CORE has a meaning only after the first reset (R29, R143) and with indices in range (R16, U14). -/
def coreChecked {α : Type} (s : State) (o : Res α) : Res α :=
  if s.coreReset then
    if s.tx.shapeOk && s.rx.shapeOk then o else .refused .illFormedBuffer
  else .refused .beforeReset

/-- The same for the stand-alone ring buffer (R143). -/
def rbChecked {α : Type} (s : State) (o : Res α) : Res α :=
  if s.rbReset then
    if s.rb.shapeOk then o else .refused .illFormedBuffer
  else .refused .beforeReset

/-! ### Outputs of an operation -/

/-- `emit TxWrite(b)` (R77, R114). -/
def emitTxWrite (s : State) (b : Byte) : State := s.setOut { s.out with txWrite := true, txWdata := b }

/-- `emit RxDrop` (R86, R114). -/
def emitRxDrop (s : State) : State := s.setOut { s.out with rxDrop := true }

/-- The result pins of DEQUEUE: a valid bit and a data bus that shows all ones beside a 0 (R54, R87). -/
def showDequeue (s : State) (r : Option Byte) : State :=
  s.setOut { s.out with deqValid := r.isSome, deqData := r.getD Byte.idle }

/-- The result pins of TRY_POP (R53, R65). -/
def showPop (s : State) (r : Option Byte) : State :=
  s.setRbOut { s.rbOut with rdValid := r.isSome, rdData := r.getD Byte.idle }

/-! ### The transmit path -/

/-- The two results of ENQUEUE (R76). -/
inductive EnqueueResult where
  | ok
  | rejected
deriving DecidableEq, Repr

/-- ARM: make the transmit-ready condition true (R78). -/
def arm (s : State) : State := s.setTxr true

/-- The second half of ENQUEUE: if the path was idle, mark it active, then ARM (R76, R81). -/
def startIfIdle (s : State) : State := if s.active then s else arm (s.setActive true)

/-- ENQUEUE and its result: push first, then test `active` (R76). -/
def enqueue (s : State) (b : Byte) : State × EnqueueResult :=
  if (s.tx.tryPush b).2 then (startIfIdle (s.setTx (s.tx.tryPush b).1), .ok) else (s, .rejected)

/-- ON_TRANSMIT_READY (R77): it does not clear `STATUS.TXR`. -/
def onTransmitReady (s : State) : Res State :=
  andThen s.tx.tryPop fun r =>
    match r.2 with
    | some b => .next (emitTxWrite ((s.setTx r.1).setTxdata b) b)
    | none => .next (s.setActive false)

/-! ### The receive path -/

/-- ON_BYTE_RECEIVED: push, or drop the byte when the buffer is full (R86). -/
def onByteReceived (s : State) (b : Byte) : State :=
  if (s.rx.tryPush b).2 then s.setRx (s.rx.tryPush b).1 else emitRxDrop s

/-- DEQUEUE and its result (R87). -/
def dequeue (s : State) : Res (State × Option Byte) :=
  andThen s.rx.tryPop fun r => .next (s.setRx r.1, r.2)

/-! ### The dispatcher -/

/-- The transmit-ready branch: handle, then clear the flag, exactly once (R95, R97). -/
def txBranch (s : State) : Res State :=
  andThen (onTransmitReady s) fun t => .next (t.setTxr false)

/-- The byte-received branch: read `RXDATA`, handle, then clear the flag, exactly once (R96, R97). -/
def rxBranch (s : State) : Res State :=
  andThen (readRxdata s) fun b => .next ((onByteReceived s b).setRxf false)

/-- One invocation of the dispatcher in any state: `TXR` is tested first and `RXF` is not tested (R94, R99, R100).
Nothing is saved and nothing restored (R128, R129). -/
def invoke (s : State) : Res State := if s.txr then txBranch s else rxBranch s

end Sys2Proof.Machine
end

