-- ==== Sys2Proof/Machine/CoreCycle.lean ====
section
/-! DEFINITION. The meanings of the operations that exist only at the cycle level (44_core_cycle.md R108, R109, R111, R112). -/

namespace Sys2Proof.Machine

/-- CORE_INIT: defined from any state; the stores, `TXDATA` and `RXDATA` are not written (R111). -/
def execCoreInit (s : State) : Res State :=
  .next ((((((s.setTx s.tx.init).setRx s.rx.init).setActive false).setTxr false).setRxf false).setCoreReset true)

/-- U_TXRDY (R108). -/
def execUTxrdy (s : State) : Res State := coreChecked s (.next (s.setTxr true))

/-- U_RXBYTE: an untaken byte is overwritten (R109). -/
def execURxbyte (b : Byte) (s : State) : Res State :=
  coreChecked s (.next (((s.setRxdata b).setRxdataWritten true).setRxf true))

/-- NOP (R112). -/
def execNop (s : State) : Res State := coreChecked s (.next s)

end Sys2Proof.Machine
end

