-- ==== Sys2Proof/Machine/Dispatcher.lean ====
section
/-! DEFINITION. The meaning of DISPATCH: the condition of an invocation (43_dispatcher.md R93, 30_encoding.md R59) and
the invocation (R94 to R96). -/

namespace Sys2Proof.Machine

/-- DISPATCH as a row of a CW word: eligible; it runs exactly when a flag is set (R93, R59, log 12). -/
def execDispatch (s : State) : Res State := coreChecked s (if s.irq then invoke s else .next s)

end Sys2Proof.Machine
end

