-- ==== Sys2Proof/Machine/Receive.lean ====
section
/-! DEFINITION. The meanings of the receive-path family (42_receive_path.md R86, R87). -/

namespace Sys2Proof.Machine

/-- ON_BYTE_RECEIVED: its operand is `RXDATA`; it does not clear `STATUS.RXF` (R86, R96, log 19). -/
def execOnByteReceived (s : State) : Res State :=
  coreChecked s (andThen (readRxdata s) fun b => .next (onByteReceived s b))

/-- DEQUEUE: the results are the outputs `deq_valid` and `deq_data` (R87). -/
def execDequeue (s : State) : Res State :=
  coreChecked s (andThen (dequeue s) fun r => .next (showDequeue r.1 r.2))

end Sys2Proof.Machine
end

