-- ==== Sys2Proof/Machine/RingBufferOps.lean ====
section
/-! DEFINITION. The meanings of the ring-buffer family on the stand-alone buffer (40_ringbuffer.md R61 to R65;
30_encoding.md R57). -/

namespace Sys2Proof.Machine

/-- INIT: defined from any state, the one before the first reset included (R61, R142). -/
def execInit (s : State) : Res State := .next ((s.setRb s.rb.init).setRbReset true)

/-- IS_EMPTY: the result is the output `empty` (R62). -/
def execIsEmpty (s : State) : Res State :=
  rbChecked s (.next (s.setRbOut { s.rbOut with status := { s.rbOut.status with empty := s.rb.empty } }))

/-- IS_FULL: the result is the output `full` (R63). -/
def execIsFull (s : State) : Res State :=
  rbChecked s (.next (s.setRbOut { s.rbOut with status := { s.rbOut.status with full := s.rb.full } }))

/-- TRY_PUSH: the result is the output `wr_ok` (R64). -/
def execTryPush (v : Byte) (s : State) : Res State :=
  rbChecked s (.next ((s.setRb (s.rb.tryPush v).1).setRbOut { s.rbOut with wrOk := (s.rb.tryPush v).2 }))

/-- TRY_POP: the results are the outputs `rd_valid` and `rd_data` (R65). -/
def execTryPop (s : State) : Res State :=
  rbChecked s (andThen s.rb.tryPop fun r => .next (showPop (s.setRb r.1) r.2))

/-- RB_NOP: nothing is requested (R57). -/
def execRbNop (s : State) : Res State := rbChecked s (.next s)

end Sys2Proof.Machine
end

