-- ==== Sys2Proof/Machine/Transmit.lean ====
section
/-! DEFINITION. The meanings of the transmit-path family (41_transmit_path.md R76, R77) and the pseudo-operation
ENQUEUE_STRING (R80). -/

namespace Sys2Proof.Machine

/-- ENQUEUE: the result is the output `enq_ok` (R76). -/
def execEnqueue (b : Byte) (s : State) : Res State :=
  coreChecked s
    (.next ((enqueue s b).1.setOut { (enqueue s b).1.out with enqOk := decide ((enqueue s b).2 = .ok) }))

/-- ON_TRANSMIT_READY (R77). -/
def execOnTransmitReady (s : State) : Res State := coreChecked s (onTransmitReady s)

/-- ENQUEUE_STRING: one ENQUEUE per byte, no retry, no wait; the result is the number of rejected bytes (R80). -/
def enqueueString : List Byte → State → State × Nat
  | [], s => (s, 0)
  | b :: bs, s =>
    match enqueue s b with
    | (t, .ok) => enqueueString bs t
    | (t, .rejected) => ((enqueueString bs t).1, (enqueueString bs t).2 + 1)

/-- ENQUEUE_STRING as MAIN performs it, at the operation level, with nothing between its bytes: the state after it and the
tally (R80, log 18). DESIGN CHOICE (log 18): outputs are defined per cycle only (R54), so it drives no output pin; `enq_ok`
and the status outputs stay as `out` held them, unlike a call of ENQUEUE (log 16). -/
def runEnqueueString (bs : List Byte) (s : State) : Res (State × Nat) :=
  coreChecked s (.next (enqueueString bs s))

end Sys2Proof.Machine
end

