-- ==== Sys2Proof/Machine/Dispatch.lean ====
section
/-! DEFINITION. One arm per row of the opcode table (30_encoding.md R58). -/

namespace Sys2Proof.Machine

/-- Perform one operation. -/
def exec (i : Instr) (s : State) : Host.Outcome State Fault Refusal :=
  match i with
  | .init => Sys2Proof.Machine.execInit s
  | .isEmpty => Sys2Proof.Machine.execIsEmpty s
  | .isFull => Sys2Proof.Machine.execIsFull s
  | .tryPush v => Sys2Proof.Machine.execTryPush v s
  | .tryPop => Sys2Proof.Machine.execTryPop s
  | .rbNop => Sys2Proof.Machine.execRbNop s
  | .coreInit => Sys2Proof.Machine.execCoreInit s
  | .dispatch => Sys2Proof.Machine.execDispatch s
  | .enqueue b => Sys2Proof.Machine.execEnqueue b s
  | .dequeue => Sys2Proof.Machine.execDequeue s
  | .uTxrdy => Sys2Proof.Machine.execUTxrdy s
  | .uRxbyte b => Sys2Proof.Machine.execURxbyte b s
  | .nop => Sys2Proof.Machine.execNop s
  | .onTransmitReady => Sys2Proof.Machine.execOnTransmitReady s
  | .onByteReceived => Sys2Proof.Machine.execOnByteReceived s

end Sys2Proof.Machine
end

