-- ==== Sys2Proof/Machine/Clock.lean ====
section
/-! DEFINITION. The clocked step of CORE (44_core_cycle.md R105, R106) and of the stand-alone ring buffer
(40_ringbuffer.md R66), the operation-level requests (00_scope.md R9; 60_exceptions.md R131), and how a request word is
placed for the next step. -/

namespace Sys2Proof.Machine

/-- Perform the operations of one cycle in their order, each on the state the previous one left (R106, R66). -/
def runBundle : List Instr → State → Res State
  | [], s => .next s
  | i :: is, s => andThen (exec i s) (runBundle is)

/-- The start of a cycle of CORE: results inactive, status outputs showing the state before anything changes
(R106, R110); before the first reset they are free (U20). -/
def beginCw (s : State) : State :=
  if s.coreReset then s.setOut (CoreOut.inactive s.coreStatus)
  else (s.setOut (CoreOut.inactive s.freeCoreStatus)).setFreeCount (s.freeCount + 6)

/-- The start of a cycle of the stand-alone ring buffer (R53). -/
def beginRb (s : State) : State :=
  if s.rbReset then s.setRbOut (RbOut.inactive s.rbStatus)
  else (s.setRbOut (RbOut.inactive s.freeRbStatus)).setFreeCount (s.freeCount + 2)

/-- One clock cycle of CORE with a CW word (R105). -/
def cwCycle (w : CwWord) (s : State) : Res State := runBundle (decodeCw w) (beginCw s)

/-- One clock cycle of the stand-alone ring buffer with an RB word (R66). -/
def rbCycle (w : RbWord) (s : State) : Res State := runBundle (decodeRb w) (beginRb s)

/-- The agent R131 lists for an operation of CORE. The operations of the stand-alone ring buffer are reached through its
RB word alone, which has one push bit and one pop bit (R72). -/
def agentOf : Instr → Option Agent
  | .init => none
  | .isEmpty => none
  | .isFull => none
  | .tryPush _ => none
  | .tryPop => none
  | .rbNop => none
  | .coreInit => some .platform
  | .dispatch => some .int
  | .enqueue _ => some .main
  | .dequeue => some .main
  | .uTxrdy => some .uart
  | .uRxbyte _ => some .uart
  | .nop => none
  | .onTransmitReady => some .int
  | .onByteReceived => some .int

/-- Whether an agent may perform an operation (R131). -/
def mayPerform (a : Agent) (i : Instr) : Bool := agentOf i == some a

/-- The end of an invocation that performed `i`: the clear of the flag of the branch taken (R97). -/
def endInvocation (i : Instr) (s : State) : State :=
  if i = .onTransmitReady then s.setTxr false else s.setRxf false

/-- The operation-level invocation: decode ST, perform the operation it selects, clear its flag (R58, R94 to R97, R99). -/
def invokeBySt (s : State) : Res State :=
  match decodeSt s.st with
  | [i] => andThen (exec i s) fun t => .next (endInvocation i t)
  | _ => .next s

/-- What a called operation does. DISPATCH called in any state is the invocation itself: the condition of R93 belongs to
the cycle, and with `ST = 0b00` a call takes the byte-received branch (R99, 92_eei_decisions.md D33). -/
def callMeaning (i : Instr) (s : State) : Res State :=
  if i = .dispatch then invokeBySt s else exec i s

/-- One operation performed by an agent; an agent R131 does not list for it is refused (U15). -/
def callOp (a : Agent) (i : Instr) (s : State) : Res State :=
  if mayPerform a i then callMeaning i (beginCw s) else .refused .wrongAgent

/-- Serve one request. -/
def serve (r : Request) (s : State) : Res State :=
  match r with
  | .rb w => rbCycle w s
  | .cw w => cwCycle w s
  | .invoke => invokeBySt (beginCw s)
  | .call a i => callOp a i s

/-- Sample the next request and serve it; with none left the run has ended (R116, log 3). -/
def sample (s : State) : Res State :=
  match s.requests with
  | [] => .refused .noRequest
  | r :: rest => serve r (s.setRequests rest)

/-- Put a request where the next step samples it. -/
def placeRequest (s : State) (r : Request) : State := s.setRequests (r :: s.requests.drop 1)

/-- Make `STATUS` hold an ST word and give the byte-received branch its operand, a byte of zeros (log 15). -/
def placeSt (s : State) (w : StWord) : State :=
  if w[1] then (s.setTxr true).setRxf (w[0])
  else (((s.setTxr false).setRxf (w[0])).setRxdata 0).setRxdataWritten true

/-- Place a request word laid out in bytes so that the very next step performs it (log 15). -/
def placeWord (s : State) (bs : List Byte) : State :=
  match readWord bs with
  | .ok (.rb w) => placeRequest s (.rb w)
  | .ok (.cw w) => placeRequest s (.cw w)
  | .ok (.st w) => placeRequest (placeSt s w) .invoke
  | .error _ => s.setRequests []

end Sys2Proof.Machine
end

