-- ==== Sys2Proof/Machine/Step.lean ====
section
/-! DEFINITION. The step: one request sampled and served (44_core_cycle.md R105, R116). -/

namespace Sys2Proof.Machine

/-- One step: one clock cycle, or one operation at the operation level (R9). -/
def step (s : State) : Host.Outcome State Fault Refusal := sample s

/-- The state in which the very next step performs the request word with these bits (log 13, 14, 15). -/
def State.withFetchWord (s : State) (nbits w : Nat) : State :=
  placeWord s (natToBytes (bytesFor nbits) w)

end Sys2Proof.Machine
end

