-- ==== Sys2Proof/Machine/Micro.lean ====
section
/-! DEFINITION. The operations of MAIN, ENQUEUE (41_transmit_path.md R81), ENQUEUE_STRING (R80) and DEQUEUE (40_ringbuffer.md
R65, 20_memory.md R40), and the transmit-ready branch (43_dispatcher.md R95), split into steps between which the other agents run, for the hazards of
70_reset_and_hazards.md R144 to R146 (log 17). The clocked step does not use this. -/

namespace Sys2Proof.Machine

/-! ### Running steps with gaps -/

/-- What may fall between two steps of MAIN: invocations of the dispatcher and UART events (R144). -/
def mayInterrupt (i : Instr) : Bool := i == .dispatch || mayPerform .uart i

/-- Run the steps of one operation, each followed by what falls into the gap after it; `ε` is the type of its steps and
`Λ` that of its local values. DESIGN CHOICE (log 23): outputs are defined per cycle only (R54), so no step and no gap sets
the output pins anew; of several `TXDATA` writes in the gaps, each one transmitted (R36), `out` shows the last. -/
def runSplit {ε Λ : Type} (perform : ε → State → Λ → Res (State × Λ)) :
    List (ε × List Instr) → State → Λ → Res (State × Λ)
  | [], s, l => .next (s, l)
  | (e, gap) :: rest, s, l =>
    andThen (perform e s l) fun r => andThen (runBundle gap r.1) fun t => runSplit perform rest t r.2

/-! ### ENQUEUE -/

/-- The six steps of ENQUEUE (R81). -/
inductive EnqueueStep where
  | testFull
  | store
  | advance
  | readActive
  | setActive
  | arm
deriving DecidableEq, Repr

/-- The local values of a split ENQUEUE: its operand, and what steps 1 and 4 read. -/
structure EnqueueLocals where
  byte : Byte
  sawFull : Bool
  sawActive : Bool
deriving DecidableEq, Repr

/-- Before step 1 nothing has been read. -/
def EnqueueLocals.start (b : Byte) : EnqueueLocals := ⟨b, false, true⟩

/-- One step of a split ENQUEUE; after a full buffer was seen the others do nothing (R81). -/
def enqueueStep (e : EnqueueStep) (s : State) (l : EnqueueLocals) : State × EnqueueLocals :=
  match e with
  | .testFull => (s, { l with sawFull := s.tx.full })
  | .store =>
    if l.sawFull then (s, l) else (s.setTx { s.tx with mem := s.tx.mem.write s.tx.storeSlot l.byte }, l)
  | .advance => if l.sawFull then (s, l) else (s.setTx { s.tx with writeIndex := s.tx.nextWrite }, l)
  | .readActive => if l.sawFull then (s, l) else (s, { l with sawActive := s.active })
  | .setActive => if l.sawFull || l.sawActive then (s, l) else (s.setActive true, l)
  | .arm => if l.sawFull || l.sawActive then (s, l) else (Sys2Proof.Machine.arm s, l)

/-- The order R81 gives. -/
def enqueueOrder : List EnqueueStep := [.testFull, .store, .advance, .readActive, .setActive, .arm]

/-- The order R145 warns of: `active` read before the push. -/
def activeFirstOrder : List EnqueueStep := [.readActive, .testFull, .store, .advance, .setActive, .arm]

/-- ENQUEUE split in the given order, with the given gaps (R81). -/
def splitEnqueue (order : List EnqueueStep) (gaps : List (List Instr)) (b : Byte) (s : State) :
    Res (State × EnqueueLocals) :=
  runSplit (fun e s l => .next (enqueueStep e s l)) (order.zip gaps) s (EnqueueLocals.start b)

/-! ### ENQUEUE_STRING -/

/-- One byte of a string: its ENQUEUE, and the tally of rejections so far (R80). -/
def enqueueByte (b : Byte) (s : State) (failures : Nat) : Res (State × Nat) :=
  .next ((enqueue s b).1, if (enqueue s b).2 = .ok then failures else failures + 1)

/-- ENQUEUE_STRING at the operation level, each byte with what runs between it and the next, a drain among others: the
state after it and the tally (R80, log 18). Its output pins are those of `runSplit` (log 23). -/
def splitEnqueueString (bytes : List (Byte × List Instr)) (s : State) : Res (State × Nat) :=
  coreChecked s (runSplit enqueueByte bytes s 0)

/-! ### DEQUEUE -/

/-- The three steps of DEQUEUE: its pop tests, loads, then advances (R65, R87, R40). -/
inductive DequeueStep where
  | testEmpty
  | load
  | advance
deriving DecidableEq, Repr

/-- The local values of a split DEQUEUE: what step 1 read, and its result, `None` until step 2 has loaded. -/
structure DequeueLocals where
  sawEmpty : Bool
  value : Option Byte
deriving DecidableEq, Repr

/-- Before step 1 nothing has been read. -/
def DequeueLocals.start : DequeueLocals := ⟨false, none⟩

/-- One step of a split DEQUEUE; after an empty buffer was seen the others do nothing (R65). -/
def dequeueStep (e : DequeueStep) (s : State) (l : DequeueLocals) : Res (State × DequeueLocals) :=
  match e with
  | .testEmpty => .next (s, { l with sawEmpty := s.rx.empty })
  | .load =>
    if l.sawEmpty then .next (s, l)
    else
      match s.rx.mem.read s.rx.loadSlot with
      | none => .fault .slotNeverWritten
      | some v => .next (s, { l with value := some v })
  | .advance => .next (if l.sawEmpty then s else s.setRx s.rx.drop, l)

/-- The order R40 asks of a pop: load first, advance second. -/
def dequeueOrder : List DequeueStep := [.testEmpty, .load, .advance]

/-- DEQUEUE split in the given order, with the given gaps (R144). -/
def splitDequeue (order : List DequeueStep) (gaps : List (List Instr)) (s : State) : Res (State × DequeueLocals) :=
  runSplit dequeueStep (order.zip gaps) s DequeueLocals.start

/-! ### The transmit-ready branch -/

/-- The transmit-ready branch split into its two steps, with what falls between the write and the clear (R146); the output
pins are those of `runSplit` (log 23). -/
def splitTxBranch (gap : List Instr) (s : State) : Res State :=
  andThen (onTransmitReady s) fun t => andThen (runBundle gap t) fun u => .next (u.setTxr false)

end Sys2Proof.Machine
end

