-- ==== Sys2Proof/Machine/Trace.lean ====
section
/-! DEFINITION. What is read off a run and is no state: the events of a cycle, the transmit trace and the bytes accepted,
received and returned (44_core_cycle.md R114, R116), and the contents of a buffer (10_state.md R17). -/

namespace Sys2Proof.Machine

/-- The elements buffered, the oldest first (R17). -/
def RingBuffer.contents (b : RingBuffer) : List Byte := b.liveSlots.filterMap fun i => b.mem.read i

/-- Push a list of bytes one after the other, with the result of each push (R69). -/
def pushAll : List Byte → RingBuffer → RingBuffer × List Bool
  | [], b => (b, [])
  | v :: vs, b =>
    ((pushAll vs (b.tryPush v).1).1, (b.tryPush v).2 :: (pushAll vs (b.tryPush v).1).2)

/-- Pop `k` times, with the result of each pop (R70). -/
def popAll : Nat → RingBuffer → Res (RingBuffer × List (Option Byte))
  | 0, b => .next (b, [])
  | k + 1, b =>
    andThen b.tryPop fun r => andThen (popAll k r.1) fun q => .next (q.1, r.2 :: q.2)

/-- One action of the producer or of the consumer of a ring buffer (R68). -/
inductive QueueOp where
  | push (v : Byte)
  | pop
deriving DecidableEq, Repr

/-- What an interleaving leaves: the buffer, the bytes whose push was accepted and the bytes popped, in order. -/
structure QueueRun where
  buffer : RingBuffer
  accepted : List Byte
  popped : List Byte
deriving DecidableEq, Repr

/-- Run an interleaving of pushes and pops (R68). -/
def runQueue : List QueueOp → RingBuffer → Res QueueRun
  | [], b => .next ⟨b, [], []⟩
  | .push v :: ops, b =>
    andThen (runQueue ops (b.tryPush v).1) fun q =>
      .next { q with accepted := (if (b.tryPush v).2 then [v] else []) ++ q.accepted }
  | .pop :: ops, b =>
    andThen b.tryPop fun r =>
      andThen (runQueue ops r.1) fun q => .next { q with popped := r.2.toList ++ q.popped }

/-- The output events of CORE (R114). -/
inductive Event where
  | txWrite (b : Byte)
  | rxDrop
deriving DecidableEq, Repr

/-- The events of a cycle, in order (R114). -/
def CoreOut.events (o : CoreOut) : List Event :=
  (if o.txWrite then [.txWrite o.txWdata] else []) ++ (if o.rxDrop then [.rxDrop] else [])

/-- The byte written to `TXDATA` in a cycle. -/
def CoreOut.sent (o : CoreOut) : List Byte := if o.txWrite then [o.txWdata] else []

/-- The byte DEQUEUE returned in a cycle. -/
def CoreOut.returned (o : CoreOut) : List Byte := if o.deqValid then [o.deqData] else []

/-- The byte ENQUEUE accepted in a cycle with this word. -/
def CoreOut.accepted (o : CoreOut) (w : CwWord) : List Byte := if o.enqOk then [(cwFields w).enqData] else []

/-- A run of CORE over CW words: the last state, and the outputs of every cycle in order (R116). -/
def runCw : List CwWord → State → Res (State × List CoreOut)
  | [], s => .next (s, [])
  | w :: ws, s =>
    andThen (cwCycle w s) fun t =>
      andThen (runCw ws t) fun r => .next (r.1, t.out :: r.2)

/-- The transmit trace `tx_out` of a run (R114). -/
def txOut (os : List CoreOut) : List Byte := os.flatMap CoreOut.sent

/-- The bytes DEQUEUE returned in a run. -/
def rxOut (os : List CoreOut) : List Byte := os.flatMap CoreOut.returned

/-- The bytes ENQUEUE accepted in a run. -/
def acceptedBytes : List CwWord → List CoreOut → List Byte
  | w :: ws, o :: os => o.accepted w ++ acceptedBytes ws os
  | _, _ => []

/-- Whether the cycle of `w` with outputs `o` answered `Rejected` to an ENQUEUE (R54, R76). -/
def CoreOut.rejected (o : CoreOut) (w : CwWord) : Bool := (cwFields w).enqReq && !(cwFields w).rst && !o.enqOk

/-- The result of an ENQUEUE_STRING presented as words: the number of its ENQUEUEs that answered `Rejected` (R56, R80). -/
def stringTally : List CwWord → List CoreOut → Nat
  | w :: ws, o :: os => (o.rejected w).toNat + stringTally ws os
  | _, _ => 0

/-- Whether the cycle of `w` from `s` takes the byte-received branch (R93, R94). -/
def takesRxBranch (w : CwWord) (s : State) : Bool :=
  !(cwFields w).rst && (cwFields w).ie && !s.txr && s.rxf

/-- The byte the dispatcher pushed into the receive buffer in the cycle of `w` from `s` with outputs `o`
(95_test_vectors.md section 8 d). -/
def pushedByte (w : CwWord) (s : State) (o : CoreOut) : List Byte :=
  if takesRxBranch w s && !o.rxDrop then [s.rxdata] else []

/-- The bytes the dispatcher pushed in a run. -/
def pushedBytes : List CwWord → State → List Byte
  | [], _ => []
  | w :: ws, s =>
    match cwCycle w s with
    | .next t => pushedByte w s t.out ++ pushedBytes ws t
    | _ => []

end Sys2Proof.Machine
end

