-- ==== Sys2Proof/Safety.lean ====
section
/-! DEFINITION. What a good state is (95_test_vectors.md section 8; 10_state.md R16; 41_transmit_path.md R82) and what it
is for a step to complete. -/

namespace Sys2Proof.Machine

/-- The store of a buffer is in canonical form and lists no slot beyond `N - 1` (R30, R32). -/
structure RingBuffer.StoreOk (b : RingBuffer) : Prop where
  canonical : b.mem.wf
  inRange : ∀ c ∈ b.mem, c.1 < b.slots

/-- Every live slot holds an element (R28: contents hold only pushed elements). -/
def RingBuffer.LiveWritten (b : RingBuffer) : Prop := ∀ i ∈ b.liveSlots, (b.mem.read i).isSome

/-- A buffer as it is in every state reached after a reset: indices in range and `N >= 2` (R16), and live slots written. -/
structure RingBuffer.Good (b : RingBuffer) : Prop where
  shape : b.shapeOk = true
  live : b.LiveWritten

/-- CORE as it is in every state reached after a reset. -/
structure State.CoreGood (s : State) : Prop where
  tx : s.tx.Good
  rx : s.rx.Good
  /-- `active = 0` only with an empty transmit buffer (R82, I1). -/
  idle : s.active = false → s.tx.empty = true
  /-- `RXF` is set only after a byte has been received (R28, R99). -/
  received : s.rxf = true → s.rxdataWritten = true

/-- The stores of all three buffers, whether or not they have been reset. -/
structure State.StoresGood (s : State) : Prop where
  tx : s.tx.StoreOk
  rx : s.rx.StoreOk
  rb : s.rb.StoreOk
  txSlots : slotCountOk s.tx.slots = true
  rxSlots : slotCountOk s.rx.slots = true
  rbSlots : slotCountOk s.rb.slots = true

/-- The invariant that every step keeps. A block that has not been reset may hold anything (R29). -/
structure State.Inv (s : State) : Prop where
  stores : s.StoresGood
  core : s.coreReset = true → s.CoreGood
  rb : s.rbReset = true → s.rb.Good

/-- The operations of CORE have a meaning in this state: reset, with indices in range. -/
structure State.CoreReady (s : State) : Prop where
  reset : s.coreReset = true
  tx : s.tx.shapeOk = true
  rx : s.rx.shapeOk = true

/-- The operations of the stand-alone ring buffer have a meaning in this state. -/
structure State.RbReady (s : State) : Prop where
  reset : s.rbReset = true
  rb : s.rb.shapeOk = true

/-- The step or operation completes: it answers a next state. -/
def Completes {α : Type} (o : Res α) : Prop := ∃ t, o = .next t

/-- Everything of CORE that the spec calls state (R10) is the same in both. -/
structure SameCore (s t : State) : Prop where
  tx : t.tx = s.tx
  rx : t.rx = s.rx
  active : t.active = s.active
  txr : t.txr = s.txr
  rxf : t.rxf = s.rxf
  txdata : t.txdata = s.txdata
  rxdata : t.rxdata = s.rxdata

end Sys2Proof.Machine
end

