-- ==== Sys2Proof/Certificates/Slice0/Obligations.lean ====
section
/-! DEFINITION. The statements about the model, from the numbered rules of spec/. -/

open Sys2Proof Sys2Proof.Machine

/-! ### Reset and the invariant -/

/-- The reset values of 10_state.md R28, for every choice of the open slot counts: the four indices, `active` and both
flags are 0. -/
def Obligations.ResetLeavesTheSpecsValues : Prop :=
  ∀ nTx nRx nRb : Nat,
    let s := State.resetOf nTx nRx nRb
    s.tx.writeIndex = 0 ∧ s.tx.readIndex = 0 ∧ s.rx.writeIndex = 0 ∧ s.rx.readIndex = 0 ∧
    s.active = false ∧ s.txr = false ∧ s.rxf = false ∧
    s.tx.slots = nTx ∧ s.rx.slots = nRx ∧ s.rb.slots = nRb

/-- The invariant holds right after reset, for all slot counts of at least 2. -/
def Obligations.ResetMeetsTheInvariant : Prop :=
  ∀ nTx nRx nRb : Nat, 2 ≤ nTx → 2 ≤ nRx → 2 ≤ nRb → (State.resetOf nTx nRx nRb).Inv

/-- Every step that answers keeps the invariant: indices in range (R16), `active = 0` only with an empty transmit buffer
(R82), stores canonical, live slots written. -/
def Obligations.EveryStepKeepsTheInvariant : Prop :=
  ∀ s t : State, s.Inv → step s = .next t → t.Inv

/-- The step is total on reset states (R105): every CW word is performed by CORE and every RB word by the stand-alone ring
buffer, with no fault and no refusal (R120). -/
def Obligations.EveryWordIsPerformed : Prop :=
  (∀ (s : State) (w : CwWord) (rest : List Request),
    s.Inv → s.coreReset = true → s.requests = .cw w :: rest →
    ∃ t, step s = .next t ∧ t.requests = rest ∧ t.coreReset = true ∧ t.Inv) ∧
  (∀ (s : State) (w : RbWord) (rest : List Request),
    s.Inv → s.rbReset = true → s.requests = .rb w :: rest →
    ∃ t, step s = .next t ∧ t.requests = rest ∧ t.rbReset = true ∧ t.Inv)

/-- Before the first reset of a block only its reset runs: a word with `rst = 0`, an invocation and a call of any operation
but CORE_INIT are refused (R143), a word with `rst = 1` and a call of CORE_INIT are performed (R29, R111). The marks that say
whether a block has been reset are the model's (log 8, DEDUCED), and the form of a call is log 16. -/
def Obligations.OnlyAResetRunsBeforeTheFirstReset : Prop :=
  (∀ (s : State) (w : CwWord) (rest : List Request), s.coreReset = false → s.requests = .cw w :: rest →
    ((cwFields w).rst = false → step s = .refused .beforeReset) ∧
    ((cwFields w).rst = true → ∃ t, step s = .next t ∧ t.coreReset = true)) ∧
  (∀ (s : State) (w : RbWord) (rest : List Request), s.rbReset = false → s.requests = .rb w :: rest →
    ((rbFields w).rst = false → step s = .refused .beforeReset) ∧
    ((rbFields w).rst = true → ∃ t, step s = .next t ∧ t.rbReset = true)) ∧
  (∀ (s : State) (rest : List Request), s.coreReset = false → s.requests = .invoke :: rest →
    step s = .refused .beforeReset) ∧
  (∀ (s : State) (a : Agent) (i : Instr) (rest : List Request), s.coreReset = false → s.requests = .call a i :: rest →
    mayPerform a i = true →
    (i ≠ .coreInit → step s = .refused .beforeReset) ∧
    (i = .coreInit → ∃ t, step s = .next t ∧ t.coreReset = true))

/-- A buffer with an index out of range or fewer than two slots is given no behaviour (R16, U14, U17): every operation
but the two resets is refused. -/
def Obligations.IllFormedBuffersAreRefused : Prop :=
  (∀ (s : State) (i : Instr), s.coreReset = true → (s.tx.shapeOk && s.rx.shapeOk) = false →
    i.format ≠ .rb → i ≠ .coreInit → exec i s = .refused .illFormedBuffer) ∧
  (∀ (s : State) (i : Instr), s.rbReset = true → s.rb.shapeOk = false →
    i.format = .rb → i ≠ .init → exec i s = .refused .illFormedBuffer)

/-- CORE_INIT from any state, a state before the first reset included: the indices, `active` and the flags are 0 and
nothing else of CORE is written (R111). -/
def Obligations.CoreInitResult : Prop :=
  ∀ s : State, exec .coreInit s = .next { s with
    tx := { s.tx with writeIndex := 0, readIndex := 0 }
    rx := { s.rx with writeIndex := 0, readIndex := 0 }
    active := false, txr := false, rxf := false, coreReset := true }

/-- INIT from any state: both indices 0, the store not written (R61). -/
def Obligations.InitResult : Prop :=
  ∀ s : State, exec .init s = .next { s with
    rb := { s.rb with writeIndex := 0, readIndex := 0 }, rbReset := true }

/-! ### The ring buffer -/

/-- IS_EMPTY and IS_FULL show their conditions and change nothing else (R62, R63). -/
def Obligations.IsEmptyAndIsFullResults : Prop :=
  ∀ s : State, s.RbReady →
    exec .isEmpty s = .next { s with rbOut := { s.rbOut with status := { s.rbOut.status with
      empty := decide (s.rb.writeIndex = s.rb.readIndex) } } } ∧
    exec .isFull s = .next { s with rbOut := { s.rbOut with status := { s.rbOut.status with
      full := decide (adv s.rb.slots s.rb.writeIndex = s.rb.readIndex) } } }

/-- TRY_PUSH: a full buffer rejects and nothing changes; otherwise the value stands in the slot of the write index, every
other slot reads as before, and the write index advances (R64). -/
def Obligations.TryPushResult : Prop :=
  ∀ (s : State) (v : Byte), s.RbReady →
    (adv s.rb.slots s.rb.writeIndex = s.rb.readIndex →
      exec (.tryPush v) s = .next { s with rbOut := { s.rbOut with wrOk := false } }) ∧
    (adv s.rb.slots s.rb.writeIndex ≠ s.rb.readIndex → ∃ m : Memory,
      exec (.tryPush v) s = .next { s with
        rb := { s.rb with mem := m, writeIndex := adv s.rb.slots s.rb.writeIndex }
        rbOut := { s.rbOut with wrOk := true } } ∧
      m.read s.rb.storeSlot = some v ∧ ∀ a, a ≠ s.rb.storeSlot → m.read a = s.rb.mem.read a)

/-- TRY_POP: an empty buffer answers "no value" with the bus all ones and nothing changes; otherwise the element of the
read index is returned and the read index advances, the store unchanged (R65).
A slot nothing has written has no value to return: the fault is the model's choice (log 7). -/
def Obligations.TryPopResult : Prop :=
  ∀ s : State, s.RbReady →
    (s.rb.writeIndex = s.rb.readIndex →
      exec .tryPop s = .next { s with rbOut := { s.rbOut with rdValid := false, rdData := 0xFF } }) ∧
    (s.rb.writeIndex ≠ s.rb.readIndex → ∀ v, s.rb.mem.read s.rb.loadSlot = some v →
      exec .tryPop s = .next { s with
        rb := { s.rb with readIndex := adv s.rb.slots s.rb.readIndex }
        rbOut := { s.rbOut with rdValid := true, rdData := v } }) ∧
    (s.rb.writeIndex ≠ s.rb.readIndex → s.rb.mem.read s.rb.loadSlot = none →
      exec .tryPop s = .fault .slotNeverWritten)

/-- The two idle operations and the idle words of R57 and R112: the state is unchanged, the result outputs are inactive and
the status outputs show the state at the start; only the request has been taken. -/
def Obligations.IdleWordsChangeNothing : Prop :=
  (∀ s : State, s.CoreReady → exec .nop s = .next s) ∧
  (∀ s : State, s.RbReady → exec .rbNop s = .next s) ∧
  (∀ (s : State) (w : CwWord) (rest : List Request), s.CoreReady → s.requests = .cw w :: rest →
    (cwFields w).rst = false → (cwFields w).ie = false → (cwFields w).enqReq = false →
    (cwFields w).deqReq = false → (cwFields w).uTxrdy = false → (cwFields w).uRxbyte = false →
    step s = .next { s with requests := rest, out := CoreOut.inactive s.coreStatus }) ∧
  (∀ (s : State) (w : RbWord) (rest : List Request), s.RbReady → s.requests = .rb w :: rest →
    (rbFields w).rst = false → (rbFields w).wrEn = false → (rbFields w).rdEn = false →
    step s = .next { s with requests := rest, rbOut := RbOut.inactive s.rbStatus })

/-- `count` is the distance from the read index to the write index, modulo `N`; it is 0 exactly when the buffer is empty
and `N - 1` exactly when it is full, and is the length of the contents, which are the elements of the live slots in ring order (R17). -/
def Obligations.CountDecidesEmptyAndFull : Prop :=
  ∀ b : RingBuffer, b.Good →
    b.count < b.slots ∧ (b.readIndex + b.count) % b.slots = b.writeIndex ∧ (b.empty = true ↔ b.count = 0) ∧ (b.full = true ↔ b.count = b.slots - 1) ∧
    b.contents.length = b.count ∧
    ∀ k, k < b.count → b.contents[k]? = b.mem.read ((b.readIndex + k) % b.slots)

/-- A buffer is never both empty and full; a full one holds `N - 1` elements and the slot of the write index is not
among them (R15). -/
def Obligations.FullBufferKeepsOneSlotFree : Prop :=
  ∀ b : RingBuffer, b.Good →
    ¬ (b.empty = true ∧ b.full = true) ∧
    (b.full = true ↔ adv b.slots b.writeIndex = b.readIndex) ∧
    (b.full = true → b.contents.length = b.slots - 1 ∧ b.writeIndex ∉ b.liveSlots)

/-- A push stores only when the buffer is not full, and then never to a slot that holds a live element: every live
element is still there (R37). -/
def Obligations.PushNeverOverwritesALiveElement : Prop :=
  ∀ (b : RingBuffer) (v : Byte), b.Good →
    (b.full = true → b.tryPush v = (b, false)) ∧
    (b.full = false → b.storeSlot ∉ b.liveSlots ∧ (b.tryPush v).1.mem.read b.storeSlot = some v ∧
      ∀ i ∈ b.liveSlots, (b.tryPush v).1.mem.read i = b.mem.read i)

/-- Push appends at the tail, pop takes the head, and what is rejected, finds nothing or only looks leaves the contents
unchanged; INIT empties them (R68). -/
def Obligations.QueueLaw : Prop :=
  ∀ b : RingBuffer, b.Good →
    (∀ v, (b.tryPush v).2 = true → (b.tryPush v).1.contents = b.contents ++ [v]) ∧
    (∀ v, (b.tryPush v).2 = false → (b.tryPush v).1.contents = b.contents) ∧
    (∀ v, (b.tryPush v).2 = !b.full) ∧
    (∃ r, b.tryPop = .next r ∧
      ((r.2 = none ∧ b.contents = [] ∧ r.1.contents = []) ∨
       ∃ v, r.2 = some v ∧ b.contents = v :: r.1.contents)) ∧
    b.init.contents = [] ∧
    ∀ s t : State, s.rb = b → (exec .isEmpty s = .next t ∨ exec .isFull s = .next t) → t.rb.contents = b.contents

/-- Under every interleaving of pushes and pops the popped values are the accepted ones in order: what was in the buffer,
then what was accepted, is what was popped, then what is left (R68). -/
def Obligations.FifoUnderEveryInterleaving : Prop :=
  ∀ (ops : List QueueOp) (b : RingBuffer), b.Good →
    ∃ q, runQueue ops b = .next q ∧ q.buffer.Good ∧
      b.contents ++ q.accepted = q.popped ++ q.buffer.contents

/-- From an empty buffer the first `N - 1` pushes succeed and every further one is rejected; the buffer is full exactly
from the `(N - 1)`-th push on (R69). -/
def Obligations.CapacityIsSlotsMinusOne : Prop :=
  ∀ (b : RingBuffer) (vs : List Byte), b.Good → b.empty = true →
    (pushAll vs b).2 =
      List.replicate (min vs.length (b.slots - 1)) true ++ List.replicate (vs.length - (b.slots - 1)) false ∧
    ((pushAll vs b).1.full = true ↔ b.slots - 1 ≤ vs.length) ∧
    (pushAll vs b).1.contents = vs.take (b.slots - 1)

/-- Round trip: `N - 1` bytes pushed into an empty buffer come back in order, the buffer is empty again, one more pop
finds nothing, and from indices 0 both indices end at `N - 1` (R70). -/
def Obligations.RoundTripReturnsTheBytesPushed : Prop :=
  ∀ (b : RingBuffer) (vs : List Byte), b.Good → b.empty = true → vs.length = b.slots - 1 →
    ∃ c, popAll vs.length (pushAll vs b).1 = .next (c, vs.map some) ∧ c.empty = true ∧
      c.tryPop = .next (c, none) ∧
      (b.writeIndex = 0 → c.writeIndex = b.slots - 1 ∧ c.readIndex = b.slots - 1)

/-- A push and a pop in one cycle: the pop sees the state at the start and the push the state it left, so the push always
succeeds, an empty buffer returns nothing, and `full` and `empty` show the start of the cycle (R66). -/
def Obligations.PopThenPushInOneCycle : Prop :=
  ∀ (s : State) (w : RbWord) (rest : List Request), s.Inv → s.rbReset = true → s.requests = .rb w :: rest →
    (rbFields w).rst = false → (rbFields w).wrEn = true → (rbFields w).rdEn = true →
    ∃ t, step s = .next t ∧
      t.rbOut = ⟨true, !s.rb.empty, s.rb.contents.headD 0xFF, ⟨s.rb.empty, s.rb.full⟩⟩ ∧
      t.rb.contents = s.rb.contents.tail ++ [(rbFields w).wrData] ∧
      (s.rb.full = true → t.rb.full = true)

/-! ### The transmit path -/

/-- ENQUEUE: a full buffer rejects and no state changes; otherwise the byte stands in the slot of the write index, every
other slot reads as before, `active` is 1, and `TXR` is set exactly when the path was idle (R76, R78). -/
def Obligations.EnqueueResult : Prop :=
  ∀ (s : State) (b : Byte), s.CoreReady →
    (adv s.tx.slots s.tx.writeIndex = s.tx.readIndex →
      exec (.enqueue b) s = .next { s with out := { s.out with enqOk := false } }) ∧
    (adv s.tx.slots s.tx.writeIndex ≠ s.tx.readIndex → ∃ m : Memory,
      exec (.enqueue b) s = .next { s with
        tx := { s.tx with mem := m, writeIndex := adv s.tx.slots s.tx.writeIndex }
        active := true, txr := s.txr || !s.active
        out := { s.out with enqOk := true } } ∧
      m.read s.tx.storeSlot = some b ∧ ∀ a, a ≠ s.tx.storeSlot → m.read a = s.tx.mem.read a)

/-- ON_TRANSMIT_READY: with a byte buffered exactly one is popped and written to `TXDATA`, `active` as it was; with none,
`active` is cleared and nothing is written; `TXR` is not touched (R77).
The fault for a slot nothing has written is the model's choice (log 7). -/
def Obligations.OnTransmitReadyResult : Prop :=
  ∀ s : State, s.CoreReady →
    (s.tx.writeIndex = s.tx.readIndex → exec .onTransmitReady s = .next { s with active := false }) ∧
    (s.tx.writeIndex ≠ s.tx.readIndex → ∀ b, s.tx.mem.read s.tx.loadSlot = some b →
      exec .onTransmitReady s = .next { s with
        tx := { s.tx with readIndex := adv s.tx.slots s.tx.readIndex }
        txdata := b, out := { s.out with txWrite := true, txWdata := b } }) ∧
    (s.tx.writeIndex ≠ s.tx.readIndex → s.tx.mem.read s.tx.loadSlot = none →
      exec .onTransmitReady s = .fault .slotNeverWritten)

/-- ENQUEUE_STRING with nothing between its bytes: the bytes that fit are accepted in order, the tally is the number that
did not fit, and the invariant is kept; with no byte nothing changes. With any invocations and UART events after each byte
it completes too; each byte is accepted in order or counted by the tally, and what was buffered and then accepted is what was
taken out and then is buffered (R80; what runs between the bytes is the model's form, logs 17 and 18). -/
def Obligations.EnqueueStringCountsItsRejections : Prop :=
  (∀ (s : State) (bs : List Byte), s.Inv → s.coreReset = true →
    ∃ t, runEnqueueString bs s = .next (t, bs.length - (s.tx.slots - 1 - s.tx.count)) ∧
      t.tx.contents = s.tx.contents ++ bs.take (s.tx.slots - 1 - s.tx.count) ∧ t.Inv ∧ (bs = [] → t = s)) ∧
  (∀ (s : State) (ps : List (Byte × List Instr)), s.Inv → s.coreReset = true →
    (∀ p ∈ ps, ∀ i ∈ p.2, mayInterrupt i = true) →
    ∃ (r : State × Nat) (accepted sent : List Byte), splitEnqueueString ps s = .next r ∧ r.1.Inv ∧
      accepted.Sublist (ps.map Prod.fst) ∧ accepted.length + r.2 = ps.length ∧
      s.tx.contents ++ accepted = sent ++ r.1.tx.contents)

/-- The plain expansion of ENQUEUE_STRING into request words does what the operation-level loop does: the same state of CORE,
and the cycles that answered `Rejected` are as many as the tally. The general expansion, with any cycles without reset or
ENQUEUE between the words and any other fields in them: each byte is accepted in order or counted by the tally, and what was
buffered and then accepted is what was sent and then is buffered (R56, R80, log 18). -/
def Obligations.EnqueueStringWordsDoTheSame : Prop :=
  (∀ (s : State) (bs : List Byte), s.Inv → s.coreReset = true →
    ∃ r : State × List CoreOut, runCw (enqueueStringWords bs) s = .next r ∧
      SameCore (enqueueString bs s).1 r.1 ∧
      stringTally (enqueueStringWords bs) r.2 = (enqueueString bs s).2) ∧
  (∀ (s : State) (ps : List StringByte), s.Inv → s.coreReset = true → (∀ p ∈ ps, ∀ f ∈ p.gap, f.rst = false) →
    ∃ (r : State × List CoreOut) (accepted : List Byte), runCw (spreadStringWords ps) s = .next r ∧ r.1.Inv ∧
      accepted = acceptedBytes (spreadStringWords ps) r.2 ∧ accepted.Sublist (ps.map StringByte.byte) ∧
      accepted.length + stringTally (spreadStringWords ps) r.2 = ps.length ∧
      s.tx.contents ++ accepted = txOut r.2 ++ r.1.tx.contents)

/-! ### The receive path -/

/-- DEQUEUE: an empty buffer answers "no value" with the bus all ones and nothing changes; otherwise the oldest byte is
returned and the read index advances (R87). The fault for a slot nothing has written is the model's choice (log 7). -/
def Obligations.DequeueResult : Prop :=
  ∀ s : State, s.CoreReady →
    (s.rx.writeIndex = s.rx.readIndex →
      exec .dequeue s = .next { s with out := { s.out with deqValid := false, deqData := 0xFF } }) ∧
    (s.rx.writeIndex ≠ s.rx.readIndex → ∀ b, s.rx.mem.read s.rx.loadSlot = some b →
      exec .dequeue s = .next { s with
        rx := { s.rx with readIndex := adv s.rx.slots s.rx.readIndex }
        out := { s.out with deqValid := true, deqData := b } }) ∧
    (s.rx.writeIndex ≠ s.rx.readIndex → s.rx.mem.read s.rx.loadSlot = none →
      exec .dequeue s = .fault .slotNeverWritten)

/-- ON_BYTE_RECEIVED, with the byte of `RXDATA`: a full buffer drops it, no slot and no index changes and `rx_drop` is 1;
otherwise the byte stands in the slot of the write index and every other slot reads as before (R86). With `RXDATA` never
written since power-up the read is the fault of R99. -/
def Obligations.OnByteReceivedResult : Prop :=
  ∀ s : State, s.CoreReady →
    (s.rxdataWritten = false → exec .onByteReceived s = .fault .rxdataNeverWritten) ∧
    (s.rxdataWritten = true → adv s.rx.slots s.rx.writeIndex = s.rx.readIndex →
      exec .onByteReceived s = .next { s with out := { s.out with rxDrop := true } }) ∧
    (s.rxdataWritten = true → adv s.rx.slots s.rx.writeIndex ≠ s.rx.readIndex → ∃ m : Memory,
      exec .onByteReceived s = .next { s with
        rx := { s.rx with mem := m, writeIndex := adv s.rx.slots s.rx.writeIndex } } ∧
      m.read s.rx.storeSlot = some s.rxdata ∧ ∀ a, a ≠ s.rx.storeSlot → m.read a = s.rx.mem.read a)

/-! ### The dispatcher -/

/-- DISPATCH as a row of a CW word, not invoked, and its transmit-ready branch: with no flag set nothing happens; with `TXR`
set the branch pops one byte or clears `active`, clears `TXR` and leaves `RXF` (R93 to R95, R97, R100).
That the row holds the condition of its invocation, so that it does nothing with no flag set, is the model's reading of R59
and R93 (log 12, DEDUCED); a call of DISPATCH in that state takes the byte-received branch (`InvocationWithNeitherFlagSet`).
The fault for a slot nothing has written is the model's choice (log 7). -/
def Obligations.DispatchTransmitBranchResult : Prop :=
  ∀ s : State, s.CoreReady →
    (s.txr = false → s.rxf = false → exec .dispatch s = .next s) ∧
    (s.txr = true → s.tx.writeIndex = s.tx.readIndex →
      exec .dispatch s = .next { s with active := false, txr := false }) ∧
    (s.txr = true → s.tx.writeIndex ≠ s.tx.readIndex → ∀ b, s.tx.mem.read s.tx.loadSlot = some b →
      exec .dispatch s = .next { s with
        tx := { s.tx with readIndex := adv s.tx.slots s.tx.readIndex }
        txdata := b, txr := false, out := { s.out with txWrite := true, txWdata := b } }) ∧
    (s.txr = true → s.tx.writeIndex ≠ s.tx.readIndex → s.tx.mem.read s.tx.loadSlot = none →
      exec .dispatch s = .fault .slotNeverWritten)

/-- DISPATCH, byte-received branch: with only `RXF` set the byte of `RXDATA` is pushed, or dropped when the buffer is
full, and `RXF` is cleared either way; `TXR`, `TXDATA`, `tx` and `active` are not touched (R96, R97). With `RXDATA` never
written since power-up the read is the fault of R99; that `RXF` says otherwise happens in no state of the invariant. -/
def Obligations.DispatchReceiveBranchResult : Prop :=
  ∀ s : State, s.CoreReady → s.txr = false → s.rxf = true →
    (s.rxdataWritten = false → exec .dispatch s = .fault .rxdataNeverWritten) ∧
    (s.rxdataWritten = true → adv s.rx.slots s.rx.writeIndex = s.rx.readIndex →
      exec .dispatch s = .next { s with rxf := false, out := { s.out with rxDrop := true } }) ∧
    (s.rxdataWritten = true → adv s.rx.slots s.rx.writeIndex ≠ s.rx.readIndex → ∃ m : Memory,
      exec .dispatch s = .next { s with
        rx := { s.rx with mem := m, writeIndex := adv s.rx.slots s.rx.writeIndex }, rxf := false } ∧
      m.read s.rx.storeSlot = some s.rxdata ∧ ∀ a, a ≠ s.rx.storeSlot → m.read a = s.rx.mem.read a)

/-- With neither flag set an invocation, or a call of DISPATCH, takes the byte-received branch (R99): a stale byte is pushed
as if it were data, or dropped when the buffer is full, and a `RXDATA` never written is a fault. -/
def Obligations.InvocationWithNeitherFlagSet : Prop :=
  ∀ (s : State) (r : Request) (rest : List Request), (r = .invoke ∨ r = .call .int .dispatch) →
    s.CoreReady → s.requests = r :: rest → s.txr = false → s.rxf = false →
    (s.rxdataWritten = false → step s = .fault .rxdataNeverWritten) ∧
    (s.rxdataWritten = true → s.rx.full = false → ∃ t, step s = .next t ∧
      t.rx.writeIndex = adv s.rx.slots s.rx.writeIndex ∧ t.rx.readIndex = s.rx.readIndex ∧
      t.rx.mem.read s.rx.storeSlot = some s.rxdata ∧
      (∀ a, a ≠ s.rx.storeSlot → t.rx.mem.read a = s.rx.mem.read a) ∧
      t.txr = false ∧ t.rxf = false ∧ t.tx = s.tx ∧ t.active = s.active ∧ t.txdata = s.txdata ∧ t.rxdata = s.rxdata) ∧
    (s.rxdataWritten = true → s.rx.full = true → ∃ t, step s = .next t ∧ t.out.rxDrop = true ∧ SameCore s t)

/-- The two ways the spec gives an invocation agree: the pseudocode's branch on `TXR`, and the decode of the ST word by
the opcode table followed by the operation it selects and the clear of its flag (R58, R94 to R97). -/
def Obligations.StDecodeAgreesWithTheBranch : Prop :=
  ∀ s : State, invokeBySt s = coreChecked s (invoke s)

/-- Both flags set: the first invocation serves transmit-ready and leaves `RXF`, the second serves the byte; the byte is
late, not lost (R100). -/
def Obligations.BothFlagsAreServedTransmitFirst : Prop :=
  ∀ (s : State) (w v : CwWord), s.Inv → s.coreReset = true → s.txr = true → s.rxf = true →
    w = assembleCw [.ie] → v = assembleCw [.ie] →
    ∃ t u, cwCycle w s = .next t ∧ t.txr = false ∧ t.rxf = true ∧ t.rx = s.rx ∧
      cwCycle v t = .next u ∧ u.txr = false ∧ u.rxf = false ∧ u.tx = t.tx ∧
      (s.rx.full = false → u.rx.contents = s.rx.contents ++ [s.rxdata]) ∧
      (s.rx.full = true → u.rx = s.rx ∧ u.out.rxDrop = true)

/-! ### The cycle -/

/-- U_TXRDY sets `TXR`; U_RXBYTE writes `RXDATA` and sets `RXF`, overwriting an untaken byte (R108, R109).
That the byte counts as received since power-up is the model's marker (log 9). -/
def Obligations.UartEventResults : Prop :=
  ∀ (s : State) (b : Byte), s.CoreReady →
    exec .uTxrdy s = .next { s with txr := true } ∧
    exec (.uRxbyte b) s = .next { s with rxdata := b, rxf := true, rxdataWritten := true }

/-- The order inside a cycle: status outputs, DEQUEUE, DISPATCH, ENQUEUE, UART events, each on the state the previous one
left (R106). -/
def Obligations.CycleIsTheFixedSequence : Prop :=
  ∀ (s : State) (w : CwWord), s.CoreReady → (cwFields w).rst = false →
    cwCycle w s =
      andThen (if (cwFields w).deqReq then exec .dequeue { s with out := CoreOut.inactive s.coreStatus }
        else .next { s with out := CoreOut.inactive s.coreStatus }) fun s1 =>
      andThen (if (cwFields w).ie && (s1.txr || s1.rxf) then exec .dispatch s1 else .next s1) fun s2 =>
      andThen (if (cwFields w).enqReq then exec (.enqueue (cwFields w).enqData) s2 else .next s2) fun s3 =>
      andThen (if (cwFields w).uTxrdy then exec .uTxrdy s3 else .next s3) fun s4 =>
      if (cwFields w).uRxbyte then exec (.uRxbyte (cwFields w).uRxdata) s4 else .next s4

/-- A set wins over a clear in the same cycle, for `TXR` (U_TXRDY and ARM), for `RXF` and for `active` (R107). -/
def Obligations.SetWinsOverClear : Prop :=
  ∀ (s : State) (w : CwWord), s.Inv → s.coreReset = true → (cwFields w).rst = false →
    ∃ t, cwCycle w s = .next t ∧
      ((cwFields w).uTxrdy = true → t.txr = true) ∧
      ((cwFields w).uRxbyte = true → t.rxf = true ∧ t.rxdata = (cwFields w).uRxdata) ∧
      ((cwFields w).enqReq = true →
        s.active = false ∨ ((cwFields w).ie = true ∧ s.txr = true ∧ s.tx.empty = true) →
        t.active = true ∧ t.txr = true ∧ t.out.enqOk = true)

/-- With `rst = 1` only the reset is performed, whatever the other fields hold, and the result outputs are inactive (R50). -/
def Obligations.ResetOverridesTheOtherFields : Prop :=
  (∀ (s : State) (w : CwWord) (rest : List Request), s.requests = .cw w :: rest → (cwFields w).rst = true →
    step s = exec .coreInit (beginCw (s.setRequests rest)) ∧
    ∃ t, step s = .next t ∧ t.out = CoreOut.inactive t.out.status) ∧
  (∀ (s : State) (w : RbWord) (rest : List Request), s.requests = .rb w :: rest → (rbFields w).rst = true →
    step s = exec .init (beginRb (s.setRequests rest)) ∧
    ∃ t, step s = .next t ∧ t.rbOut = RbOut.inactive t.rbOut.status)

/-- The status outputs show the state at the start of the cycle and do not see the cycle's operations (R53, R54, R110). -/
def Obligations.StatusOutputsShowTheStartOfTheCycle : Prop :=
  (∀ (s t : State) (w : CwWord), s.coreReset = true → cwCycle w s = .next t →
    t.out.status = ⟨s.txr || s.rxf, decide (s.tx.writeIndex = s.tx.readIndex),
      decide (adv s.tx.slots s.tx.writeIndex = s.tx.readIndex), decide (s.rx.writeIndex = s.rx.readIndex),
      decide (adv s.rx.slots s.rx.writeIndex = s.rx.readIndex), s.active⟩) ∧
  (∀ (s t : State) (w : RbWord), s.rbReset = true → rbCycle w s = .next t →
    t.rbOut.status = ⟨decide (s.rb.writeIndex = s.rb.readIndex),
      decide (adv s.rb.slots s.rb.writeIndex = s.rb.readIndex)⟩)

/-- DEQUEUE returns a byte exactly when `rx_empty` is 0 in that cycle, and it is the oldest one (R110, R87). -/
def Obligations.DeqValidAgreesWithRxEmpty : Prop :=
  ∀ (s : State) (w : CwWord), s.Inv → s.coreReset = true → (cwFields w).rst = false →
    ∃ t, cwCycle w s = .next t ∧
      t.out.deqValid = ((cwFields w).deqReq && !t.out.status.rxEmpty) ∧
      t.out.deqData = (if (cwFields w).deqReq then s.rx.contents.headD 0xFF else 0xFF)

/-- The event of a cycle, exactly: `TxWrite` of the oldest byte when the transmit-ready branch finds one, `RxDrop` when
the byte-received branch finds the buffer full after the cycle's DEQUEUE, otherwise none; never two (R102). -/
def Obligations.AtMostOneEventPerCycle : Prop :=
  ∀ (s : State) (w : CwWord), s.Inv → s.coreReset = true →
    ∃ t, cwCycle w s = .next t ∧
      t.out.events =
        if (cwFields w).rst || !(cwFields w).ie then []
        else if s.txr then s.tx.contents.head?.toList.map Event.txWrite
        else if s.rxf && s.rx.full && !(cwFields w).deqReq then [Event.rxDrop]
        else []

/-- The transmit trace over any run without a reset: what was buffered, then what was accepted, is what was sent, then
what is left; so `tx_out` is a prefix of it and all of it once the buffer is empty (R114). -/
def Obligations.TransmitTraceIsTheAcceptedBytes : Prop :=
  ∀ (ws : List CwWord) (s : State), s.Inv → s.coreReset = true → (∀ w ∈ ws, (cwFields w).rst = false) →
    ∃ r : State × List CoreOut, runCw ws s = .next r ∧
      s.tx.contents ++ acceptedBytes ws r.2 = txOut r.2 ++ r.1.tx.contents

/-- The receive stream over any run without a reset: what was buffered, then what the dispatcher pushed, is what DEQUEUE
returned, then what is left (R90). -/
def Obligations.ReceivedBytesAreReturnedInOrder : Prop :=
  ∀ (ws : List CwWord) (s : State), s.Inv → s.coreReset = true → (∀ w ∈ ws, (cwFields w).rst = false) →
    ∃ r : State × List CoreOut, runCw ws s = .next r ∧
      s.rx.contents ++ pushedBytes ws s = rxOut r.2 ++ r.1.rx.contents

/-- From any good state a UART that answers every cycle drains the transmit buffer: after `count + 2` cycles of `ie` and
U_TXRDY without ENQUEUE or reset, whatever happens on the receive side in them, every buffered byte has been sent in order and
the path is idle (R83). -/
def Obligations.TransmitPathDrainsToIdle : Prop :=
  ∀ (s : State) (ws : List CwWord), s.Inv → s.coreReset = true → ws.length = s.tx.count + 2 →
    (∀ w ∈ ws, (cwFields w).rst = false ∧ (cwFields w).ie = true ∧ (cwFields w).uTxrdy = true ∧
      (cwFields w).enqReq = false) →
    ∃ r : State × List CoreOut, runCw ws s = .next r ∧
      txOut r.2 = s.tx.contents ∧ r.1.tx.empty = true ∧ r.1.active = false

/-- A byte enqueued on an idle path is written to `TXDATA` in the next cycle with `ie = 1` (R152). -/
def Obligations.EnqueuedByteIsSentInTheNextCycle : Prop :=
  ∀ (s : State) (w v : CwWord), s.Inv → s.coreReset = true → s.active = false →
    (cwFields w).rst = false → (cwFields w).enqReq = true →
    (cwFields v).rst = false → (cwFields v).ie = true →
    ∃ t u, cwCycle w s = .next t ∧ cwCycle v t = .next u ∧ t.out.enqOk = true ∧
      u.out.txWrite = true ∧ u.out.txWdata = (cwFields w).enqData ∧ u.txdata = (cwFields w).enqData

/-- A byte delivered in a cycle is pushed in the next and can be dequeued in the one after it, and not before (R152). -/
def Obligations.ReceivedByteIsReturnedTwoCyclesLater : Prop :=
  ∀ (s : State) (w v u : CwWord), s.Inv → s.coreReset = true → s.txr = false → s.rxf = false → s.rx.empty = true →
    (cwFields w).rst = false → (cwFields w).uRxbyte = true → (cwFields w).enqReq = false → (cwFields w).uTxrdy = false →
    (cwFields v).rst = false → (cwFields v).ie = true → (cwFields u).rst = false → (cwFields u).deqReq = true →
    ∃ a b c, cwCycle w s = .next a ∧ cwCycle v a = .next b ∧ cwCycle u b = .next c ∧
      a.out.deqValid = false ∧ b.out.deqValid = false ∧
      c.out.deqValid = true ∧ c.out.deqData = (cwFields w).uRxdata

/-! ### Whole-machine rules -/

/-- Each index has one writer besides the resets, and the agent R18 names is the one that may perform it. -/
def Obligations.EachIndexHasOneWriter : Prop :=
  ∀ (i : Instr) (s t : State), exec i s = .next t →
    (t.tx.writeIndex ≠ s.tx.writeIndex → i = .coreInit ∨ (mayPerform .main i = true ∧ ∃ b, i = .enqueue b)) ∧
    (t.tx.readIndex ≠ s.tx.readIndex →
      i = .coreInit ∨ (mayPerform .int i = true ∧ (i = .dispatch ∨ i = .onTransmitReady))) ∧
    (t.rx.writeIndex ≠ s.rx.writeIndex →
      i = .coreInit ∨ (mayPerform .int i = true ∧ (i = .dispatch ∨ i = .onByteReceived))) ∧
    (t.rx.readIndex ≠ s.rx.readIndex → i = .coreInit ∨ (mayPerform .main i = true ∧ i = .dequeue)) ∧
    (t.rb.writeIndex ≠ s.rb.writeIndex → i = .init ∨ ∃ v, i = .tryPush v) ∧
    (t.rb.readIndex ≠ s.rb.readIndex → i = .init ∨ i = .tryPop)

/-- `active` is set only by ENQUEUE, and cleared only by the reset or by the interrupt side on finding the buffer empty
(R19, R79). -/
def Obligations.ActiveHasItsTwoWriters : Prop :=
  ∀ (i : Instr) (s t : State), exec i s = .next t →
    (s.active = false → t.active = true → ∃ b, i = .enqueue b) ∧
    (s.active = true → t.active = false →
      i = .coreInit ∨ ((i = .dispatch ∨ i = .onTransmitReady) ∧ s.tx.empty = true ∧ t.tx = s.tx))

/-- Who sets and who clears the status flags and who writes the data registers (R22 to R24). -/
def Obligations.BoundaryRegistersHaveTheirWriters : Prop :=
  ∀ (i : Instr) (s t : State), exec i s = .next t →
    (s.txr = false → t.txr = true → i = .uTxrdy ∨ ∃ b, i = .enqueue b ∧ s.active = false) ∧
    (s.txr = true → t.txr = false → i = .coreInit ∨ i = .dispatch) ∧
    (s.rxf = false → t.rxf = true → ∃ b, i = .uRxbyte b) ∧
    (s.rxf = true → t.rxf = false → i = .coreInit ∨ (i = .dispatch ∧ s.txr = false)) ∧
    (t.txdata ≠ s.txdata → i = .dispatch ∨ i = .onTransmitReady) ∧
    (t.rxdata ≠ s.rxdata → ∃ b, i = .uRxbyte b ∧ t.rxdata = b)

/-- The slot counts are fixed when the hardware is built: no step changes one (R7, R11). -/
def Obligations.SlotCountsNeverChange : Prop :=
  ∀ s t : State, step s = .next t →
    t.tx.slots = s.tx.slots ∧ t.rx.slots = s.rx.slots ∧ t.rb.slots = s.rb.slots

/-- The operations of the stand-alone ring buffer leave CORE alone, and those of CORE leave the ring buffer alone; the
stores of CORE are separate too (R30, R71). -/
def Obligations.TheBlocksDoNotInterfere : Prop :=
  ∀ (i : Instr) (s t : State), exec i s = .next t →
    (i.format = .rb → SameCore s t ∧ t.out = s.out ∧ t.coreReset = s.coreReset) ∧
    (i.format ≠ .rb → t.rb = s.rb ∧ t.rbOut = s.rbOut ∧ t.rbReset = s.rbReset) ∧
    ((i = .dequeue ∨ i = .onByteReceived ∨ ∃ b, i = .uRxbyte b) →
      t.tx = s.tx ∧ t.active = s.active ∧ t.txr = s.txr ∧ t.txdata = s.txdata) ∧
    ((i = .onTransmitReady ∨ i = .uTxrdy ∨ ∃ b, i = .enqueue b) →
      t.rx = s.rx ∧ t.rxf = s.rxf ∧ t.rxdata = s.rxdata)

/-! ### Split operations -/

/-- ENQUEUE split into its six steps with nothing between them is ENQUEUE (R81, R40). -/
def Obligations.SplitEnqueueAloneIsEnqueue : Prop :=
  ∀ (s : State) (b : Byte),
    ∃ l : EnqueueLocals, splitEnqueue enqueueOrder (List.replicate 6 []) b s = .next ((enqueue s b).1, l) ∧
      (l.sawFull = true ↔ (enqueue s b).2 = .rejected)

/-- In the order of R81, whatever invocations and UART events fall between the steps, ENQUEUE ends in a good state: a
buffered byte never stands behind `active = 0` (R81, R145). -/
def Obligations.SplitEnqueueNeverStrandsAByte : Prop :=
  ∀ (s : State) (b : Byte) (gaps : List (List Instr)), s.Inv → s.coreReset = true → gaps.length = 6 →
    (∀ g ∈ gaps, ∀ i ∈ g, mayInterrupt i = true) →
    ∃ r : State × EnqueueLocals, splitEnqueue enqueueOrder gaps b s = .next r ∧ r.1.Inv ∧
      (r.1.tx.empty = false → r.1.active = true)

/-- With `active` read before the push, one invocation after that read strands the byte: it is buffered with `active = 0`
and `TXR = 0` (R145). -/
def Obligations.ReadingActiveFirstStrandsAByte : Prop :=
  ∀ (s : State) (b : Byte), s.Inv → s.coreReset = true → s.active = true → s.txr = true → s.tx.empty = true →
    ∃ r : State × EnqueueLocals,
      splitEnqueue activeFirstOrder [[.dispatch], [], [], [], [], []] b s = .next r ∧
      r.1.tx.contents = [b] ∧ r.1.active = false ∧ r.1.txr = false

/-- A transmit-ready event between the write and the clear is erased, and then nothing is sent in any run without another
U_TXRDY and without a reset (R146). -/
def Obligations.EventBetweenWriteAndClearIsLost : Prop :=
  ∀ s : State, s.Inv → s.coreReset = true → s.txr = true → 2 ≤ s.tx.count →
    ∃ t, splitTxBranch [.uTxrdy] s = .next t ∧ t.txr = false ∧ t.active = true ∧ t.tx.empty = false ∧
      ∀ ws : List CwWord, (∀ w ∈ ws, (cwFields w).rst = false ∧ (cwFields w).uTxrdy = false) →
        ∃ r : State × List CoreOut, runCw ws t = .next r ∧ txOut r.2 = [] ∧ r.1.txr = false

/-! ### Encoding -/

/-- The fields of R46 and R47 and their words determine each other: no bit of a word is dropped. -/
def Obligations.WordsAndFieldsRoundTrip : Prop :=
  (∀ w : CwWord, cwWordOf (cwFields w) = w) ∧ (∀ f : CwFields, cwFields (cwWordOf f) = f) ∧
  (∀ w : RbWord, rbWordOf (rbFields w) = w) ∧ (∀ f : RbFields, rbFields (rbWordOf f) = f)

/-- The decoder reads back every operation the encoder writes, with every operand; IS_EMPTY and IS_FULL, whose rows share
their mask and match, are among the operations of their word (R49, R58). -/
def Obligations.DecodeOfEncodeIsTheOperation : Prop :=
  ∀ i : Instr,
    (i.alwaysOn = false → decodeTableWord i.format.width (encodeBits i) = some i) ∧
    (∃ b, decode (encode i) = .ok b ∧ i ∈ b ∧ ∀ j ∈ b, j = i ∨ j.alwaysOn = true ∨ j = .rbNop)

/-- For every word, the rows of the opcode table select the operations whose request bits are set, in the order of the
cycle; with `rst` only the reset; with no request bit the idle row (R46, R47, R49, R58). -/
def Obligations.RowsSelectWhatTheFieldsRequest : Prop :=
  (∀ w : CwWord, decodeCw w =
    if (cwFields w).rst then [.coreInit]
    else if (cwFields w).deqReq || (cwFields w).ie || (cwFields w).enqReq || (cwFields w).uTxrdy || (cwFields w).uRxbyte then
      (if (cwFields w).deqReq then [.dequeue] else []) ++ (if (cwFields w).ie then [.dispatch] else []) ++
      (if (cwFields w).enqReq then [.enqueue (cwFields w).enqData] else []) ++
      (if (cwFields w).uTxrdy then [.uTxrdy] else []) ++
      (if (cwFields w).uRxbyte then [.uRxbyte (cwFields w).uRxdata] else [])
    else [.nop]) ∧
  (∀ w : RbWord, decodeRb w =
    if (rbFields w).rst then [.init]
    else [.isEmpty, .isFull] ++ (if (rbFields w).rdEn then [.tryPop] else []) ++
      (if (rbFields w).wrEn then [.tryPush (rbFields w).wrData] else []) ++
      (if (rbFields w).rdEn || (rbFields w).wrEn then [] else [.rbNop]))

/-- No word is illegal: each selects a well-formed bundle, the all-zero word the idle row, and a data field whose enable bit is 0 selects nothing by its
value (R51). -/
def Obligations.NoWordIsIllegal : Prop :=
  (∀ w : CwWord, Bundle.wf (decodeCw w) = true) ∧ (∀ w : RbWord, Bundle.wf (decodeRb w) = true) ∧
  (∀ w : StWord, Bundle.wf (decodeSt w) = true) ∧
  decodeCw 0 = [.nop] ∧ decodeRb 0 = [.isEmpty, .isFull, .rbNop] ∧
  (∀ (f : CwFields) (x y : Byte),
    (f.enqReq = false → decodeCw (cwWordOf { f with enqData := x }) = decodeCw (cwWordOf f)) ∧
    (f.uRxbyte = false → decodeCw (cwWordOf { f with uRxdata := y }) = decodeCw (cwWordOf f))) ∧
  (∀ (f : RbFields) (x : Byte),
    f.wrEn = false → decodeRb (rbWordOf { f with wrData := x }) = decodeRb (rbWordOf f))

/-- A step serves the request it samples: for a word, the operations the decoder reads from it, in order, after the status
outputs have been driven; for an invocation, the operation ST selects; and a word placed for the next step is the word that
step serves (an ST word as the value of `STATUS` at an invocation, log 15). -/
def Obligations.StepRunsTheDecodedOperations : Prop :=
  (∀ (s : State) (w : CwWord) (rest : List Request), s.requests = .cw w :: rest →
    step s = runBundle (decodeCw w) (beginCw (s.setRequests rest))) ∧
  (∀ (s : State) (w : RbWord) (rest : List Request), s.requests = .rb w :: rest →
    step s = runBundle (decodeRb w) (beginRb (s.setRequests rest))) ∧
  (∀ (s : State) (w : CwWord), step (s.withFetchWord 22 w.toNat) =
    runBundle (decodeCw w) (beginCw (s.setRequests (s.requests.drop 1)))) ∧
  (∀ (s : State) (w : RbWord), step (s.withFetchWord 11 w.toNat) =
    runBundle (decodeRb w) (beginRb (s.setRequests (s.requests.drop 1)))) ∧
  (∀ (s : State) (rest : List Request), s.requests = .invoke :: rest →
    step s = invokeBySt (beginCw (s.setRequests rest))) ∧
  (∀ (s : State) (w : StWord), (placeSt s w).st = w ∧ step (s.withFetchWord 2 w.toNat) =
    invokeBySt (beginCw ((placeSt s w).setRequests (s.requests.drop 1))))

/-- Words written out from the spec's encodings decode to what they stand for (R55, R58; 95_test_vectors.md). -/
def Obligations.SampleWordsDecode : Prop :=
  decodeRb 0x305 = [.isEmpty, .isFull, .tryPop, .tryPush 0x05] ∧ decodeRb 0x7FF = [.init] ∧
  decodeCw 0x184800 = [.dispatch, .enqueue 0x48] ∧ decodeCw 0x110011 = [.dispatch, .uRxbyte 0x11] ∧
  decodeCw 0x140000 = [.dequeue, .dispatch] ∧ decodeCw 0x3FFFFF = [.coreInit] ∧
  decodeSt 0b11 = [.onTransmitReady] ∧ decodeSt 0b01 = [.onByteReceived]

/-- The order of the mnemonics on a line has no meaning (R55). -/
def Obligations.MnemonicOrderHasNoMeaning : Prop :=
  (∀ l k : List CwMnemonic, l.Perm k → assembleCw l = assembleCw k) ∧
  (∀ l k : List RbMnemonic, l.Perm k → assembleRb l = assembleRb k)

/-- An operation is performed for the agent R131 lists for it and refused for every other; a call of DISPATCH is the
invocation (R99, D33). The form of a call is the model's (log 16). -/
def Obligations.AgentsPerformOnlyTheirOperations : Prop :=
  (∀ (s : State) (a : Agent) (i : Instr) (rest : List Request), s.requests = .call a i :: rest →
    (mayPerform a i = true → i ≠ .dispatch → step s = exec i (beginCw (s.setRequests rest))) ∧
    (mayPerform a i = true → i = .dispatch → step s = invokeBySt (beginCw (s.setRequests rest))) ∧
    (mayPerform a i = false → step s = .refused .wrongAgent)) ∧
  (∀ (a : Agent) (b : Byte),
    (mayPerform a (.enqueue b) = true ↔ a = .main) ∧ (mayPerform a .dequeue = true ↔ a = .main) ∧
    (mayPerform a .dispatch = true ↔ a = .int) ∧ (mayPerform a .onTransmitReady = true ↔ a = .int) ∧
    (mayPerform a .onByteReceived = true ↔ a = .int) ∧ (mayPerform a .uTxrdy = true ↔ a = .uart) ∧
    (mayPerform a (.uRxbyte b) = true ↔ a = .uart) ∧ (mayPerform a .coreInit = true ↔ a = .platform))
end

