-- ==== Sys2Proof/Laws/RingBuffer.lean ====
section
/-! SUPPORT. The laws of the ring buffer: the index advance, the live slots, and what a push and a pop do. -/

namespace Sys2Proof.Machine

/-! ### The index advance -/

theorem adv_lt {n i : Nat} (h : i < n) : adv n i < n := by unfold adv; split <;> omega

/-- The two forms of R60 agree in range. -/
theorem adv_eq_mod {n i : Nat} (h : i < n) : adv n i = (i + 1) % n := by
  unfold adv
  split
  · rw [show i + 1 = n by omega, Nat.mod_self]
  · rw [Nat.mod_eq_of_lt (by omega)]

theorem adv_ne {n i : Nat} (hn : 2 ≤ n) : adv n i ≠ i := by unfold adv; split <;> omega

theorem add_mod_adv {n i k : Nat} (h : i < n) : (adv n i + k) % n = (i + (k + 1)) % n := by
  rw [adv_eq_mod h, Nat.mod_add_mod, Nat.add_assoc, Nat.add_comm 1 k]

/-! ### Slots in ring order -/

theorem slotsFrom_eq_map {n i : Nat} (k : Nat) (h : i < n) :
    slotsFrom n k i = (List.range k).map fun d => (i + d) % n := by
  induction k generalizing i with
  | zero => rfl
  | succ k ih =>
    rw [slotsFrom, ih (adv_lt h), List.range_succ_eq_map, List.map_cons, List.map_map]
    simp [Nat.mod_eq_of_lt h, Function.comp_def, add_mod_adv h]

@[simp] theorem slotsFrom_length (n k i : Nat) : (slotsFrom n k i).length = k := by
  induction k generalizing i with
  | zero => rfl
  | succ k ih => simp [slotsFrom, ih]

theorem slotsFrom_succ_last {n i : Nat} (k : Nat) (h : i < n) :
    slotsFrom n (k + 1) i = slotsFrom n k i ++ [(i + k) % n] := by
  simp [slotsFrom_eq_map _ h, List.range_succ]

/-! ### Shape and count -/

theorem RingBuffer.shapeOk_iff {b : RingBuffer} :
    b.shapeOk = true ↔ 2 ≤ b.slots ∧ b.writeIndex < b.slots ∧ b.readIndex < b.slots := by
  simp [RingBuffer.shapeOk, slotCountOk, and_assoc]

/-- The count without `mod`. -/
theorem RingBuffer.count_eq {b : RingBuffer} (h : b.shapeOk = true) :
    b.count = if b.readIndex ≤ b.writeIndex then b.writeIndex - b.readIndex
      else b.writeIndex + b.slots - b.readIndex := by
  obtain ⟨_, hw, hr⟩ := RingBuffer.shapeOk_iff.1 h
  unfold RingBuffer.count
  split
  · rw [show b.writeIndex + b.slots - b.readIndex = b.writeIndex - b.readIndex + b.slots by omega,
      Nat.add_mod_right, Nat.mod_eq_of_lt (by omega)]
  · rw [Nat.mod_eq_of_lt (by omega)]

/-- The slot after the live slots is the one a push stores to. -/
theorem RingBuffer.add_count_mod {b : RingBuffer} (h : b.shapeOk = true) :
    (b.readIndex + b.count) % b.slots = b.writeIndex := by
  obtain ⟨_, hw, hr⟩ := RingBuffer.shapeOk_iff.1 h
  rw [RingBuffer.count_eq h]
  split
  · rw [show b.readIndex + (b.writeIndex - b.readIndex) = b.writeIndex by omega, Nat.mod_eq_of_lt hw]
  · rw [show b.readIndex + (b.writeIndex + b.slots - b.readIndex) = b.writeIndex + b.slots by omega,
      Nat.add_mod_right, Nat.mod_eq_of_lt hw]

theorem RingBuffer.store_shapeOk {b : RingBuffer} (v : Byte) (h : b.shapeOk = true) : (b.store v).shapeOk = true := by
  obtain ⟨hn, hw, hr⟩ := RingBuffer.shapeOk_iff.1 h
  exact RingBuffer.shapeOk_iff.2 ⟨hn, adv_lt hw, hr⟩

theorem RingBuffer.drop_shapeOk {b : RingBuffer} (h : b.shapeOk = true) : b.drop.shapeOk = true := by
  obtain ⟨hn, hw, hr⟩ := RingBuffer.shapeOk_iff.1 h
  exact RingBuffer.shapeOk_iff.2 ⟨hn, hw, adv_lt hr⟩

theorem RingBuffer.init_shapeOk {b : RingBuffer} (h : slotCountOk b.slots = true) : b.init.shapeOk = true := by
  have h2 : 2 ≤ b.slots := by simpa [slotCountOk] using h
  exact RingBuffer.shapeOk_iff.2 ⟨h2, by simp only [RingBuffer.init]; omega, by simp only [RingBuffer.init]; omega⟩

/-- A push on a buffer that is not full adds one element. -/
theorem RingBuffer.count_store {b : RingBuffer} (v : Byte) (h : b.shapeOk = true) (hf : b.full = false) :
    (b.store v).count = b.count + 1 := by
  obtain ⟨hn, hw, hr⟩ := RingBuffer.shapeOk_iff.1 h
  have hf' : adv b.slots b.writeIndex ≠ b.readIndex := by simpa [RingBuffer.full, RingBuffer.nextWrite] using hf
  have e : (b.store v).writeIndex = adv b.slots b.writeIndex := rfl
  rw [RingBuffer.count_eq h, RingBuffer.count_eq (RingBuffer.store_shapeOk v h), e,
    show (b.store v).slots = b.slots from rfl, show (b.store v).readIndex = b.readIndex from rfl]
  unfold adv at *
  split_ifs at * <;> omega

/-- A pop of a buffer that is not empty takes one element away. -/
theorem RingBuffer.count_drop {b : RingBuffer} (h : b.shapeOk = true) (he : b.empty = false) :
    b.count = b.drop.count + 1 := by
  obtain ⟨hn, hw, hr⟩ := RingBuffer.shapeOk_iff.1 h
  have he' : b.writeIndex ≠ b.readIndex := by simpa [RingBuffer.empty] using he
  have e : b.drop.readIndex = adv b.slots b.readIndex := rfl
  rw [RingBuffer.count_eq h, RingBuffer.count_eq (RingBuffer.drop_shapeOk h), e,
    show b.drop.slots = b.slots from rfl, show b.drop.writeIndex = b.writeIndex from rfl]
  unfold adv at *
  split_ifs at * <;> omega

/-! ### Live slots -/

theorem RingBuffer.liveSlots_store {b : RingBuffer} (v : Byte) (h : b.shapeOk = true) (hf : b.full = false) :
    (b.store v).liveSlots = b.liveSlots ++ [b.storeSlot] := by
  have hr := (RingBuffer.shapeOk_iff.1 h).2.2
  unfold RingBuffer.liveSlots
  rw [RingBuffer.count_store v h hf, show (b.store v).slots = b.slots from rfl,
    show (b.store v).readIndex = b.readIndex from rfl, slotsFrom_succ_last _ hr, RingBuffer.add_count_mod h]
  rfl

theorem RingBuffer.liveSlots_drop {b : RingBuffer} (h : b.shapeOk = true) (he : b.empty = false) :
    b.liveSlots = b.loadSlot :: b.drop.liveSlots := by
  unfold RingBuffer.liveSlots
  rw [RingBuffer.count_drop h he]
  rfl

/-- An empty buffer has no live slot. -/
theorem RingBuffer.liveSlots_empty {b : RingBuffer} (h : b.shapeOk = true) (he : b.empty = true) : b.liveSlots = [] := by
  have he' : b.writeIndex = b.readIndex := by simpa [RingBuffer.empty] using he
  unfold RingBuffer.liveSlots
  rw [RingBuffer.count_eq h, he']
  simp [slotsFrom]

/-- The slot a push stores to is not live: live slots are less than `N` steps from the read index, and it is the next. -/
theorem RingBuffer.not_live_of_shape {b : RingBuffer} (h : b.shapeOk = true) : b.storeSlot ∉ b.liveSlots := by
  obtain ⟨hn, hw, hr⟩ := RingBuffer.shapeOk_iff.1 h
  unfold RingBuffer.liveSlots RingBuffer.storeSlot
  rw [slotsFrom_eq_map _ hr, RingBuffer.count_eq h]
  intro hm
  obtain ⟨d, hd, he⟩ := List.mem_map.1 hm
  have hd' := List.mem_range.1 hd
  by_cases hlt : b.readIndex + d < b.slots
  · rw [Nat.mod_eq_of_lt hlt] at he
    split_ifs at hd' <;> omega
  · have hge : b.slots ≤ b.readIndex + d := by omega
    rw [Nat.mod_eq_sub_mod hge] at he
    split_ifs at hd'
    · omega
    · rw [Nat.mod_eq_of_lt (by omega)] at he
      omega

/-! ### A push and a pop keep a good buffer good -/

theorem RingBuffer.store_good {b : RingBuffer} (v : Byte) (h : b.Good) (hf : b.full = false) : (b.store v).Good where
  shape := RingBuffer.store_shapeOk v h.shape
  live := by
    intro i hi
    rw [RingBuffer.liveSlots_store v h.shape hf] at hi
    show ((b.mem.write b.storeSlot v).read i).isSome
    by_cases he : i = b.storeSlot
    · rw [he, Memory.read_write_same]; rfl
    · rw [Memory.read_write_other _ _ he]
      exact h.live i (by simpa [he] using hi)

theorem RingBuffer.drop_good {b : RingBuffer} (h : b.Good) (he : b.empty = false) : b.drop.Good where
  shape := RingBuffer.drop_shapeOk h.shape
  live := by
    intro i hi
    exact h.live i (by rw [RingBuffer.liveSlots_drop h.shape he]; exact List.mem_cons_of_mem _ hi)

theorem RingBuffer.init_good {b : RingBuffer} (h : slotCountOk b.slots = true) : b.init.Good where
  shape := RingBuffer.init_shapeOk h
  live := by
    intro i hi
    rw [RingBuffer.liveSlots_empty (RingBuffer.init_shapeOk h) (by simp [RingBuffer.empty, RingBuffer.init])] at hi
    exact absurd hi List.not_mem_nil

theorem RingBuffer.store_storeOk {b : RingBuffer} (v : Byte) (hw : b.writeIndex < b.slots) (h : b.StoreOk) :
    (b.store v).StoreOk where
  canonical := Memory.write_wf _ _ h.canonical
  inRange := by
    intro c hc
    show c.1 < b.slots
    rcases Memory.mem_write hc with e | hm
    · rw [e]; exact hw
    · exact h.inRange c hm

/-! ### Everything a push and a pop can do -/

/-- TRY_PUSH: rejected and unchanged, or stored. -/
theorem RingBuffer.tryPush_cases (b : RingBuffer) (v : Byte) :
    (b.full = true ∧ b.tryPush v = (b, false)) ∨ (b.full = false ∧ b.tryPush v = (b.store v, true)) := by
  unfold RingBuffer.tryPush
  cases h : b.full <;> simp

/-- TRY_POP that answers: nothing from an empty buffer, or the loaded element. -/
theorem RingBuffer.tryPop_cases {b : RingBuffer} {r : RingBuffer × Option Byte} (h : b.tryPop = .next r) :
    (b.empty = true ∧ r = (b, none)) ∨
    (b.empty = false ∧ ∃ v, b.mem.read b.loadSlot = some v ∧ r = (b.drop, some v)) := by
  unfold RingBuffer.tryPop at h
  cases he : b.empty with
  | true =>
    rw [he] at h
    exact .inl ⟨rfl, (Host.Outcome.next.inj h).symm⟩
  | false =>
    rw [he] at h
    cases hv : b.mem.read b.loadSlot with
    | none => rw [hv] at h; cases h
    | some v =>
      rw [hv] at h
      exact .inr ⟨rfl, v, rfl, (Host.Outcome.next.inj h).symm⟩

/-- A good buffer always answers a pop. -/
theorem RingBuffer.tryPop_of_good {b : RingBuffer} (h : b.Good) : Completes b.tryPop := by
  unfold RingBuffer.tryPop
  cases he : b.empty with
  | true => exact ⟨_, rfl⟩
  | false =>
    have hl := h.live b.loadSlot (by rw [RingBuffer.liveSlots_drop h.shape he]; simp)
    obtain ⟨v, hv⟩ := Option.isSome_iff_exists.1 hl
    exact ⟨(b.drop, some v), by simp [hv]⟩

theorem RingBuffer.tryPush_good {b : RingBuffer} (v : Byte) (h : b.Good) : (b.tryPush v).1.Good := by
  rcases b.tryPush_cases v with ⟨_, e⟩ | ⟨hf, e⟩ <;> rw [e]
  · exact h
  · exact RingBuffer.store_good v h hf

theorem RingBuffer.tryPush_storeOk {b : RingBuffer} (v : Byte) (hs : b.shapeOk = true) (h : b.StoreOk) :
    (b.tryPush v).1.StoreOk := by
  rcases b.tryPush_cases v with ⟨_, e⟩ | ⟨_, e⟩ <;> rw [e]
  · exact h
  · exact RingBuffer.store_storeOk v (RingBuffer.shapeOk_iff.1 hs).2.1 h

@[simp] theorem RingBuffer.tryPush_slots (b : RingBuffer) (v : Byte) : (b.tryPush v).1.slots = b.slots := by
  rcases b.tryPush_cases v with ⟨_, e⟩ | ⟨_, e⟩ <;> rw [e]
  rfl

@[simp] theorem RingBuffer.tryPush_readIndex (b : RingBuffer) (v : Byte) : (b.tryPush v).1.readIndex = b.readIndex := by
  rcases b.tryPush_cases v with ⟨_, e⟩ | ⟨_, e⟩ <;> rw [e]
  rfl

/-- What a pop that answers leaves of the buffer: the store, the slot count and the write index. -/
theorem RingBuffer.tryPop_frame {b : RingBuffer} {r : RingBuffer × Option Byte} (h : b.tryPop = .next r) :
    r.1.mem = b.mem ∧ r.1.slots = b.slots ∧ r.1.writeIndex = b.writeIndex := by
  rcases RingBuffer.tryPop_cases h with ⟨_, rfl⟩ | ⟨_, v, _, rfl⟩ <;> exact ⟨rfl, rfl, rfl⟩

theorem RingBuffer.tryPop_good {b : RingBuffer} {r : RingBuffer × Option Byte} (hb : b.Good) (h : b.tryPop = .next r) :
    r.1.Good := by
  rcases RingBuffer.tryPop_cases h with ⟨_, rfl⟩ | ⟨he, v, _, rfl⟩
  · exact hb
  · exact RingBuffer.drop_good hb he

theorem RingBuffer.tryPop_storeOk {b : RingBuffer} {r : RingBuffer × Option Byte} (hb : b.StoreOk)
    (h : b.tryPop = .next r) : r.1.StoreOk := by
  obtain ⟨hm, hs, _⟩ := RingBuffer.tryPop_frame h
  exact ⟨hm ▸ hb.canonical, by rw [hm, hs]; exact hb.inRange⟩

theorem RingBuffer.init_storeOk {b : RingBuffer} (h : b.StoreOk) : b.init.StoreOk := ⟨h.canonical, h.inRange⟩

end Sys2Proof.Machine
end

