-- ==== Sys2Proof/Laws/Contents.lean ====
section
/-! SUPPORT. The contents of a buffer: what a push and a pop do to them, and their length. -/

namespace Sys2Proof.Machine

/-- A push that stores appends at the tail. -/
theorem contents_store {b : RingBuffer} (v : Byte) (h : b.Good) (hf : b.full = false) :
    (b.store v).contents = b.contents ++ [v] := by
  have hn := RingBuffer.not_live_of_shape h.shape
  unfold RingBuffer.contents
  rw [RingBuffer.liveSlots_store v h.shape hf, List.filterMap_append]
  congr 1
  · apply List.filterMap_congr
    intro i hi
    exact Memory.read_write_other _ _ fun e => hn (by rw [← e]; exact hi)
  · simp [RingBuffer.store]

/-- A pop that loads takes the head. -/
theorem contents_drop {b : RingBuffer} {v : Byte} (h : b.Good) (he : b.empty = false)
    (hv : b.mem.read b.loadSlot = some v) : b.contents = v :: b.drop.contents := by
  unfold RingBuffer.contents
  rw [RingBuffer.liveSlots_drop h.shape he, List.filterMap_cons, hv]
  rfl

/-- An empty buffer has no contents. -/
theorem contents_empty {b : RingBuffer} (h : b.Good) (he : b.empty = true) : b.contents = [] := by
  unfold RingBuffer.contents
  rw [RingBuffer.liveSlots_empty h.shape he]
  rfl

/-- Reading a list of written slots gives as many elements. -/
theorem filterMap_read_length {m : Memory} {l : List Nat} (h : ∀ i ∈ l, (m.read i).isSome) :
    (l.filterMap fun i => m.read i).length = l.length := by
  induction l with
  | nil => rfl
  | cons a l ih =>
    obtain ⟨v, hv⟩ := Option.isSome_iff_exists.1 (h a (by simp))
    simp [hv, ih fun i hi => h i (by simp [hi])]

/-- A full buffer is not empty. -/
theorem empty_of_full {b : RingBuffer} (h : b.Good) (hf : b.full = true) : b.empty = false := by
  have hn := (RingBuffer.shapeOk_iff.1 h.shape).1
  simp only [RingBuffer.full, RingBuffer.nextWrite, beq_iff_eq] at hf
  simp only [RingBuffer.empty, beq_eq_false_iff_ne]
  intro e
  rw [← e] at hf
  exact adv_ne hn hf

/-- After a load there is room. -/
theorem drop_not_full {b : RingBuffer} (h : b.Good) (he : b.empty = false) : b.drop.full = false := by
  obtain ⟨hn, hw, hr⟩ := RingBuffer.shapeOk_iff.1 h.shape
  simp only [RingBuffer.empty, beq_eq_false_iff_ne] at he
  simp only [RingBuffer.full, RingBuffer.nextWrite, RingBuffer.drop, RingBuffer.nextRead, beq_eq_false_iff_ne]
  unfold adv
  split_ifs <;> omega

end Sys2Proof.Machine
end

