-- ==== Sys2Proof/Laws/State.lean ====
section
/-! SUPPORT. One lemma per field per update of State, so that no later proof unfolds a record update. -/

namespace Sys2Proof.Machine

variable (s : State)

@[simp] theorem State.setTx_tx (v : RingBuffer) : (s.setTx v).tx = v := rfl
@[simp] theorem State.setTx_rx (v : RingBuffer) : (s.setTx v).rx = s.rx := rfl
@[simp] theorem State.setTx_active (v : RingBuffer) : (s.setTx v).active = s.active := rfl
@[simp] theorem State.setTx_txr (v : RingBuffer) : (s.setTx v).txr = s.txr := rfl
@[simp] theorem State.setTx_rxf (v : RingBuffer) : (s.setTx v).rxf = s.rxf := rfl
@[simp] theorem State.setTx_txdata (v : RingBuffer) : (s.setTx v).txdata = s.txdata := rfl
@[simp] theorem State.setTx_rxdata (v : RingBuffer) : (s.setTx v).rxdata = s.rxdata := rfl
@[simp] theorem State.setTx_rb (v : RingBuffer) : (s.setTx v).rb = s.rb := rfl
@[simp] theorem State.setTx_out (v : RingBuffer) : (s.setTx v).out = s.out := rfl
@[simp] theorem State.setTx_rbOut (v : RingBuffer) : (s.setTx v).rbOut = s.rbOut := rfl
@[simp] theorem State.setTx_requests (v : RingBuffer) : (s.setTx v).requests = s.requests := rfl
@[simp] theorem State.setTx_coreReset (v : RingBuffer) : (s.setTx v).coreReset = s.coreReset := rfl
@[simp] theorem State.setTx_rbReset (v : RingBuffer) : (s.setTx v).rbReset = s.rbReset := rfl
@[simp] theorem State.setTx_rxdataWritten (v : RingBuffer) : (s.setTx v).rxdataWritten = s.rxdataWritten := rfl
@[simp] theorem State.setTx_freeCount (v : RingBuffer) : (s.setTx v).freeCount = s.freeCount := rfl

@[simp] theorem State.setRx_tx (v : RingBuffer) : (s.setRx v).tx = s.tx := rfl
@[simp] theorem State.setRx_rx (v : RingBuffer) : (s.setRx v).rx = v := rfl
@[simp] theorem State.setRx_active (v : RingBuffer) : (s.setRx v).active = s.active := rfl
@[simp] theorem State.setRx_txr (v : RingBuffer) : (s.setRx v).txr = s.txr := rfl
@[simp] theorem State.setRx_rxf (v : RingBuffer) : (s.setRx v).rxf = s.rxf := rfl
@[simp] theorem State.setRx_txdata (v : RingBuffer) : (s.setRx v).txdata = s.txdata := rfl
@[simp] theorem State.setRx_rxdata (v : RingBuffer) : (s.setRx v).rxdata = s.rxdata := rfl
@[simp] theorem State.setRx_rb (v : RingBuffer) : (s.setRx v).rb = s.rb := rfl
@[simp] theorem State.setRx_out (v : RingBuffer) : (s.setRx v).out = s.out := rfl
@[simp] theorem State.setRx_rbOut (v : RingBuffer) : (s.setRx v).rbOut = s.rbOut := rfl
@[simp] theorem State.setRx_requests (v : RingBuffer) : (s.setRx v).requests = s.requests := rfl
@[simp] theorem State.setRx_coreReset (v : RingBuffer) : (s.setRx v).coreReset = s.coreReset := rfl
@[simp] theorem State.setRx_rbReset (v : RingBuffer) : (s.setRx v).rbReset = s.rbReset := rfl
@[simp] theorem State.setRx_rxdataWritten (v : RingBuffer) : (s.setRx v).rxdataWritten = s.rxdataWritten := rfl
@[simp] theorem State.setRx_freeCount (v : RingBuffer) : (s.setRx v).freeCount = s.freeCount := rfl

@[simp] theorem State.setActive_tx (v : Bool) : (s.setActive v).tx = s.tx := rfl
@[simp] theorem State.setActive_rx (v : Bool) : (s.setActive v).rx = s.rx := rfl
@[simp] theorem State.setActive_active (v : Bool) : (s.setActive v).active = v := rfl
@[simp] theorem State.setActive_txr (v : Bool) : (s.setActive v).txr = s.txr := rfl
@[simp] theorem State.setActive_rxf (v : Bool) : (s.setActive v).rxf = s.rxf := rfl
@[simp] theorem State.setActive_txdata (v : Bool) : (s.setActive v).txdata = s.txdata := rfl
@[simp] theorem State.setActive_rxdata (v : Bool) : (s.setActive v).rxdata = s.rxdata := rfl
@[simp] theorem State.setActive_rb (v : Bool) : (s.setActive v).rb = s.rb := rfl
@[simp] theorem State.setActive_out (v : Bool) : (s.setActive v).out = s.out := rfl
@[simp] theorem State.setActive_rbOut (v : Bool) : (s.setActive v).rbOut = s.rbOut := rfl
@[simp] theorem State.setActive_requests (v : Bool) : (s.setActive v).requests = s.requests := rfl
@[simp] theorem State.setActive_coreReset (v : Bool) : (s.setActive v).coreReset = s.coreReset := rfl
@[simp] theorem State.setActive_rbReset (v : Bool) : (s.setActive v).rbReset = s.rbReset := rfl
@[simp] theorem State.setActive_rxdataWritten (v : Bool) : (s.setActive v).rxdataWritten = s.rxdataWritten := rfl
@[simp] theorem State.setActive_freeCount (v : Bool) : (s.setActive v).freeCount = s.freeCount := rfl

@[simp] theorem State.setTxr_tx (v : Bool) : (s.setTxr v).tx = s.tx := rfl
@[simp] theorem State.setTxr_rx (v : Bool) : (s.setTxr v).rx = s.rx := rfl
@[simp] theorem State.setTxr_active (v : Bool) : (s.setTxr v).active = s.active := rfl
@[simp] theorem State.setTxr_txr (v : Bool) : (s.setTxr v).txr = v := rfl
@[simp] theorem State.setTxr_rxf (v : Bool) : (s.setTxr v).rxf = s.rxf := rfl
@[simp] theorem State.setTxr_txdata (v : Bool) : (s.setTxr v).txdata = s.txdata := rfl
@[simp] theorem State.setTxr_rxdata (v : Bool) : (s.setTxr v).rxdata = s.rxdata := rfl
@[simp] theorem State.setTxr_rb (v : Bool) : (s.setTxr v).rb = s.rb := rfl
@[simp] theorem State.setTxr_out (v : Bool) : (s.setTxr v).out = s.out := rfl
@[simp] theorem State.setTxr_rbOut (v : Bool) : (s.setTxr v).rbOut = s.rbOut := rfl
@[simp] theorem State.setTxr_requests (v : Bool) : (s.setTxr v).requests = s.requests := rfl
@[simp] theorem State.setTxr_coreReset (v : Bool) : (s.setTxr v).coreReset = s.coreReset := rfl
@[simp] theorem State.setTxr_rbReset (v : Bool) : (s.setTxr v).rbReset = s.rbReset := rfl
@[simp] theorem State.setTxr_rxdataWritten (v : Bool) : (s.setTxr v).rxdataWritten = s.rxdataWritten := rfl
@[simp] theorem State.setTxr_freeCount (v : Bool) : (s.setTxr v).freeCount = s.freeCount := rfl

@[simp] theorem State.setRxf_tx (v : Bool) : (s.setRxf v).tx = s.tx := rfl
@[simp] theorem State.setRxf_rx (v : Bool) : (s.setRxf v).rx = s.rx := rfl
@[simp] theorem State.setRxf_active (v : Bool) : (s.setRxf v).active = s.active := rfl
@[simp] theorem State.setRxf_txr (v : Bool) : (s.setRxf v).txr = s.txr := rfl
@[simp] theorem State.setRxf_rxf (v : Bool) : (s.setRxf v).rxf = v := rfl
@[simp] theorem State.setRxf_txdata (v : Bool) : (s.setRxf v).txdata = s.txdata := rfl
@[simp] theorem State.setRxf_rxdata (v : Bool) : (s.setRxf v).rxdata = s.rxdata := rfl
@[simp] theorem State.setRxf_rb (v : Bool) : (s.setRxf v).rb = s.rb := rfl
@[simp] theorem State.setRxf_out (v : Bool) : (s.setRxf v).out = s.out := rfl
@[simp] theorem State.setRxf_rbOut (v : Bool) : (s.setRxf v).rbOut = s.rbOut := rfl
@[simp] theorem State.setRxf_requests (v : Bool) : (s.setRxf v).requests = s.requests := rfl
@[simp] theorem State.setRxf_coreReset (v : Bool) : (s.setRxf v).coreReset = s.coreReset := rfl
@[simp] theorem State.setRxf_rbReset (v : Bool) : (s.setRxf v).rbReset = s.rbReset := rfl
@[simp] theorem State.setRxf_rxdataWritten (v : Bool) : (s.setRxf v).rxdataWritten = s.rxdataWritten := rfl
@[simp] theorem State.setRxf_freeCount (v : Bool) : (s.setRxf v).freeCount = s.freeCount := rfl

@[simp] theorem State.setTxdata_tx (v : Byte) : (s.setTxdata v).tx = s.tx := rfl
@[simp] theorem State.setTxdata_rx (v : Byte) : (s.setTxdata v).rx = s.rx := rfl
@[simp] theorem State.setTxdata_active (v : Byte) : (s.setTxdata v).active = s.active := rfl
@[simp] theorem State.setTxdata_txr (v : Byte) : (s.setTxdata v).txr = s.txr := rfl
@[simp] theorem State.setTxdata_rxf (v : Byte) : (s.setTxdata v).rxf = s.rxf := rfl
@[simp] theorem State.setTxdata_txdata (v : Byte) : (s.setTxdata v).txdata = v := rfl
@[simp] theorem State.setTxdata_rxdata (v : Byte) : (s.setTxdata v).rxdata = s.rxdata := rfl
@[simp] theorem State.setTxdata_rb (v : Byte) : (s.setTxdata v).rb = s.rb := rfl
@[simp] theorem State.setTxdata_out (v : Byte) : (s.setTxdata v).out = s.out := rfl
@[simp] theorem State.setTxdata_rbOut (v : Byte) : (s.setTxdata v).rbOut = s.rbOut := rfl
@[simp] theorem State.setTxdata_requests (v : Byte) : (s.setTxdata v).requests = s.requests := rfl
@[simp] theorem State.setTxdata_coreReset (v : Byte) : (s.setTxdata v).coreReset = s.coreReset := rfl
@[simp] theorem State.setTxdata_rbReset (v : Byte) : (s.setTxdata v).rbReset = s.rbReset := rfl
@[simp] theorem State.setTxdata_rxdataWritten (v : Byte) : (s.setTxdata v).rxdataWritten = s.rxdataWritten := rfl
@[simp] theorem State.setTxdata_freeCount (v : Byte) : (s.setTxdata v).freeCount = s.freeCount := rfl

@[simp] theorem State.setRxdata_tx (v : Byte) : (s.setRxdata v).tx = s.tx := rfl
@[simp] theorem State.setRxdata_rx (v : Byte) : (s.setRxdata v).rx = s.rx := rfl
@[simp] theorem State.setRxdata_active (v : Byte) : (s.setRxdata v).active = s.active := rfl
@[simp] theorem State.setRxdata_txr (v : Byte) : (s.setRxdata v).txr = s.txr := rfl
@[simp] theorem State.setRxdata_rxf (v : Byte) : (s.setRxdata v).rxf = s.rxf := rfl
@[simp] theorem State.setRxdata_txdata (v : Byte) : (s.setRxdata v).txdata = s.txdata := rfl
@[simp] theorem State.setRxdata_rxdata (v : Byte) : (s.setRxdata v).rxdata = v := rfl
@[simp] theorem State.setRxdata_rb (v : Byte) : (s.setRxdata v).rb = s.rb := rfl
@[simp] theorem State.setRxdata_out (v : Byte) : (s.setRxdata v).out = s.out := rfl
@[simp] theorem State.setRxdata_rbOut (v : Byte) : (s.setRxdata v).rbOut = s.rbOut := rfl
@[simp] theorem State.setRxdata_requests (v : Byte) : (s.setRxdata v).requests = s.requests := rfl
@[simp] theorem State.setRxdata_coreReset (v : Byte) : (s.setRxdata v).coreReset = s.coreReset := rfl
@[simp] theorem State.setRxdata_rbReset (v : Byte) : (s.setRxdata v).rbReset = s.rbReset := rfl
@[simp] theorem State.setRxdata_rxdataWritten (v : Byte) : (s.setRxdata v).rxdataWritten = s.rxdataWritten := rfl
@[simp] theorem State.setRxdata_freeCount (v : Byte) : (s.setRxdata v).freeCount = s.freeCount := rfl

@[simp] theorem State.setRb_tx (v : RingBuffer) : (s.setRb v).tx = s.tx := rfl
@[simp] theorem State.setRb_rx (v : RingBuffer) : (s.setRb v).rx = s.rx := rfl
@[simp] theorem State.setRb_active (v : RingBuffer) : (s.setRb v).active = s.active := rfl
@[simp] theorem State.setRb_txr (v : RingBuffer) : (s.setRb v).txr = s.txr := rfl
@[simp] theorem State.setRb_rxf (v : RingBuffer) : (s.setRb v).rxf = s.rxf := rfl
@[simp] theorem State.setRb_txdata (v : RingBuffer) : (s.setRb v).txdata = s.txdata := rfl
@[simp] theorem State.setRb_rxdata (v : RingBuffer) : (s.setRb v).rxdata = s.rxdata := rfl
@[simp] theorem State.setRb_rb (v : RingBuffer) : (s.setRb v).rb = v := rfl
@[simp] theorem State.setRb_out (v : RingBuffer) : (s.setRb v).out = s.out := rfl
@[simp] theorem State.setRb_rbOut (v : RingBuffer) : (s.setRb v).rbOut = s.rbOut := rfl
@[simp] theorem State.setRb_requests (v : RingBuffer) : (s.setRb v).requests = s.requests := rfl
@[simp] theorem State.setRb_coreReset (v : RingBuffer) : (s.setRb v).coreReset = s.coreReset := rfl
@[simp] theorem State.setRb_rbReset (v : RingBuffer) : (s.setRb v).rbReset = s.rbReset := rfl
@[simp] theorem State.setRb_rxdataWritten (v : RingBuffer) : (s.setRb v).rxdataWritten = s.rxdataWritten := rfl
@[simp] theorem State.setRb_freeCount (v : RingBuffer) : (s.setRb v).freeCount = s.freeCount := rfl

@[simp] theorem State.setOut_tx (v : CoreOut) : (s.setOut v).tx = s.tx := rfl
@[simp] theorem State.setOut_rx (v : CoreOut) : (s.setOut v).rx = s.rx := rfl
@[simp] theorem State.setOut_active (v : CoreOut) : (s.setOut v).active = s.active := rfl
@[simp] theorem State.setOut_txr (v : CoreOut) : (s.setOut v).txr = s.txr := rfl
@[simp] theorem State.setOut_rxf (v : CoreOut) : (s.setOut v).rxf = s.rxf := rfl
@[simp] theorem State.setOut_txdata (v : CoreOut) : (s.setOut v).txdata = s.txdata := rfl
@[simp] theorem State.setOut_rxdata (v : CoreOut) : (s.setOut v).rxdata = s.rxdata := rfl
@[simp] theorem State.setOut_rb (v : CoreOut) : (s.setOut v).rb = s.rb := rfl
@[simp] theorem State.setOut_out (v : CoreOut) : (s.setOut v).out = v := rfl
@[simp] theorem State.setOut_rbOut (v : CoreOut) : (s.setOut v).rbOut = s.rbOut := rfl
@[simp] theorem State.setOut_requests (v : CoreOut) : (s.setOut v).requests = s.requests := rfl
@[simp] theorem State.setOut_coreReset (v : CoreOut) : (s.setOut v).coreReset = s.coreReset := rfl
@[simp] theorem State.setOut_rbReset (v : CoreOut) : (s.setOut v).rbReset = s.rbReset := rfl
@[simp] theorem State.setOut_rxdataWritten (v : CoreOut) : (s.setOut v).rxdataWritten = s.rxdataWritten := rfl
@[simp] theorem State.setOut_freeCount (v : CoreOut) : (s.setOut v).freeCount = s.freeCount := rfl

@[simp] theorem State.setRbOut_tx (v : RbOut) : (s.setRbOut v).tx = s.tx := rfl
@[simp] theorem State.setRbOut_rx (v : RbOut) : (s.setRbOut v).rx = s.rx := rfl
@[simp] theorem State.setRbOut_active (v : RbOut) : (s.setRbOut v).active = s.active := rfl
@[simp] theorem State.setRbOut_txr (v : RbOut) : (s.setRbOut v).txr = s.txr := rfl
@[simp] theorem State.setRbOut_rxf (v : RbOut) : (s.setRbOut v).rxf = s.rxf := rfl
@[simp] theorem State.setRbOut_txdata (v : RbOut) : (s.setRbOut v).txdata = s.txdata := rfl
@[simp] theorem State.setRbOut_rxdata (v : RbOut) : (s.setRbOut v).rxdata = s.rxdata := rfl
@[simp] theorem State.setRbOut_rb (v : RbOut) : (s.setRbOut v).rb = s.rb := rfl
@[simp] theorem State.setRbOut_out (v : RbOut) : (s.setRbOut v).out = s.out := rfl
@[simp] theorem State.setRbOut_rbOut (v : RbOut) : (s.setRbOut v).rbOut = v := rfl
@[simp] theorem State.setRbOut_requests (v : RbOut) : (s.setRbOut v).requests = s.requests := rfl
@[simp] theorem State.setRbOut_coreReset (v : RbOut) : (s.setRbOut v).coreReset = s.coreReset := rfl
@[simp] theorem State.setRbOut_rbReset (v : RbOut) : (s.setRbOut v).rbReset = s.rbReset := rfl
@[simp] theorem State.setRbOut_rxdataWritten (v : RbOut) : (s.setRbOut v).rxdataWritten = s.rxdataWritten := rfl
@[simp] theorem State.setRbOut_freeCount (v : RbOut) : (s.setRbOut v).freeCount = s.freeCount := rfl

@[simp] theorem State.setRequests_tx (v : List Request) : (s.setRequests v).tx = s.tx := rfl
@[simp] theorem State.setRequests_rx (v : List Request) : (s.setRequests v).rx = s.rx := rfl
@[simp] theorem State.setRequests_active (v : List Request) : (s.setRequests v).active = s.active := rfl
@[simp] theorem State.setRequests_txr (v : List Request) : (s.setRequests v).txr = s.txr := rfl
@[simp] theorem State.setRequests_rxf (v : List Request) : (s.setRequests v).rxf = s.rxf := rfl
@[simp] theorem State.setRequests_txdata (v : List Request) : (s.setRequests v).txdata = s.txdata := rfl
@[simp] theorem State.setRequests_rxdata (v : List Request) : (s.setRequests v).rxdata = s.rxdata := rfl
@[simp] theorem State.setRequests_rb (v : List Request) : (s.setRequests v).rb = s.rb := rfl
@[simp] theorem State.setRequests_out (v : List Request) : (s.setRequests v).out = s.out := rfl
@[simp] theorem State.setRequests_rbOut (v : List Request) : (s.setRequests v).rbOut = s.rbOut := rfl
@[simp] theorem State.setRequests_requests (v : List Request) : (s.setRequests v).requests = v := rfl
@[simp] theorem State.setRequests_coreReset (v : List Request) : (s.setRequests v).coreReset = s.coreReset := rfl
@[simp] theorem State.setRequests_rbReset (v : List Request) : (s.setRequests v).rbReset = s.rbReset := rfl
@[simp] theorem State.setRequests_rxdataWritten (v : List Request) : (s.setRequests v).rxdataWritten = s.rxdataWritten := rfl
@[simp] theorem State.setRequests_freeCount (v : List Request) : (s.setRequests v).freeCount = s.freeCount := rfl

@[simp] theorem State.setCoreReset_tx (v : Bool) : (s.setCoreReset v).tx = s.tx := rfl
@[simp] theorem State.setCoreReset_rx (v : Bool) : (s.setCoreReset v).rx = s.rx := rfl
@[simp] theorem State.setCoreReset_active (v : Bool) : (s.setCoreReset v).active = s.active := rfl
@[simp] theorem State.setCoreReset_txr (v : Bool) : (s.setCoreReset v).txr = s.txr := rfl
@[simp] theorem State.setCoreReset_rxf (v : Bool) : (s.setCoreReset v).rxf = s.rxf := rfl
@[simp] theorem State.setCoreReset_txdata (v : Bool) : (s.setCoreReset v).txdata = s.txdata := rfl
@[simp] theorem State.setCoreReset_rxdata (v : Bool) : (s.setCoreReset v).rxdata = s.rxdata := rfl
@[simp] theorem State.setCoreReset_rb (v : Bool) : (s.setCoreReset v).rb = s.rb := rfl
@[simp] theorem State.setCoreReset_out (v : Bool) : (s.setCoreReset v).out = s.out := rfl
@[simp] theorem State.setCoreReset_rbOut (v : Bool) : (s.setCoreReset v).rbOut = s.rbOut := rfl
@[simp] theorem State.setCoreReset_requests (v : Bool) : (s.setCoreReset v).requests = s.requests := rfl
@[simp] theorem State.setCoreReset_coreReset (v : Bool) : (s.setCoreReset v).coreReset = v := rfl
@[simp] theorem State.setCoreReset_rbReset (v : Bool) : (s.setCoreReset v).rbReset = s.rbReset := rfl
@[simp] theorem State.setCoreReset_rxdataWritten (v : Bool) : (s.setCoreReset v).rxdataWritten = s.rxdataWritten := rfl
@[simp] theorem State.setCoreReset_freeCount (v : Bool) : (s.setCoreReset v).freeCount = s.freeCount := rfl

@[simp] theorem State.setRbReset_tx (v : Bool) : (s.setRbReset v).tx = s.tx := rfl
@[simp] theorem State.setRbReset_rx (v : Bool) : (s.setRbReset v).rx = s.rx := rfl
@[simp] theorem State.setRbReset_active (v : Bool) : (s.setRbReset v).active = s.active := rfl
@[simp] theorem State.setRbReset_txr (v : Bool) : (s.setRbReset v).txr = s.txr := rfl
@[simp] theorem State.setRbReset_rxf (v : Bool) : (s.setRbReset v).rxf = s.rxf := rfl
@[simp] theorem State.setRbReset_txdata (v : Bool) : (s.setRbReset v).txdata = s.txdata := rfl
@[simp] theorem State.setRbReset_rxdata (v : Bool) : (s.setRbReset v).rxdata = s.rxdata := rfl
@[simp] theorem State.setRbReset_rb (v : Bool) : (s.setRbReset v).rb = s.rb := rfl
@[simp] theorem State.setRbReset_out (v : Bool) : (s.setRbReset v).out = s.out := rfl
@[simp] theorem State.setRbReset_rbOut (v : Bool) : (s.setRbReset v).rbOut = s.rbOut := rfl
@[simp] theorem State.setRbReset_requests (v : Bool) : (s.setRbReset v).requests = s.requests := rfl
@[simp] theorem State.setRbReset_coreReset (v : Bool) : (s.setRbReset v).coreReset = s.coreReset := rfl
@[simp] theorem State.setRbReset_rbReset (v : Bool) : (s.setRbReset v).rbReset = v := rfl
@[simp] theorem State.setRbReset_rxdataWritten (v : Bool) : (s.setRbReset v).rxdataWritten = s.rxdataWritten := rfl
@[simp] theorem State.setRbReset_freeCount (v : Bool) : (s.setRbReset v).freeCount = s.freeCount := rfl

@[simp] theorem State.setRxdataWritten_tx (v : Bool) : (s.setRxdataWritten v).tx = s.tx := rfl
@[simp] theorem State.setRxdataWritten_rx (v : Bool) : (s.setRxdataWritten v).rx = s.rx := rfl
@[simp] theorem State.setRxdataWritten_active (v : Bool) : (s.setRxdataWritten v).active = s.active := rfl
@[simp] theorem State.setRxdataWritten_txr (v : Bool) : (s.setRxdataWritten v).txr = s.txr := rfl
@[simp] theorem State.setRxdataWritten_rxf (v : Bool) : (s.setRxdataWritten v).rxf = s.rxf := rfl
@[simp] theorem State.setRxdataWritten_txdata (v : Bool) : (s.setRxdataWritten v).txdata = s.txdata := rfl
@[simp] theorem State.setRxdataWritten_rxdata (v : Bool) : (s.setRxdataWritten v).rxdata = s.rxdata := rfl
@[simp] theorem State.setRxdataWritten_rb (v : Bool) : (s.setRxdataWritten v).rb = s.rb := rfl
@[simp] theorem State.setRxdataWritten_out (v : Bool) : (s.setRxdataWritten v).out = s.out := rfl
@[simp] theorem State.setRxdataWritten_rbOut (v : Bool) : (s.setRxdataWritten v).rbOut = s.rbOut := rfl
@[simp] theorem State.setRxdataWritten_requests (v : Bool) : (s.setRxdataWritten v).requests = s.requests := rfl
@[simp] theorem State.setRxdataWritten_coreReset (v : Bool) : (s.setRxdataWritten v).coreReset = s.coreReset := rfl
@[simp] theorem State.setRxdataWritten_rbReset (v : Bool) : (s.setRxdataWritten v).rbReset = s.rbReset := rfl
@[simp] theorem State.setRxdataWritten_rxdataWritten (v : Bool) : (s.setRxdataWritten v).rxdataWritten = v := rfl
@[simp] theorem State.setRxdataWritten_freeCount (v : Bool) : (s.setRxdataWritten v).freeCount = s.freeCount := rfl

@[simp] theorem State.setFreeCount_tx (v : Nat) : (s.setFreeCount v).tx = s.tx := rfl
@[simp] theorem State.setFreeCount_rx (v : Nat) : (s.setFreeCount v).rx = s.rx := rfl
@[simp] theorem State.setFreeCount_active (v : Nat) : (s.setFreeCount v).active = s.active := rfl
@[simp] theorem State.setFreeCount_txr (v : Nat) : (s.setFreeCount v).txr = s.txr := rfl
@[simp] theorem State.setFreeCount_rxf (v : Nat) : (s.setFreeCount v).rxf = s.rxf := rfl
@[simp] theorem State.setFreeCount_txdata (v : Nat) : (s.setFreeCount v).txdata = s.txdata := rfl
@[simp] theorem State.setFreeCount_rxdata (v : Nat) : (s.setFreeCount v).rxdata = s.rxdata := rfl
@[simp] theorem State.setFreeCount_rb (v : Nat) : (s.setFreeCount v).rb = s.rb := rfl
@[simp] theorem State.setFreeCount_out (v : Nat) : (s.setFreeCount v).out = s.out := rfl
@[simp] theorem State.setFreeCount_rbOut (v : Nat) : (s.setFreeCount v).rbOut = s.rbOut := rfl
@[simp] theorem State.setFreeCount_requests (v : Nat) : (s.setFreeCount v).requests = s.requests := rfl
@[simp] theorem State.setFreeCount_coreReset (v : Nat) : (s.setFreeCount v).coreReset = s.coreReset := rfl
@[simp] theorem State.setFreeCount_rbReset (v : Nat) : (s.setFreeCount v).rbReset = s.rbReset := rfl
@[simp] theorem State.setFreeCount_rxdataWritten (v : Nat) : (s.setFreeCount v).rxdataWritten = s.rxdataWritten := rfl
@[simp] theorem State.setFreeCount_freeCount (v : Nat) : (s.setFreeCount v).freeCount = v := rfl

end Sys2Proof.Machine
end

