-- ==== Sys2Proof/Laws/Ops.lean ====
section
/-! SUPPORT. The laws of the shared operations: what each can do when it answers, when it answers, and that each keeps the
invariant. -/

namespace Sys2Proof.Machine

/-! ### Sequencing and guards -/

@[simp] theorem andThen_next {α β : Type} (a : α) (f : α → Res β) : andThen (.next a) f = f a := rfl
@[simp] theorem andThen_fault {α β : Type} (r : Fault) (f : α → Res β) : andThen (.fault r) f = .fault r := rfl
@[simp] theorem andThen_refused {α β : Type} (r : Refusal) (f : α → Res β) : andThen (.refused r) f = .refused r := rfl

/-- A sequence answers exactly when both parts do. -/
theorem andThen_eq_next {α β : Type} {o : Res α} {f : α → Res β} {t : β} :
    andThen o f = .next t ↔ ∃ a, o = .next a ∧ f a = .next t := by
  cases o <;> simp

theorem andThen_assoc {α β γ : Type} (o : Res α) (f : α → Res β) (g : β → Res γ) :
    andThen (andThen o f) g = andThen o fun a => andThen (f a) g := by
  cases o <;> rfl

theorem coreChecked_of_ready {α : Type} {s : State} (h : s.CoreReady) (o : Res α) : coreChecked s o = o := by
  simp [coreChecked, h.reset, h.tx, h.rx]

theorem rbChecked_of_ready {α : Type} {s : State} (h : s.RbReady) (o : Res α) : rbChecked s o = o := by
  simp [rbChecked, h.reset, h.rb]

/-- A checked operation answers exactly when the state is ready and the operation answers. -/
theorem coreChecked_eq_next {α : Type} {s : State} {o : Res α} {t : α} :
    coreChecked s o = .next t ↔ s.CoreReady ∧ o = .next t := by
  constructor
  · intro h
    unfold coreChecked at h
    split_ifs at h with h1 h2
    simp only [Bool.and_eq_true] at h2
    exact ⟨⟨h1, h2.1, h2.2⟩, h⟩
  · rintro ⟨h, rfl⟩
    exact coreChecked_of_ready h _

theorem rbChecked_eq_next {α : Type} {s : State} {o : Res α} {t : α} :
    rbChecked s o = .next t ↔ s.RbReady ∧ o = .next t := by
  constructor
  · intro h
    unfold rbChecked at h
    split_ifs at h with h1 h2
    exact ⟨⟨h1, h2⟩, h⟩
  · rintro ⟨h, rfl⟩
    exact rbChecked_of_ready h _

theorem coreChecked_before_reset {α : Type} {s : State} (h : s.coreReset = false) (o : Res α) :
    coreChecked s o = .refused .beforeReset := by simp [coreChecked, h]

theorem rbChecked_before_reset {α : Type} {s : State} (h : s.rbReset = false) (o : Res α) :
    rbChecked s o = .refused .beforeReset := by simp [rbChecked, h]

theorem State.Inv.coreReady {s : State} (h : s.Inv) (hr : s.coreReset = true) : s.CoreReady :=
  ⟨hr, (h.core hr).tx.shape, (h.core hr).rx.shape⟩

theorem State.Inv.rbReady {s : State} (h : s.Inv) (hr : s.rbReset = true) : s.RbReady := ⟨hr, (h.rb hr).shape⟩

/-! ### What each operation of the paths can do -/

/-- ON_TRANSMIT_READY that answers: the path goes idle, or one byte goes to `TXDATA`. -/
theorem onTransmitReady_cases {s t : State} (h : onTransmitReady s = .next t) :
    (s.tx.empty = true ∧ t = s.setActive false) ∨
    (s.tx.empty = false ∧ ∃ b, s.tx.mem.read s.tx.loadSlot = some b ∧
      t = emitTxWrite ((s.setTx s.tx.drop).setTxdata b) b) := by
  obtain ⟨r, hr, ht⟩ := andThen_eq_next.1 h
  rcases RingBuffer.tryPop_cases hr with ⟨he, rfl⟩ | ⟨he, v, hv, rfl⟩
  · exact .inl ⟨he, (Host.Outcome.next.inj ht).symm⟩
  · exact .inr ⟨he, v, hv, (Host.Outcome.next.inj ht).symm⟩

/-- ON_BYTE_RECEIVED: the byte is dropped, or pushed. -/
theorem onByteReceived_cases (s : State) (b : Byte) :
    (s.rx.full = true ∧ onByteReceived s b = emitRxDrop s) ∨
    (s.rx.full = false ∧ onByteReceived s b = s.setRx (s.rx.store b)) := by
  unfold onByteReceived
  rcases s.rx.tryPush_cases b with ⟨hf, e⟩ | ⟨hf, e⟩ <;> simp [hf, e]

/-- ENQUEUE: rejected and unchanged, or pushed and started. -/
theorem enqueue_cases (s : State) (b : Byte) :
    (s.tx.full = true ∧ enqueue s b = (s, .rejected)) ∨
    (s.tx.full = false ∧ enqueue s b = (startIfIdle (s.setTx (s.tx.store b)), .ok)) := by
  unfold enqueue
  rcases s.tx.tryPush_cases b with ⟨hf, e⟩ | ⟨hf, e⟩ <;> simp [hf, e]

/-- After ENQUEUE starts the path it is active; nothing but `active` and `TXR` has changed. -/
theorem startIfIdle_cases (s : State) :
    (s.active = true ∧ startIfIdle s = s) ∨
    (s.active = false ∧ startIfIdle s = (s.setActive true).setTxr true) := by
  unfold startIfIdle arm
  cases h : s.active <;> simp

@[simp] theorem startIfIdle_active (s : State) : (startIfIdle s).active = true := by
  rcases startIfIdle_cases s with ⟨h, e⟩ | ⟨_, e⟩ <;> simp [*]

@[simp] theorem startIfIdle_tx (s : State) : (startIfIdle s).tx = s.tx := by
  rcases startIfIdle_cases s with ⟨_, e⟩ | ⟨_, e⟩ <;> simp [e]

@[simp] theorem startIfIdle_out (s : State) : (startIfIdle s).out = s.out := by
  rcases startIfIdle_cases s with ⟨_, e⟩ | ⟨_, e⟩ <;> simp [e]

/-- DEQUEUE that answers: nothing from an empty buffer, or the oldest byte. -/
theorem dequeue_cases {s : State} {r : State × Option Byte} (h : dequeue s = .next r) :
    (s.rx.empty = true ∧ r = (s, none)) ∨
    (s.rx.empty = false ∧ ∃ b, s.rx.mem.read s.rx.loadSlot = some b ∧ r = (s.setRx s.rx.drop, some b)) := by
  obtain ⟨p, hp, hr⟩ := andThen_eq_next.1 h
  rcases RingBuffer.tryPop_cases hp with ⟨he, rfl⟩ | ⟨he, v, hv, rfl⟩
  · exact .inl ⟨he, (Host.Outcome.next.inj hr).symm⟩
  · exact .inr ⟨he, v, hv, (Host.Outcome.next.inj hr).symm⟩

/-- An invocation that answers: one branch, and the clear of its flag as the last thing (R94, R97). -/
theorem invoke_cases {s t : State} (h : invoke s = .next t) :
    (s.txr = true ∧ ∃ u, onTransmitReady s = .next u ∧ t = u.setTxr false) ∨
    (s.txr = false ∧ s.rxdataWritten = true ∧ t = (onByteReceived s s.rxdata).setRxf false) := by
  unfold invoke at h
  cases hx : s.txr with
  | true =>
    rw [hx] at h
    obtain ⟨u, hu, ht⟩ := andThen_eq_next.1 h
    exact .inl ⟨rfl, u, hu, (Host.Outcome.next.inj ht).symm⟩
  | false =>
    rw [hx] at h
    obtain ⟨b, hb, ht⟩ := andThen_eq_next.1 h
    unfold readRxdata at hb
    split_ifs at hb with hw
    cases hb
    exact .inr ⟨rfl, hw, (Host.Outcome.next.inj ht).symm⟩

/-! ### When the operations answer -/

theorem onTransmitReady_completes {s : State} (h : s.tx.Good) : Completes (onTransmitReady s) := by
  obtain ⟨r, hr⟩ := RingBuffer.tryPop_of_good h
  unfold onTransmitReady
  rw [hr, andThen_next]
  cases r.2 <;> exact ⟨_, rfl⟩

theorem dequeue_completes {s : State} (h : s.rx.Good) : Completes (dequeue s) := by
  obtain ⟨r, hr⟩ := RingBuffer.tryPop_of_good h
  exact ⟨_, by unfold dequeue; rw [hr, andThen_next]⟩

theorem invoke_completes {s : State} (h : s.tx.Good) (hw : s.txr = false → s.rxdataWritten = true) :
    Completes (invoke s) := by
  unfold invoke
  cases hx : s.txr with
  | true =>
    obtain ⟨u, hu⟩ := onTransmitReady_completes h
    exact ⟨u.setTxr false, by simp [txBranch, hu]⟩
  | false => exact ⟨(onByteReceived s s.rxdata).setRxf false, by simp [rxBranch, readRxdata, hw hx]⟩

/-! ### The invariant, operation by operation -/

/-- The fields the first part of the invariant reads. -/
theorem State.StoresGood.congr {s t : State} (h : s.StoresGood) (htx : t.tx = s.tx) (hrx : t.rx = s.rx)
    (hrb : t.rb = s.rb) : t.StoresGood := by
  obtain ⟨a, b, c, d, e, f⟩ := h
  exact ⟨htx ▸ a, hrx ▸ b, hrb ▸ c, htx ▸ d, hrx ▸ e, hrb ▸ f⟩

/-- The fields the second part of the invariant reads. -/
theorem State.CoreGood.congr {s t : State} (h : s.CoreGood) (htx : t.tx = s.tx) (hrx : t.rx = s.rx)
    (ha : t.active = s.active) (hf : t.rxf = s.rxf) (hw : t.rxdataWritten = s.rxdataWritten) : t.CoreGood := by
  obtain ⟨a, b, c, d⟩ := h
  exact ⟨htx ▸ a, hrx ▸ b, by rw [ha, htx]; exact c, by rw [hf, hw]; exact d⟩

/-- The fields the invariant reads. -/
theorem State.Inv.congr {s t : State} (h : s.Inv) (htx : t.tx = s.tx) (hrx : t.rx = s.rx) (hrb : t.rb = s.rb)
    (ha : t.active = s.active) (hf : t.rxf = s.rxf) (hw : t.rxdataWritten = s.rxdataWritten)
    (hc : t.coreReset = s.coreReset) (hr : t.rbReset = s.rbReset) : t.Inv where
  stores := h.stores.congr htx hrx hrb
  core := fun hc' => (h.core (hc ▸ hc')).congr htx hrx ha hf hw
  rb := by intro hr'; rw [hrb]; exact h.rb (hr ▸ hr')

theorem onTransmitReady_inv {s t : State} (hi : s.Inv) (hc : s.coreReset = true) (h : onTransmitReady s = .next t) :
    t.Inv := by
  have g := hi.core hc
  rcases onTransmitReady_cases h with ⟨he, rfl⟩ | ⟨he, b, _, rfl⟩
  · exact ⟨hi.stores.congr rfl rfl rfl, fun _ => ⟨g.tx, g.rx, fun _ => he, g.received⟩, hi.rb⟩
  · refine ⟨⟨RingBuffer.tryPop_storeOk (r := (s.tx.drop, some b)) hi.stores.tx ?_, hi.stores.rx, hi.stores.rb, hi.stores.txSlots, hi.stores.rxSlots,
      hi.stores.rbSlots⟩, fun _ => ⟨RingBuffer.drop_good g.tx he, g.rx, fun ha => ?_, g.received⟩, hi.rb⟩
    · simp [RingBuffer.tryPop, *]
    · exact absurd (g.idle ha) (by simp [he])

theorem onByteReceived_inv {s : State} (b : Byte) (hi : s.Inv) (hc : s.coreReset = true) : (onByteReceived s b).Inv := by
  have g := hi.core hc
  rcases onByteReceived_cases s b with ⟨_, e⟩ | ⟨hf, e⟩ <;> rw [e]
  · exact hi.congr rfl rfl rfl rfl rfl rfl rfl rfl
  · exact ⟨⟨hi.stores.tx, RingBuffer.store_storeOk b (RingBuffer.shapeOk_iff.1 g.rx.shape).2.1 hi.stores.rx,
      hi.stores.rb, hi.stores.txSlots, hi.stores.rxSlots, hi.stores.rbSlots⟩,
      fun _ => ⟨g.tx, RingBuffer.store_good b g.rx hf, g.idle, g.received⟩, hi.rb⟩

theorem enqueue_inv {s : State} (b : Byte) (hi : s.Inv) (hc : s.coreReset = true) : (enqueue s b).1.Inv := by
  have g := hi.core hc
  rcases enqueue_cases s b with ⟨_, e⟩ | ⟨hf, e⟩ <;> rw [e]
  · exact hi
  · have hs : (s.tx.store b).StoreOk :=
      RingBuffer.store_storeOk b (RingBuffer.shapeOk_iff.1 g.tx.shape).2.1 hi.stores.tx
    have hg := RingBuffer.store_good b g.tx hf
    rcases startIfIdle_cases (s.setTx (s.tx.store b)) with ⟨ha, e'⟩ | ⟨_, e'⟩ <;> rw [e']
    · exact ⟨⟨hs, hi.stores.rx, hi.stores.rb, hi.stores.txSlots, hi.stores.rxSlots, hi.stores.rbSlots⟩,
        fun _ => ⟨hg, g.rx, fun h => absurd ha (by simp_all), g.received⟩, hi.rb⟩
    · exact ⟨⟨hs, hi.stores.rx, hi.stores.rb, hi.stores.txSlots, hi.stores.rxSlots, hi.stores.rbSlots⟩,
        fun _ => ⟨hg, g.rx, fun h => absurd h (by simp), g.received⟩, hi.rb⟩

theorem dequeue_inv {s : State} {r : State × Option Byte} (hi : s.Inv) (hc : s.coreReset = true)
    (h : dequeue s = .next r) : r.1.Inv := by
  have g := hi.core hc
  rcases dequeue_cases h with ⟨_, rfl⟩ | ⟨he, b, _, rfl⟩
  · exact hi
  · exact ⟨⟨hi.stores.tx, ⟨hi.stores.rx.canonical, hi.stores.rx.inRange⟩, hi.stores.rb, hi.stores.txSlots,
      hi.stores.rxSlots, hi.stores.rbSlots⟩,
      fun _ => ⟨g.tx, RingBuffer.drop_good g.rx he, g.idle, g.received⟩, hi.rb⟩

theorem setRxf_false_inv {s : State} (hi : s.Inv) : (s.setRxf false).Inv :=
  ⟨hi.stores.congr rfl rfl rfl, fun hc => ⟨(hi.core hc).tx, (hi.core hc).rx, (hi.core hc).idle, fun h => absurd h (by simp)⟩, hi.rb⟩

theorem invoke_inv {s t : State} (hi : s.Inv) (hc : s.coreReset = true) (h : invoke s = .next t) : t.Inv := by
  rcases invoke_cases h with ⟨_, u, hu, rfl⟩ | ⟨_, _, rfl⟩
  · exact (onTransmitReady_inv hi hc hu).congr rfl rfl rfl rfl rfl rfl rfl rfl
  · exact setRxf_false_inv (onByteReceived_inv _ hi hc)

end Sys2Proof.Machine
end

