-- ==== Sys2Proof/Laws/Exec.lean ====
section
/-! SUPPORT. The laws of the meanings: the invariant through `exec` and through a bundle, and completion of a bundle. -/

namespace Sys2Proof.Machine

/-- Every operation that answers keeps the invariant. -/
theorem exec_inv {i : Instr} {s t : State} (hi : s.Inv) (h : exec i s = .next t) : t.Inv := by
  cases i with
  | init =>
    cases h
    exact ⟨⟨hi.stores.tx, hi.stores.rx, RingBuffer.init_storeOk hi.stores.rb, hi.stores.txSlots, hi.stores.rxSlots,
      hi.stores.rbSlots⟩, fun hc => (hi.core hc).congr rfl rfl rfl rfl rfl, fun _ => RingBuffer.init_good hi.stores.rbSlots⟩
  | isEmpty =>
    obtain ⟨_, h⟩ := rbChecked_eq_next.1 h
    cases h
    exact hi.congr rfl rfl rfl rfl rfl rfl rfl rfl
  | isFull =>
    obtain ⟨_, h⟩ := rbChecked_eq_next.1 h
    cases h
    exact hi.congr rfl rfl rfl rfl rfl rfl rfl rfl
  | tryPush v =>
    obtain ⟨hr, h⟩ := rbChecked_eq_next.1 h
    cases h
    exact ⟨⟨hi.stores.tx, hi.stores.rx, RingBuffer.tryPush_storeOk v hr.rb hi.stores.rb, hi.stores.txSlots,
      hi.stores.rxSlots, by simpa using hi.stores.rbSlots⟩, fun hc => (hi.core hc).congr rfl rfl rfl rfl rfl,
      fun _ => RingBuffer.tryPush_good v (hi.rb hr.reset)⟩
  | tryPop =>
    obtain ⟨hr, h⟩ := rbChecked_eq_next.1 h
    obtain ⟨r, hp, h⟩ := andThen_eq_next.1 h
    cases h
    refine ⟨⟨hi.stores.tx, hi.stores.rx, RingBuffer.tryPop_storeOk hi.stores.rb hp, hi.stores.txSlots,
      hi.stores.rxSlots, ?_⟩, fun hc => (hi.core hc).congr rfl rfl rfl rfl rfl, fun _ => RingBuffer.tryPop_good (hi.rb hr.reset) hp⟩
    show slotCountOk r.1.slots = true
    rw [(RingBuffer.tryPop_frame hp).2.1]
    exact hi.stores.rbSlots
  | rbNop =>
    obtain ⟨_, h⟩ := rbChecked_eq_next.1 h
    cases h
    exact hi
  | coreInit =>
    cases h
    exact ⟨⟨RingBuffer.init_storeOk hi.stores.tx, RingBuffer.init_storeOk hi.stores.rx, hi.stores.rb,
      hi.stores.txSlots, hi.stores.rxSlots, hi.stores.rbSlots⟩,
      fun _ => ⟨RingBuffer.init_good hi.stores.txSlots, RingBuffer.init_good hi.stores.rxSlots,
        fun _ => by simp [RingBuffer.init, RingBuffer.empty], fun h => absurd h (by simp)⟩, hi.rb⟩
  | dispatch =>
    obtain ⟨hr, h⟩ := coreChecked_eq_next.1 h
    split_ifs at h
    · exact invoke_inv hi hr.reset h
    · cases h; exact hi
  | enqueue b =>
    obtain ⟨hr, h⟩ := coreChecked_eq_next.1 h
    cases h
    exact (enqueue_inv b hi hr.reset).congr rfl rfl rfl rfl rfl rfl rfl rfl
  | dequeue =>
    obtain ⟨hr, h⟩ := coreChecked_eq_next.1 h
    obtain ⟨r, hd, h⟩ := andThen_eq_next.1 h
    cases h
    exact (dequeue_inv hi hr.reset hd).congr rfl rfl rfl rfl rfl rfl rfl rfl
  | uTxrdy =>
    obtain ⟨_, h⟩ := coreChecked_eq_next.1 h
    cases h
    exact hi.congr rfl rfl rfl rfl rfl rfl rfl rfl
  | uRxbyte b =>
    obtain ⟨hr, h⟩ := coreChecked_eq_next.1 h
    cases h
    have g := hi.core hr.reset
    exact ⟨hi.stores.congr rfl rfl rfl, fun _ => ⟨g.tx, g.rx, g.idle, fun _ => rfl⟩, hi.rb⟩
  | nop =>
    obtain ⟨_, h⟩ := coreChecked_eq_next.1 h
    cases h
    exact hi
  | onTransmitReady =>
    obtain ⟨hr, h⟩ := coreChecked_eq_next.1 h
    exact onTransmitReady_inv hi hr.reset h
  | onByteReceived =>
    obtain ⟨hr, h⟩ := coreChecked_eq_next.1 h
    obtain ⟨b, _, h⟩ := andThen_eq_next.1 h
    cases h
    exact onByteReceived_inv b hi hr.reset

/-- An invocation that answers keeps the invariant. -/
theorem invokeBySt_inv {s t : State} (hi : s.Inv) (h : invokeBySt s = .next t) : t.Inv := by
  unfold invokeBySt at h
  split at h
  · obtain ⟨u, hu, h⟩ := andThen_eq_next.1 h
    cases h
    unfold endInvocation
    split_ifs
    · exact (exec_inv hi hu).congr rfl rfl rfl rfl rfl rfl rfl rfl
    · exact setRxf_false_inv (exec_inv hi hu)
  · cases h
    exact hi

/-- A called operation that answers keeps the invariant. -/
theorem callMeaning_inv {i : Instr} {s t : State} (hi : s.Inv) (h : callMeaning i s = .next t) : t.Inv := by
  unfold callMeaning at h
  split_ifs at h
  · exact invokeBySt_inv hi h
  · exact exec_inv hi h

/-- The operations a CW word can select from a state that has been reset, other than the branches that need a byte. -/
theorem exec_core_completes {i : Instr} {s : State} (hi : s.Inv) (hc : s.coreReset = true) (hf : i.format = .cw) :
    Completes (exec i s) := by
  have g := hi.core hc
  have r := hi.coreReady hc
  cases i with
  | init => cases hf
  | isEmpty => cases hf
  | isFull => cases hf
  | tryPush v => cases hf
  | tryPop => cases hf
  | rbNop => cases hf
  | onTransmitReady => cases hf
  | onByteReceived => cases hf
  | coreInit => exact ⟨_, rfl⟩
  | dispatch =>
    have hb : Completes (if s.irq then invoke s else (.next s : Res State)) := by
      split_ifs with hq
      · exact invoke_completes g.tx fun hx => g.received (by simpa [State.irq, hx] using hq)
      · exact ⟨_, rfl⟩
    obtain ⟨t, ht⟩ := hb
    exact ⟨t, coreChecked_eq_next.2 ⟨r, ht⟩⟩
  | enqueue b => exact ⟨_, coreChecked_of_ready r _⟩
  | dequeue =>
    obtain ⟨d, hd⟩ := dequeue_completes g.rx
    exact ⟨_, coreChecked_eq_next.2 ⟨r, andThen_eq_next.2 ⟨d, hd, rfl⟩⟩⟩
  | uTxrdy => exact ⟨_, coreChecked_of_ready r _⟩
  | uRxbyte b => exact ⟨_, coreChecked_of_ready r _⟩
  | nop => exact ⟨_, coreChecked_of_ready r _⟩

/-- The same for the operations an RB word can select. -/
theorem exec_rb_completes {i : Instr} {s : State} (hi : s.Inv) (hc : s.rbReset = true) (hf : i.format = .rb) :
    Completes (exec i s) := by
  have r := hi.rbReady hc
  cases i with
  | init => exact ⟨_, rfl⟩
  | isEmpty => exact ⟨_, rbChecked_of_ready r _⟩
  | isFull => exact ⟨_, rbChecked_of_ready r _⟩
  | tryPush v => exact ⟨_, rbChecked_of_ready r _⟩
  | tryPop =>
    obtain ⟨d, hd⟩ := RingBuffer.tryPop_of_good (hi.rb hc)
    exact ⟨_, rbChecked_eq_next.2 ⟨r, andThen_eq_next.2 ⟨d, hd, rfl⟩⟩⟩
  | rbNop => exact ⟨_, rbChecked_of_ready r _⟩
  | coreInit => cases hf
  | dispatch => cases hf
  | enqueue b => cases hf
  | dequeue => cases hf
  | uTxrdy => cases hf
  | uRxbyte b => cases hf
  | nop => cases hf
  | onTransmitReady => cases hf
  | onByteReceived => cases hf

/-- Package of the induction over a bundle: a property every operation keeps is kept by the bundle. -/
theorem runBundle_keeps {P : State → Prop} {is : List Instr}
    (hp : ∀ i ∈ is, ∀ s t, P s → exec i s = .next t → P t) :
    ∀ {s t}, P s → runBundle is s = .next t → P t := by
  induction is with
  | nil => intro s t hs h; cases h; exact hs
  | cons i is ih =>
    intro s t hs h
    obtain ⟨u, hu, h⟩ := andThen_eq_next.1 h
    exact ih (fun j hj => hp j (List.mem_cons_of_mem _ hj)) (hp i List.mem_cons_self s u hs hu) h

@[simp] theorem runBundle_nil (s : State) : runBundle [] s = .next s := rfl

@[simp] theorem runBundle_cons (i : Instr) (is : List Instr) (s : State) :
    runBundle (i :: is) s = andThen (exec i s) (runBundle is) := rfl

@[simp] theorem andThen_self {α : Type} (o : Res α) : andThen o (fun a => .next a) = o := by cases o <;> rfl

@[simp] theorem andThen_runBundle_nil (o : Res State) : andThen o (runBundle []) = o := by cases o <;> rfl

theorem runBundle_append (is js : List Instr) (s : State) :
    runBundle (is ++ js) s = andThen (runBundle is s) (runBundle js) := by
  induction is generalizing s with
  | nil => rfl
  | cons i is ih =>
    rw [List.cons_append, runBundle_cons, runBundle_cons, andThen_assoc]
    congr 1
    funext t
    exact ih t

end Sys2Proof.Machine
end

