-- ==== Sys2Proof/Laws/Inversion.lean ====
section
/-! SUPPORT. Inversion: everything each meaning can have done when it answers a next state. Later proofs about one operation,
or about all of them, take these cases and unfold no meaning. -/

namespace Sys2Proof.Machine

variable {s t : State}

theorem init_next (h : exec .init s = .next t) : t = (s.setRb s.rb.init).setRbReset true :=
  (Host.Outcome.next.inj h).symm

theorem isEmpty_next (h : exec .isEmpty s = .next t) :
    s.RbReady ∧ t = s.setRbOut { s.rbOut with status := { s.rbOut.status with empty := s.rb.empty } } := by
  obtain ⟨r, h⟩ := rbChecked_eq_next.1 h
  exact ⟨r, (Host.Outcome.next.inj h).symm⟩

theorem isFull_next (h : exec .isFull s = .next t) :
    s.RbReady ∧ t = s.setRbOut { s.rbOut with status := { s.rbOut.status with full := s.rb.full } } := by
  obtain ⟨r, h⟩ := rbChecked_eq_next.1 h
  exact ⟨r, (Host.Outcome.next.inj h).symm⟩

theorem tryPush_next {v : Byte} (h : exec (.tryPush v) s = .next t) :
    s.RbReady ∧
    ((s.rb.full = true ∧ t = s.setRbOut { s.rbOut with wrOk := false }) ∨
     (s.rb.full = false ∧ t = (s.setRb (s.rb.store v)).setRbOut { s.rbOut with wrOk := true })) := by
  obtain ⟨r, h⟩ := rbChecked_eq_next.1 h
  refine ⟨r, ?_⟩
  rcases s.rb.tryPush_cases v with ⟨hf, e⟩ | ⟨hf, e⟩ <;> rw [e] at h
  · exact .inl ⟨hf, (Host.Outcome.next.inj h).symm⟩
  · exact .inr ⟨hf, (Host.Outcome.next.inj h).symm⟩

theorem tryPop_next (h : exec .tryPop s = .next t) :
    s.RbReady ∧
    ((s.rb.empty = true ∧ t = showPop s none) ∨
     (s.rb.empty = false ∧ ∃ v, s.rb.mem.read s.rb.loadSlot = some v ∧ t = showPop (s.setRb s.rb.drop) (some v))) := by
  obtain ⟨r, h⟩ := rbChecked_eq_next.1 h
  refine ⟨r, ?_⟩
  obtain ⟨p, hp, h⟩ := andThen_eq_next.1 h
  rcases RingBuffer.tryPop_cases hp with ⟨he, rfl⟩ | ⟨he, v, hv, rfl⟩
  · exact .inl ⟨he, (Host.Outcome.next.inj h).symm⟩
  · exact .inr ⟨he, v, hv, (Host.Outcome.next.inj h).symm⟩

theorem rbNop_next (h : exec .rbNop s = .next t) : s.RbReady ∧ t = s := by
  obtain ⟨r, h⟩ := rbChecked_eq_next.1 h
  exact ⟨r, (Host.Outcome.next.inj h).symm⟩

theorem coreInit_next (h : exec .coreInit s = .next t) :
    t = (((((s.setTx s.tx.init).setRx s.rx.init).setActive false).setTxr false).setRxf false).setCoreReset true :=
  (Host.Outcome.next.inj h).symm

/-- DISPATCH: not invoked, or one of the four outcomes of the two branches. -/
theorem dispatch_next (h : exec .dispatch s = .next t) :
    s.CoreReady ∧
    ((s.txr = false ∧ s.rxf = false ∧ t = s) ∨
     (s.txr = true ∧ s.tx.empty = true ∧ t = (s.setActive false).setTxr false) ∨
     (s.txr = true ∧ s.tx.empty = false ∧ ∃ b, s.tx.mem.read s.tx.loadSlot = some b ∧
       t = (emitTxWrite ((s.setTx s.tx.drop).setTxdata b) b).setTxr false) ∨
     (s.txr = false ∧ s.rxf = true ∧ s.rxdataWritten = true ∧ s.rx.full = true ∧ t = (emitRxDrop s).setRxf false) ∨
     (s.txr = false ∧ s.rxf = true ∧ s.rxdataWritten = true ∧ s.rx.full = false ∧
       t = (s.setRx (s.rx.store s.rxdata)).setRxf false)) := by
  obtain ⟨r, h⟩ := coreChecked_eq_next.1 h
  refine ⟨r, ?_⟩
  split_ifs at h with hq
  · rcases invoke_cases h with ⟨hx, u, hu, rfl⟩ | ⟨hx, hw, rfl⟩
    · rcases onTransmitReady_cases hu with ⟨he, rfl⟩ | ⟨he, b, hb, rfl⟩
      · exact .inr (.inl ⟨hx, he, rfl⟩)
      · exact .inr (.inr (.inl ⟨hx, he, b, hb, rfl⟩))
    · have hf : s.rxf = true := by simpa [State.irq, hx] using hq
      rcases onByteReceived_cases s s.rxdata with ⟨hl, e⟩ | ⟨hl, e⟩ <;> rw [e]
      · exact .inr (.inr (.inr (.inl ⟨hx, hf, hw, hl, rfl⟩)))
      · exact .inr (.inr (.inr (.inr ⟨hx, hf, hw, hl, rfl⟩)))
  · simp only [State.irq, Bool.or_eq_true, not_or, Bool.not_eq_true] at hq
    exact .inl ⟨hq.1, hq.2, (Host.Outcome.next.inj h).symm⟩

/-- ENQUEUE: rejected; pushed on an active path; pushed on an idle path, which starts it. -/
theorem enqueue_next {b : Byte} (h : exec (.enqueue b) s = .next t) :
    s.CoreReady ∧
    ((s.tx.full = true ∧ t = s.setOut { s.out with enqOk := false }) ∨
     (s.tx.full = false ∧ s.active = true ∧ t = (s.setTx (s.tx.store b)).setOut { s.out with enqOk := true }) ∨
     (s.tx.full = false ∧ s.active = false ∧
       t = (((s.setTx (s.tx.store b)).setActive true).setTxr true).setOut { s.out with enqOk := true })) := by
  obtain ⟨r, h⟩ := coreChecked_eq_next.1 h
  refine ⟨r, ?_⟩
  rcases enqueue_cases s b with ⟨hf, e⟩ | ⟨hf, e⟩ <;> rw [e] at h
  · exact .inl ⟨hf, (Host.Outcome.next.inj h).symm⟩
  · rcases startIfIdle_cases (s.setTx (s.tx.store b)) with ⟨ha, e'⟩ | ⟨ha, e'⟩ <;> rw [e'] at h
    · exact .inr (.inl ⟨hf, ha, (Host.Outcome.next.inj h).symm⟩)
    · exact .inr (.inr ⟨hf, ha, (Host.Outcome.next.inj h).symm⟩)

theorem dequeue_next (h : exec .dequeue s = .next t) :
    s.CoreReady ∧
    ((s.rx.empty = true ∧ t = showDequeue s none) ∨
     (s.rx.empty = false ∧ ∃ b, s.rx.mem.read s.rx.loadSlot = some b ∧
       t = showDequeue (s.setRx s.rx.drop) (some b))) := by
  obtain ⟨r, h⟩ := coreChecked_eq_next.1 h
  refine ⟨r, ?_⟩
  obtain ⟨p, hp, h⟩ := andThen_eq_next.1 h
  rcases dequeue_cases hp with ⟨he, rfl⟩ | ⟨he, v, hv, rfl⟩
  · exact .inl ⟨he, (Host.Outcome.next.inj h).symm⟩
  · exact .inr ⟨he, v, hv, (Host.Outcome.next.inj h).symm⟩

theorem uTxrdy_next (h : exec .uTxrdy s = .next t) : s.CoreReady ∧ t = s.setTxr true := by
  obtain ⟨r, h⟩ := coreChecked_eq_next.1 h
  exact ⟨r, (Host.Outcome.next.inj h).symm⟩

theorem uRxbyte_next {b : Byte} (h : exec (.uRxbyte b) s = .next t) :
    s.CoreReady ∧ t = ((s.setRxdata b).setRxdataWritten true).setRxf true := by
  obtain ⟨r, h⟩ := coreChecked_eq_next.1 h
  exact ⟨r, (Host.Outcome.next.inj h).symm⟩

theorem nop_next (h : exec .nop s = .next t) : s.CoreReady ∧ t = s := by
  obtain ⟨r, h⟩ := coreChecked_eq_next.1 h
  exact ⟨r, (Host.Outcome.next.inj h).symm⟩

theorem onTransmitReady_next (h : exec .onTransmitReady s = .next t) :
    s.CoreReady ∧
    ((s.tx.empty = true ∧ t = s.setActive false) ∨
     (s.tx.empty = false ∧ ∃ b, s.tx.mem.read s.tx.loadSlot = some b ∧
       t = emitTxWrite ((s.setTx s.tx.drop).setTxdata b) b)) := by
  obtain ⟨r, h⟩ := coreChecked_eq_next.1 h
  exact ⟨r, onTransmitReady_cases h⟩

theorem onByteReceived_next (h : exec .onByteReceived s = .next t) :
    s.CoreReady ∧ s.rxdataWritten = true ∧
    ((s.rx.full = true ∧ t = emitRxDrop s) ∨ (s.rx.full = false ∧ t = s.setRx (s.rx.store s.rxdata))) := by
  obtain ⟨r, h⟩ := coreChecked_eq_next.1 h
  obtain ⟨b, hb, h⟩ := andThen_eq_next.1 h
  unfold readRxdata at hb
  split_ifs at hb with hw
  cases hb
  refine ⟨r, hw, ?_⟩
  rcases onByteReceived_cases s s.rxdata with ⟨hf, e⟩ | ⟨hf, e⟩ <;> rw [e] at h
  · exact .inl ⟨hf, (Host.Outcome.next.inj h).symm⟩
  · exact .inr ⟨hf, (Host.Outcome.next.inj h).symm⟩

/-! ### Fields of a buffer after a push or a pop -/

@[simp] theorem RingBuffer.store_slots (b : RingBuffer) (v : Byte) : (b.store v).slots = b.slots := rfl
@[simp] theorem RingBuffer.store_readIndex (b : RingBuffer) (v : Byte) : (b.store v).readIndex = b.readIndex := rfl
@[simp] theorem RingBuffer.store_writeIndex (b : RingBuffer) (v : Byte) : (b.store v).writeIndex = b.nextWrite := rfl
@[simp] theorem RingBuffer.store_mem (b : RingBuffer) (v : Byte) : (b.store v).mem = b.mem.write b.storeSlot v := rfl
@[simp] theorem RingBuffer.drop_slots (b : RingBuffer) : b.drop.slots = b.slots := rfl
@[simp] theorem RingBuffer.drop_readIndex (b : RingBuffer) : b.drop.readIndex = b.nextRead := rfl
@[simp] theorem RingBuffer.drop_writeIndex (b : RingBuffer) : b.drop.writeIndex = b.writeIndex := rfl
@[simp] theorem RingBuffer.drop_mem (b : RingBuffer) : b.drop.mem = b.mem := rfl
@[simp] theorem RingBuffer.init_slots (b : RingBuffer) : b.init.slots = b.slots := rfl
@[simp] theorem RingBuffer.init_readIndex (b : RingBuffer) : b.init.readIndex = 0 := rfl
@[simp] theorem RingBuffer.init_writeIndex (b : RingBuffer) : b.init.writeIndex = 0 := rfl
@[simp] theorem RingBuffer.init_mem (b : RingBuffer) : b.init.mem = b.mem := rfl
@[simp] theorem RingBuffer.init_empty (b : RingBuffer) : b.init.empty = true := rfl

/-! ### The outputs an operation drives -/

@[simp] theorem emitTxWrite_out (s : State) (b : Byte) :
    (emitTxWrite s b).out = { s.out with txWrite := true, txWdata := b } := rfl
@[simp] theorem emitRxDrop_out (s : State) : (emitRxDrop s).out = { s.out with rxDrop := true } := rfl
@[simp] theorem showDequeue_out (s : State) (r : Option Byte) :
    (showDequeue s r).out = { s.out with deqValid := r.isSome, deqData := r.getD Byte.idle } := rfl
@[simp] theorem showPop_rbOut (s : State) (r : Option Byte) :
    (showPop s r).rbOut = { s.rbOut with rdValid := r.isSome, rdData := r.getD Byte.idle } := rfl

/-! ### And what they leave -/

@[simp] theorem emitTxWrite_tx (s : State) (b : Byte) : (emitTxWrite s b).tx = s.tx := rfl
@[simp] theorem emitRxDrop_tx (s : State) : (emitRxDrop s).tx = s.tx := rfl
@[simp] theorem showDequeue_tx (s : State) (r : Option Byte) : (showDequeue s r).tx = s.tx := rfl
@[simp] theorem showPop_tx (s : State) (r : Option Byte) : (showPop s r).tx = s.tx := rfl
@[simp] theorem emitTxWrite_rx (s : State) (b : Byte) : (emitTxWrite s b).rx = s.rx := rfl
@[simp] theorem emitRxDrop_rx (s : State) : (emitRxDrop s).rx = s.rx := rfl
@[simp] theorem showDequeue_rx (s : State) (r : Option Byte) : (showDequeue s r).rx = s.rx := rfl
@[simp] theorem showPop_rx (s : State) (r : Option Byte) : (showPop s r).rx = s.rx := rfl
@[simp] theorem emitTxWrite_active (s : State) (b : Byte) : (emitTxWrite s b).active = s.active := rfl
@[simp] theorem emitRxDrop_active (s : State) : (emitRxDrop s).active = s.active := rfl
@[simp] theorem showDequeue_active (s : State) (r : Option Byte) : (showDequeue s r).active = s.active := rfl
@[simp] theorem showPop_active (s : State) (r : Option Byte) : (showPop s r).active = s.active := rfl
@[simp] theorem emitTxWrite_txr (s : State) (b : Byte) : (emitTxWrite s b).txr = s.txr := rfl
@[simp] theorem emitRxDrop_txr (s : State) : (emitRxDrop s).txr = s.txr := rfl
@[simp] theorem showDequeue_txr (s : State) (r : Option Byte) : (showDequeue s r).txr = s.txr := rfl
@[simp] theorem showPop_txr (s : State) (r : Option Byte) : (showPop s r).txr = s.txr := rfl
@[simp] theorem emitTxWrite_rxf (s : State) (b : Byte) : (emitTxWrite s b).rxf = s.rxf := rfl
@[simp] theorem emitRxDrop_rxf (s : State) : (emitRxDrop s).rxf = s.rxf := rfl
@[simp] theorem showDequeue_rxf (s : State) (r : Option Byte) : (showDequeue s r).rxf = s.rxf := rfl
@[simp] theorem showPop_rxf (s : State) (r : Option Byte) : (showPop s r).rxf = s.rxf := rfl
@[simp] theorem emitTxWrite_txdata (s : State) (b : Byte) : (emitTxWrite s b).txdata = s.txdata := rfl
@[simp] theorem emitRxDrop_txdata (s : State) : (emitRxDrop s).txdata = s.txdata := rfl
@[simp] theorem showDequeue_txdata (s : State) (r : Option Byte) : (showDequeue s r).txdata = s.txdata := rfl
@[simp] theorem showPop_txdata (s : State) (r : Option Byte) : (showPop s r).txdata = s.txdata := rfl
@[simp] theorem emitTxWrite_rxdata (s : State) (b : Byte) : (emitTxWrite s b).rxdata = s.rxdata := rfl
@[simp] theorem emitRxDrop_rxdata (s : State) : (emitRxDrop s).rxdata = s.rxdata := rfl
@[simp] theorem showDequeue_rxdata (s : State) (r : Option Byte) : (showDequeue s r).rxdata = s.rxdata := rfl
@[simp] theorem showPop_rxdata (s : State) (r : Option Byte) : (showPop s r).rxdata = s.rxdata := rfl
@[simp] theorem emitTxWrite_rb (s : State) (b : Byte) : (emitTxWrite s b).rb = s.rb := rfl
@[simp] theorem emitRxDrop_rb (s : State) : (emitRxDrop s).rb = s.rb := rfl
@[simp] theorem showDequeue_rb (s : State) (r : Option Byte) : (showDequeue s r).rb = s.rb := rfl
@[simp] theorem showPop_rb (s : State) (r : Option Byte) : (showPop s r).rb = s.rb := rfl
@[simp] theorem showPop_out (s : State) (r : Option Byte) : (showPop s r).out = s.out := rfl
@[simp] theorem emitTxWrite_rbOut (s : State) (b : Byte) : (emitTxWrite s b).rbOut = s.rbOut := rfl
@[simp] theorem emitRxDrop_rbOut (s : State) : (emitRxDrop s).rbOut = s.rbOut := rfl
@[simp] theorem showDequeue_rbOut (s : State) (r : Option Byte) : (showDequeue s r).rbOut = s.rbOut := rfl
@[simp] theorem emitTxWrite_requests (s : State) (b : Byte) : (emitTxWrite s b).requests = s.requests := rfl
@[simp] theorem emitRxDrop_requests (s : State) : (emitRxDrop s).requests = s.requests := rfl
@[simp] theorem showDequeue_requests (s : State) (r : Option Byte) : (showDequeue s r).requests = s.requests := rfl
@[simp] theorem showPop_requests (s : State) (r : Option Byte) : (showPop s r).requests = s.requests := rfl
@[simp] theorem emitTxWrite_coreReset (s : State) (b : Byte) : (emitTxWrite s b).coreReset = s.coreReset := rfl
@[simp] theorem emitRxDrop_coreReset (s : State) : (emitRxDrop s).coreReset = s.coreReset := rfl
@[simp] theorem showDequeue_coreReset (s : State) (r : Option Byte) : (showDequeue s r).coreReset = s.coreReset := rfl
@[simp] theorem showPop_coreReset (s : State) (r : Option Byte) : (showPop s r).coreReset = s.coreReset := rfl
@[simp] theorem emitTxWrite_rbReset (s : State) (b : Byte) : (emitTxWrite s b).rbReset = s.rbReset := rfl
@[simp] theorem emitRxDrop_rbReset (s : State) : (emitRxDrop s).rbReset = s.rbReset := rfl
@[simp] theorem showDequeue_rbReset (s : State) (r : Option Byte) : (showDequeue s r).rbReset = s.rbReset := rfl
@[simp] theorem showPop_rbReset (s : State) (r : Option Byte) : (showPop s r).rbReset = s.rbReset := rfl
@[simp] theorem emitTxWrite_rxdataWritten (s : State) (b : Byte) : (emitTxWrite s b).rxdataWritten = s.rxdataWritten := rfl
@[simp] theorem emitRxDrop_rxdataWritten (s : State) : (emitRxDrop s).rxdataWritten = s.rxdataWritten := rfl
@[simp] theorem showDequeue_rxdataWritten (s : State) (r : Option Byte) : (showDequeue s r).rxdataWritten = s.rxdataWritten := rfl
@[simp] theorem showPop_rxdataWritten (s : State) (r : Option Byte) : (showPop s r).rxdataWritten = s.rxdataWritten := rfl
@[simp] theorem emitTxWrite_freeCount (s : State) (b : Byte) : (emitTxWrite s b).freeCount = s.freeCount := rfl
@[simp] theorem emitRxDrop_freeCount (s : State) : (emitRxDrop s).freeCount = s.freeCount := rfl
@[simp] theorem showDequeue_freeCount (s : State) (r : Option Byte) : (showDequeue s r).freeCount = s.freeCount := rfl
@[simp] theorem showPop_freeCount (s : State) (r : Option Byte) : (showPop s r).freeCount = s.freeCount := rfl

end Sys2Proof.Machine
end

