-- ==== Sys2Proof/Laws/Cycle.lean ====
section
/-! SUPPORT. The laws of a cycle: its start, what no operation changes, and that a bundle of one format completes. -/

namespace Sys2Proof.Machine

/-! ### The start of a cycle -/

theorem beginCw_of_reset {s : State} (h : s.coreReset = true) :
    beginCw s = s.setOut (CoreOut.inactive s.coreStatus) := by simp [beginCw, h]

theorem beginRb_of_reset {s : State} (h : s.rbReset = true) :
    beginRb s = s.setRbOut (RbOut.inactive s.rbStatus) := by simp [beginRb, h]

theorem beginCw_inv {s : State} (h : s.Inv) : (beginCw s).Inv := by
  unfold beginCw
  split_ifs <;> exact h.congr rfl rfl rfl rfl rfl rfl rfl rfl

theorem beginRb_inv {s : State} (h : s.Inv) : (beginRb s).Inv := by
  unfold beginRb
  split_ifs <;> exact h.congr rfl rfl rfl rfl rfl rfl rfl rfl

theorem setRequests_inv {s : State} (l : List Request) (h : s.Inv) : (s.setRequests l).Inv :=
  h.congr rfl rfl rfl rfl rfl rfl rfl rfl

/-! ### What no operation changes -/

/-- The requests stay, a reset block stays reset, the slot counts stay. -/
structure Kept (s t : State) : Prop where
  requests : t.requests = s.requests
  coreReset : s.coreReset = true → t.coreReset = true
  rbReset : s.rbReset = true → t.rbReset = true
  txSlots : t.tx.slots = s.tx.slots
  rxSlots : t.rx.slots = s.rx.slots
  rbSlots : t.rb.slots = s.rb.slots

theorem Kept.refl (s : State) : Kept s s := ⟨rfl, id, id, rfl, rfl, rfl⟩

theorem Kept.trans {s t u : State} (h : Kept s t) (k : Kept t u) : Kept s u :=
  ⟨k.requests.trans h.requests, k.coreReset ∘ h.coreReset, k.rbReset ∘ h.rbReset, k.txSlots.trans h.txSlots,
    k.rxSlots.trans h.rxSlots, k.rbSlots.trans h.rbSlots⟩

theorem beginCw_kept (s : State) : Kept s (beginCw s) := by
  unfold beginCw
  split_ifs <;> exact ⟨rfl, id, id, rfl, rfl, rfl⟩

theorem beginRb_kept (s : State) : Kept s (beginRb s) := by
  unfold beginRb
  split_ifs <;> exact ⟨rfl, id, id, rfl, rfl, rfl⟩

theorem exec_kept {i : Instr} {s t : State} (h : exec i s = .next t) : Kept s t := by
  cases i with
  | init => cases init_next h; exact ⟨rfl, id, fun _ => rfl, rfl, rfl, rfl⟩
  | isEmpty => obtain ⟨_, rfl⟩ := isEmpty_next h; exact ⟨rfl, id, id, rfl, rfl, rfl⟩
  | isFull => obtain ⟨_, rfl⟩ := isFull_next h; exact ⟨rfl, id, id, rfl, rfl, rfl⟩
  | tryPush v =>
    rcases tryPush_next h with ⟨_, ⟨_, rfl⟩ | ⟨_, rfl⟩⟩ <;> exact ⟨rfl, id, id, rfl, rfl, rfl⟩
  | tryPop =>
    rcases tryPop_next h with ⟨_, ⟨_, rfl⟩ | ⟨_, b, _, rfl⟩⟩ <;> exact ⟨rfl, id, id, rfl, rfl, rfl⟩
  | rbNop => obtain ⟨_, rfl⟩ := rbNop_next h; exact .refl _
  | coreInit => cases coreInit_next h; exact ⟨rfl, fun _ => rfl, id, rfl, rfl, rfl⟩
  | dispatch =>
    rcases dispatch_next h with
      ⟨_, ⟨_, _, rfl⟩ | ⟨_, _, rfl⟩ | ⟨_, _, b, _, rfl⟩ | ⟨_, _, _, _, rfl⟩ | ⟨_, _, _, _, rfl⟩⟩ <;>
    exact ⟨rfl, id, id, rfl, rfl, rfl⟩
  | enqueue b =>
    rcases enqueue_next h with ⟨_, ⟨_, rfl⟩ | ⟨_, _, rfl⟩ | ⟨_, _, rfl⟩⟩ <;> exact ⟨rfl, id, id, rfl, rfl, rfl⟩
  | dequeue =>
    rcases dequeue_next h with ⟨_, ⟨_, rfl⟩ | ⟨_, b, _, rfl⟩⟩ <;> exact ⟨rfl, id, id, rfl, rfl, rfl⟩
  | uTxrdy => obtain ⟨_, rfl⟩ := uTxrdy_next h; exact ⟨rfl, id, id, rfl, rfl, rfl⟩
  | uRxbyte b => obtain ⟨_, rfl⟩ := uRxbyte_next h; exact ⟨rfl, id, id, rfl, rfl, rfl⟩
  | nop => obtain ⟨_, rfl⟩ := nop_next h; exact .refl _
  | onTransmitReady =>
    rcases onTransmitReady_next h with ⟨_, ⟨_, rfl⟩ | ⟨_, b, _, rfl⟩⟩ <;> exact ⟨rfl, id, id, rfl, rfl, rfl⟩
  | onByteReceived =>
    rcases onByteReceived_next h with ⟨_, _, ⟨_, rfl⟩ | ⟨_, rfl⟩⟩ <;> exact ⟨rfl, id, id, rfl, rfl, rfl⟩

theorem runBundle_kept {is : List Instr} {s t : State} (h : runBundle is s = .next t) : Kept s t :=
  runBundle_keeps (P := Kept s) (fun _ _ _ _ k e => k.trans (exec_kept e)) (.refl s) h

/-! ### Bundles of one format -/

theorem decodeRb_format (w : RbWord) : ∀ i ∈ decodeRb w, i.format = .rb := by
  intro i hi
  obtain ⟨r, hr, rfl⟩ := List.mem_map.1 hi
  have hm := (List.mem_filter.1 hr).1
  simp only [rbTable, List.mem_cons, List.not_mem_nil, or_false] at hm
  rcases hm with rfl | rfl | rfl | rfl | rfl | rfl <;> rfl

theorem decodeCw_format (w : CwWord) : ∀ i ∈ decodeCw w, i.format = .cw := by
  intro i hi
  obtain ⟨r, hr, rfl⟩ := List.mem_map.1 hi
  have hm := (List.mem_filter.1 hr).1
  simp only [cwTable, List.mem_cons, List.not_mem_nil, or_false] at hm
  rcases hm with rfl | rfl | rfl | rfl | rfl | rfl | rfl <;> rfl

/-- A bundle of CW operations completes from a good state that has been reset. -/
theorem runBundle_core_completes {is : List Instr} (hf : ∀ i ∈ is, i.format = .cw) :
    ∀ {s : State}, s.Inv → s.coreReset = true → ∃ t, runBundle is s = .next t ∧ t.Inv := by
  induction is with
  | nil => intro s h _; exact ⟨s, rfl, h⟩
  | cons i is ih =>
    intro s h hr
    obtain ⟨u, hu⟩ := exec_core_completes h hr (hf i (by simp))
    obtain ⟨t, ht, hi⟩ := ih (fun j hj => hf j (by simp [hj])) (exec_inv h hu) ((exec_kept hu).coreReset hr)
    exact ⟨t, by simp [hu, ht], hi⟩

/-- The same for a bundle of RB operations. -/
theorem runBundle_rb_completes {is : List Instr} (hf : ∀ i ∈ is, i.format = .rb) :
    ∀ {s : State}, s.Inv → s.rbReset = true → ∃ t, runBundle is s = .next t ∧ t.Inv := by
  induction is with
  | nil => intro s h _; exact ⟨s, rfl, h⟩
  | cons i is ih =>
    intro s h hr
    obtain ⟨u, hu⟩ := exec_rb_completes h hr (hf i (by simp))
    obtain ⟨t, ht, hi⟩ := ih (fun j hj => hf j (by simp [hj])) (exec_inv h hu) ((exec_kept hu).rbReset hr)
    exact ⟨t, by simp [hu, ht], hi⟩

end Sys2Proof.Machine
end

