-- ==== Sys2Proof/Laws/Decode.lean ====
section
/-! SUPPORT. The laws of decoding: when each row of the opcode table is selected, in the bits of R46 and R47, and the bytes
a word is laid out in. -/

namespace Sys2Proof

/-! ### CW rows -/

/-- The data field of ENQUEUE. -/
theorem enqData_field (w : CwWord) : dataField w 8 = (cwFields w).enqData := rfl

/-- The data field of U_RXBYTE. -/
theorem uRxdata_field (w : CwWord) : dataField w 0 = (cwFields w).uRxdata := rfl

theorem coreInit_row (w : CwWord) :
    (w &&& 0x200000 == 0x200000) = ((cwFields w).rst) := by
  show _ = (w[21])
  rw [Bool.eq_iff_iff]
  rw [beq_iff_eq]
  constructor
  · intro h
    have h21 := congrArg (fun x : BitVec 22 => x[21]) h
    simp at h21
    exact h21
  · intro h
    apply BitVec.eq_of_getElem_eq
    intro i hi
    rw [BitVec.getElem_and]
    interval_cases i <;> simp [h]

theorem dequeue_row (w : CwWord) :
    (w &&& 0x240000 == 0x040000) = (!(cwFields w).rst && (cwFields w).deqReq) := by
  show _ = (!w[21] && w[18])
  rw [Bool.eq_iff_iff]
  simp only [beq_iff_eq, Bool.and_eq_true, Bool.not_eq_true']
  constructor
  · intro h
    have h21 := congrArg (fun x : BitVec 22 => x[21]) h
    have h18 := congrArg (fun x : BitVec 22 => x[18]) h
    simp at h21 h18
    exact ⟨h21, h18⟩
  · intro h
    apply BitVec.eq_of_getElem_eq
    intro i hi
    rw [BitVec.getElem_and]
    interval_cases i <;> simp [h]

theorem dispatch_row (w : CwWord) :
    (w &&& 0x300000 == 0x100000) = (!(cwFields w).rst && (cwFields w).ie) := by
  show _ = (!w[21] && w[20])
  rw [Bool.eq_iff_iff]
  simp only [beq_iff_eq, Bool.and_eq_true, Bool.not_eq_true']
  constructor
  · intro h
    have h21 := congrArg (fun x : BitVec 22 => x[21]) h
    have h20 := congrArg (fun x : BitVec 22 => x[20]) h
    simp at h21 h20
    exact ⟨h21, h20⟩
  · intro h
    apply BitVec.eq_of_getElem_eq
    intro i hi
    rw [BitVec.getElem_and]
    interval_cases i <;> simp [h]

theorem enqueue_row (w : CwWord) :
    (w &&& 0x280000 == 0x080000) = (!(cwFields w).rst && (cwFields w).enqReq) := by
  show _ = (!w[21] && w[19])
  rw [Bool.eq_iff_iff]
  simp only [beq_iff_eq, Bool.and_eq_true, Bool.not_eq_true']
  constructor
  · intro h
    have h21 := congrArg (fun x : BitVec 22 => x[21]) h
    have h19 := congrArg (fun x : BitVec 22 => x[19]) h
    simp at h21 h19
    exact ⟨h21, h19⟩
  · intro h
    apply BitVec.eq_of_getElem_eq
    intro i hi
    rw [BitVec.getElem_and]
    interval_cases i <;> simp [h]

theorem uTxrdy_row (w : CwWord) :
    (w &&& 0x220000 == 0x020000) = (!(cwFields w).rst && (cwFields w).uTxrdy) := by
  show _ = (!w[21] && w[17])
  rw [Bool.eq_iff_iff]
  simp only [beq_iff_eq, Bool.and_eq_true, Bool.not_eq_true']
  constructor
  · intro h
    have h21 := congrArg (fun x : BitVec 22 => x[21]) h
    have h17 := congrArg (fun x : BitVec 22 => x[17]) h
    simp at h21 h17
    exact ⟨h21, h17⟩
  · intro h
    apply BitVec.eq_of_getElem_eq
    intro i hi
    rw [BitVec.getElem_and]
    interval_cases i <;> simp [h]

theorem uRxbyte_row (w : CwWord) :
    (w &&& 0x210000 == 0x010000) = (!(cwFields w).rst && (cwFields w).uRxbyte) := by
  show _ = (!w[21] && w[16])
  rw [Bool.eq_iff_iff]
  simp only [beq_iff_eq, Bool.and_eq_true, Bool.not_eq_true']
  constructor
  · intro h
    have h21 := congrArg (fun x : BitVec 22 => x[21]) h
    have h16 := congrArg (fun x : BitVec 22 => x[16]) h
    simp at h21 h16
    exact ⟨h21, h16⟩
  · intro h
    apply BitVec.eq_of_getElem_eq
    intro i hi
    rw [BitVec.getElem_and]
    interval_cases i <;> simp [h]

theorem nop_row (w : CwWord) :
    (w &&& 0x3F0000 == 0x000000) = (!(cwFields w).rst && (!(cwFields w).ie && (!(cwFields w).enqReq && (!(cwFields w).deqReq && (!(cwFields w).uTxrdy && !(cwFields w).uRxbyte))))) := by
  show _ = (!w[21] && (!w[20] && (!w[19] && (!w[18] && (!w[17] && !w[16])))))
  rw [Bool.eq_iff_iff]
  simp only [beq_iff_eq, Bool.and_eq_true, Bool.not_eq_true']
  constructor
  · intro h
    have h21 := congrArg (fun x : BitVec 22 => x[21]) h
    have h20 := congrArg (fun x : BitVec 22 => x[20]) h
    have h19 := congrArg (fun x : BitVec 22 => x[19]) h
    have h18 := congrArg (fun x : BitVec 22 => x[18]) h
    have h17 := congrArg (fun x : BitVec 22 => x[17]) h
    have h16 := congrArg (fun x : BitVec 22 => x[16]) h
    simp at h21 h20 h19 h18 h17 h16
    exact ⟨h21, h20, h19, h18, h17, h16⟩
  · intro h
    apply BitVec.eq_of_getElem_eq
    intro i hi
    rw [BitVec.getElem_and]
    interval_cases i <;> simp [h]

/-! ### RB rows -/

/-- The data field of TRY_PUSH. -/
theorem wrData_field (w : RbWord) : dataField w 0 = (rbFields w).wrData := rfl

theorem init_row (w : RbWord) :
    (w &&& 0x400 == 0x400) = ((rbFields w).rst) := by
  show _ = (w[10])
  rw [Bool.eq_iff_iff]
  rw [beq_iff_eq]
  constructor
  · intro h
    have h10 := congrArg (fun x : BitVec 11 => x[10]) h
    simp at h10
    exact h10
  · intro h
    apply BitVec.eq_of_getElem_eq
    intro i hi
    rw [BitVec.getElem_and]
    interval_cases i <;> simp [h]

theorem observe_row (w : RbWord) :
    (w &&& 0x400 == 0x000) = (!(rbFields w).rst) := by
  show _ = (!w[10])
  rw [Bool.eq_iff_iff]
  simp only [beq_iff_eq, Bool.not_eq_true']
  constructor
  · intro h
    have h10 := congrArg (fun x : BitVec 11 => x[10]) h
    simp at h10
    exact h10
  · intro h
    apply BitVec.eq_of_getElem_eq
    intro i hi
    rw [BitVec.getElem_and]
    interval_cases i <;> simp [h]

theorem tryPop_row (w : RbWord) :
    (w &&& 0x500 == 0x100) = (!(rbFields w).rst && (rbFields w).rdEn) := by
  show _ = (!w[10] && w[8])
  rw [Bool.eq_iff_iff]
  simp only [beq_iff_eq, Bool.and_eq_true, Bool.not_eq_true']
  constructor
  · intro h
    have h10 := congrArg (fun x : BitVec 11 => x[10]) h
    have h8 := congrArg (fun x : BitVec 11 => x[8]) h
    simp at h10 h8
    exact ⟨h10, h8⟩
  · intro h
    apply BitVec.eq_of_getElem_eq
    intro i hi
    rw [BitVec.getElem_and]
    interval_cases i <;> simp [h]

theorem tryPush_row (w : RbWord) :
    (w &&& 0x600 == 0x200) = (!(rbFields w).rst && (rbFields w).wrEn) := by
  show _ = (!w[10] && w[9])
  rw [Bool.eq_iff_iff]
  simp only [beq_iff_eq, Bool.and_eq_true, Bool.not_eq_true']
  constructor
  · intro h
    have h10 := congrArg (fun x : BitVec 11 => x[10]) h
    have h9 := congrArg (fun x : BitVec 11 => x[9]) h
    simp at h10 h9
    exact ⟨h10, h9⟩
  · intro h
    apply BitVec.eq_of_getElem_eq
    intro i hi
    rw [BitVec.getElem_and]
    interval_cases i <;> simp [h]

theorem rbNop_row (w : RbWord) :
    (w &&& 0x700 == 0x000) = (!(rbFields w).rst && (!(rbFields w).wrEn && !(rbFields w).rdEn)) := by
  show _ = (!w[10] && (!w[9] && !w[8]))
  rw [Bool.eq_iff_iff]
  simp only [beq_iff_eq, Bool.and_eq_true, Bool.not_eq_true']
  constructor
  · intro h
    have h10 := congrArg (fun x : BitVec 11 => x[10]) h
    have h9 := congrArg (fun x : BitVec 11 => x[9]) h
    have h8 := congrArg (fun x : BitVec 11 => x[8]) h
    simp at h10 h9 h8
    exact ⟨h10, h9, h8⟩
  · intro h
    apply BitVec.eq_of_getElem_eq
    intro i hi
    rw [BitVec.getElem_and]
    interval_cases i <;> simp [h]

/-! ### Bytes -/

/-- The bytes of a number give the number back. -/
theorem bytesToNat_natToBytes (k w : Nat) (h : w < 256 ^ k) : bytesToNat (natToBytes k w) = w := by
  induction k generalizing w with
  | zero => simp at h; simp [natToBytes, bytesToNat, h]
  | succ k ih =>
    have h' : w / 256 < 256 ^ k := by
      rw [Nat.div_lt_iff_lt_mul (by norm_num)]
      rwa [pow_succ] at h
    rw [natToBytes, bytesToNat, ih _ h', BitVec.toNat_ofNat]
    omega

/-- A CW word laid out in three bytes is read as itself. -/
theorem readWord_cw (w : CwWord) : readWord (natToBytes 3 w.toNat) = .ok (.cw w) := by
  have h : bytesToNat (natToBytes 3 w.toNat) = w.toNat := bytesToNat_natToBytes _ _ (by have := w.isLt; omega)
  have e : readWord (natToBytes 3 w.toNat) = (wordOfNat 22 (bytesToNat (natToBytes 3 w.toNat))).map .cw := rfl
  rw [e, h, wordOfNat, if_pos w.isLt]
  simp [Except.map]

/-- An RB word laid out in two bytes is read as itself. -/
theorem readWord_rb (w : RbWord) : readWord (natToBytes 2 w.toNat) = .ok (.rb w) := by
  have h : bytesToNat (natToBytes 2 w.toNat) = w.toNat := bytesToNat_natToBytes _ _ (by have := w.isLt; omega)
  have e : readWord (natToBytes 2 w.toNat) = (wordOfNat 11 (bytesToNat (natToBytes 2 w.toNat))).map .rb := rfl
  rw [e, h, wordOfNat, if_pos w.isLt]
  simp [Except.map]

end Sys2Proof
end

