-- ==== Sys2Proof/Laws/Micro.lean ====
section
/-! SUPPORT. ENQUEUE_STRING with nothing between its bytes, in words and as an operation, is the plain one. The laws of
DEQUEUE split into steps: uninterrupted it is DEQUEUE, and whatever runs between its steps it
returns the byte that was the oldest when it tested the buffer. -/

namespace Sys2Proof.Machine

/-- With no gap and no other field set, the general expansion is the plain one. -/
theorem spreadStringWords_plain (bs : List Byte) :
    spreadStringWords (bs.map fun b => ⟨[], .nop, b⟩) =
      enqueueStringWords bs := by
  induction bs with
  | nil => rfl
  | cons b bs ih =>
    simp only [spreadStringWords, enqueueStringWords, List.map_cons, List.flatMap_cons] at ih ⊢
    rw [ih]
    simp [StringByte.word, CwFields.nop, assembleCw, CwMnemonic.bits]

/-- The tally only starts elsewhere when earlier bytes have been rejected. -/
theorem runSplit_enqueueByte_alone (bs : List Byte) (s : State) (n : Nat) :
    runSplit enqueueByte (bs.map fun b => (b, [])) s n = .next ((enqueueString bs s).1, n + (enqueueString bs s).2) := by
  induction bs generalizing s n with
  | nil => rfl
  | cons b bs ih =>
    rcases hr : enqueue s b with ⟨t, _ | _⟩ <;>
    simp [runSplit, enqueueByte, enqueueString, hr, ih, Nat.add_assoc, Nat.add_comm 1]

/-- With nothing between its bytes, the string is the plain one. -/
theorem splitEnqueueString_alone (bs : List Byte) (s : State) :
    splitEnqueueString (bs.map fun b => (b, [])) s = runEnqueueString bs s := by
  simp [splitEnqueueString, runEnqueueString, runSplit_enqueueByte_alone]

/-- Uninterrupted, the three steps are DEQUEUE. -/
theorem splitDequeue_alone (s : State) :
    splitDequeue dequeueOrder (List.replicate 3 []) s =
      andThen (dequeue s) fun r => .next (r.1, ⟨s.rx.empty, r.2⟩) := by
  cases he : s.rx.empty with
  | true => simp [splitDequeue, dequeueOrder, runSplit, dequeueStep, DequeueLocals.start, dequeue, RingBuffer.tryPop, he]; rfl
  | false =>
    cases hv : s.rx.mem.read s.rx.loadSlot <;>
    simp [splitDequeue, dequeueOrder, runSplit, dequeueStep, DequeueLocals.start, dequeue, RingBuffer.tryPop, he, hv]

/-- What the other agents can do to MAIN's side of the receive path: the invariant is kept and bytes only arrive at the tail. -/
structure RxGrows (s t : State) : Prop where
  inv : t.Inv
  reset : t.coreReset = true
  contents : ∃ more, t.rx.contents = s.rx.contents ++ more

theorem RxGrows.refl {s : State} (hi : s.Inv) (hc : s.coreReset = true) : RxGrows s s := ⟨hi, hc, [], by simp⟩

theorem RxGrows.trans {s t u : State} (h : RxGrows s t) (k : RxGrows t u) : RxGrows s u := by
  obtain ⟨a, ha⟩ := h.contents
  obtain ⟨b, hb⟩ := k.contents
  exact ⟨k.inv, k.reset, a ++ b, by rw [hb, ha, List.append_assoc]⟩

/-- One operation that may interrupt MAIN completes, and the receive contents only grow. -/
theorem mayInterrupt_rxGrows {i : Instr} {s : State} (hm : mayInterrupt i = true) (hi : s.Inv) (hc : s.coreReset = true) :
    ∃ t, exec i s = .next t ∧ RxGrows s t := by
  have hk : i = .dispatch ∨ i = .uTxrdy ∨ ∃ b, i = .uRxbyte b := by
    cases i <;> simp [mayInterrupt, mayPerform, agentOf] at hm ⊢
  obtain ⟨t, ht⟩ := exec_core_completes hi hc (show i.format = .cw by rcases hk with rfl | rfl | ⟨b, rfl⟩ <;> rfl)
  refine ⟨t, ht, exec_inv hi ht, (exec_kept ht).coreReset hc, ?_⟩
  rcases hk with rfl | rfl | ⟨b, rfl⟩
  · rcases dispatch_next ht with
      ⟨_, ⟨_, _, rfl⟩ | ⟨_, _, rfl⟩ | ⟨_, _, b, _, rfl⟩ | ⟨_, _, _, _, rfl⟩ | ⟨_, _, _, hf, rfl⟩⟩
    · exact ⟨[], by simp⟩
    · exact ⟨[], by simp⟩
    · exact ⟨[], by simp⟩
    · exact ⟨[], by simp⟩
    · exact ⟨[s.rxdata], contents_store _ (hi.core hc).rx hf⟩
  · obtain ⟨_, rfl⟩ := uTxrdy_next ht
    exact ⟨[], by simp⟩
  · obtain ⟨_, rfl⟩ := uRxbyte_next ht
    exact ⟨[], by simp⟩

/-- So does a gap full of them. -/
theorem gap_rxGrows {gap : List Instr} (hg : ∀ i ∈ gap, mayInterrupt i = true) :
    ∀ {s : State}, s.Inv → s.coreReset = true → ∃ t, runBundle gap s = .next t ∧ RxGrows s t := by
  induction gap with
  | nil => intro s hi hc; exact ⟨s, rfl, .refl hi hc⟩
  | cons i gap ih =>
    intro s hi hc
    obtain ⟨u, hu, gu⟩ := mayInterrupt_rxGrows (hg i (by simp)) hi hc
    obtain ⟨t, ht, gt⟩ := ih (fun j hj => hg j (by simp [hj])) gu.inv gu.reset
    exact ⟨t, by simp [hu, ht], gu.trans gt⟩

/-- A buffer with contents is not empty, and the slot a pop loads holds the head. -/
theorem load_of_contents {b : RingBuffer} {v : Byte} {vs : List Byte} (h : b.Good) (hc : b.contents = v :: vs) :
    b.empty = false ∧ b.mem.read b.loadSlot = some v := by
  have he : b.empty = false := by
    by_contra hx
    rw [contents_empty h (by simpa using hx)] at hc
    cases hc
  obtain ⟨w, hw⟩ := Option.isSome_iff_exists.1 (h.live b.loadSlot (by rw [RingBuffer.liveSlots_drop h.shape he]; simp))
  rw [contents_drop h he hw] at hc
  exact ⟨he, by rw [hw, (List.cons.inj hc).1]⟩

/-- Whatever invocations and UART events fall between its steps, a split DEQUEUE completes in a good state; it returns the
byte that was the oldest at its test, and of the receive contents it takes that byte and no other. -/
theorem splitDequeue_interrupted {s : State} {gaps : List (List Instr)} (hi : s.Inv) (hc : s.coreReset = true)
    (hl : gaps.length = 3) (hg : ∀ g ∈ gaps, ∀ i ∈ g, mayInterrupt i = true) :
    ∃ r : State × DequeueLocals, splitDequeue dequeueOrder gaps s = .next r ∧ r.1.Inv ∧
      r.2.value = s.rx.contents.head? ∧ ∃ more, s.rx.contents ++ more = r.2.value.toList ++ r.1.rx.contents := by
  match gaps, hl with
  | [a, b, c], _ =>
  simp only [List.mem_cons, List.not_mem_nil, or_false, forall_eq_or_imp, forall_eq] at hg
  obtain ⟨ga, gb, gc⟩ := hg
  obtain ⟨s1, h1, r1⟩ := gap_rxGrows ga hi hc
  cases he : s.rx.empty with
  | true =>
    obtain ⟨s2, h2, r2⟩ := gap_rxGrows gb r1.inv r1.reset
    obtain ⟨s3, h3, r3⟩ := gap_rxGrows gc r2.inv r2.reset
    have h0 := contents_empty (hi.core hc).rx he
    refine ⟨(s3, ⟨true, none⟩), ?_, r3.inv, by rw [h0]; rfl, s3.rx.contents, by rw [h0]; rfl⟩
    simp [splitDequeue, dequeueOrder, runSplit, dequeueStep, DequeueLocals.start, he, h1, h2, h3]
  | false =>
    obtain ⟨v, hv⟩ := Option.isSome_iff_exists.1
      ((hi.core hc).rx.live s.rx.loadSlot (by rw [RingBuffer.liveSlots_drop (hi.core hc).rx.shape he]; simp))
    have h0 := contents_drop (hi.core hc).rx he hv
    obtain ⟨m1, e1⟩ := r1.contents
    obtain ⟨_, l1⟩ := load_of_contents (r1.inv.core r1.reset).rx (by rw [e1, h0]; rfl)
    obtain ⟨s2, h2, r2⟩ := gap_rxGrows gb r1.inv r1.reset
    obtain ⟨m2, e2⟩ := r2.contents
    have e2' : s2.rx.contents = v :: (s.rx.drop.contents ++ m1 ++ m2) := by rw [e2, e1, h0]; rfl
    have g2 := (r2.inv.core r2.reset).rx
    obtain ⟨n2, l2⟩ := load_of_contents g2 e2'
    have hd : dequeue s2 = .next (s2.setRx s2.rx.drop, some v) := by simp [dequeue, RingBuffer.tryPop, n2, l2]
    obtain ⟨s3, h3, r3⟩ := gap_rxGrows gc (dequeue_inv r2.inv r2.reset hd) r2.reset
    obtain ⟨m3, e3⟩ := r3.contents
    have e2'' : s2.rx.drop.contents = s.rx.drop.contents ++ m1 ++ m2 :=
      (List.cons.inj ((contents_drop g2 n2 l2).symm.trans e2')).2
    refine ⟨(s3, ⟨false, some v⟩), ?_, r3.inv, by rw [h0]; rfl, m1 ++ m2 ++ m3, ?_⟩
    · simp [splitDequeue, dequeueOrder, runSplit, dequeueStep, DequeueLocals.start, he, h1, l1, h2, h3]
    · rw [h0, e3]
      show _ = v :: (s2.rx.drop.contents ++ m3)
      rw [e2'']
      simp

end Sys2Proof.Machine
end

