-- ==== Sys2Proof/Laws/PerInstr.lean ====
section
/-! SUPPORT. Family RowSelected: the word the encoder writes for an operation selects that operation's row
(30_encoding.md R49, R58). -/

namespace Sys2Proof.Laws.RowSelected

/-- Whether some row of a table selects the word and gives the operation. -/
def selectedIn (i : Instr) : Except DecodeError (List Instr) → Bool
  | .ok b => b.contains i
  | .error _ => false

/-- The bytes the encoder writes for the operation are a word whose bundle holds the operation. -/
def Statement (i : Instr) : Prop := selectedIn i (decode (encode i)) = true

theorem init : Statement .init := by unfold Statement; decide
theorem isEmpty : Statement .isEmpty := by unfold Statement; decide
theorem isFull : Statement .isFull := by unfold Statement; decide
theorem tryPush (v : Byte) : Statement (.tryPush v) := by revert v; unfold Statement; decide
theorem tryPop : Statement .tryPop := by unfold Statement; decide
theorem rbNop : Statement .rbNop := by unfold Statement; decide
theorem coreInit : Statement .coreInit := by unfold Statement; decide
theorem dispatch : Statement .dispatch := by unfold Statement; decide
theorem enqueue (b : Byte) : Statement (.enqueue b) := by revert b; unfold Statement; decide
theorem dequeue : Statement .dequeue := by unfold Statement; decide
theorem uTxrdy : Statement .uTxrdy := by unfold Statement; decide
theorem uRxbyte (b : Byte) : Statement (.uRxbyte b) := by revert b; unfold Statement; decide
theorem nop : Statement .nop := by unfold Statement; decide
theorem onTransmitReady : Statement .onTransmitReady := by unfold Statement; decide
theorem onByteReceived : Statement .onByteReceived := by unfold Statement; decide

end Sys2Proof.Laws.RowSelected
end

