-- ==== Sys2Proof/Tests/Slice0.lean ====
section
/-! SUPPORT. Tests: the well-formedness checks, decoding of words written out bit by bit from 30_encoding.md, one-step vectors
of 95_test_vectors.md, and for every statement with hypotheses a witness that meets them. -/

namespace Sys2Proof.Tests

open Sys2Proof Sys2Proof.Machine

/-! ### Helpers -/

/-- What `f` reads from the next state, if the outcome is one. -/
def after {σ α : Type} (o : Res σ) (f : σ → α) : Option α :=
  match o with
  | .next s => some (f s)
  | .fault _ => none
  | .refused _ => none

/-- The fault, if the outcome is one. -/
def faultOf {σ : Type} (o : Res σ) : Option Fault :=
  match o with
  | .next _ => none
  | .fault r => some r
  | .refused _ => none

/-- The refusal, if the outcome is one. -/
def refusalOf {σ : Type} (o : Res σ) : Option Refusal :=
  match o with
  | .next _ => none
  | .fault _ => none
  | .refused r => some r

/-- What the decoder gives, `none` where it rejects. -/
def bundleOf (bs : List Byte) : Option (List Instr) :=
  match decode bs with
  | .ok b => some b
  | .error _ => none

/-- The rejection, if the decoder rejects. -/
def errorOf (bs : List Byte) : Option DecodeError :=
  match decode bs with
  | .ok _ => none
  | .error e => some e

/-- A buffer of four slots. -/
def buf4 (w r : Nat) (m : Memory) : RingBuffer := ⟨4, m, w, r⟩

/-- Two indices. -/
def idx (b : RingBuffer) : Nat × Nat := (b.writeIndex, b.readIndex)

/-- CORE with four-slot buffers. -/
def coreSt (tx rx : RingBuffer) (active txr rxf : Bool) (rxdata : Byte) : State :=
  { State.resetOf 4 4 4 with
    tx := tx, rx := rx, active := active, txr := txr, rxf := rxf, rxdata := rxdata, rxdataWritten := true }

/-- The machine with this stand-alone ring buffer. -/
def rbSt (b : RingBuffer) : State := { State.resetOf 4 4 4 with rb := b }

/-- An empty buffer, one that holds 41, and a full one. -/
def none4 : RingBuffer := buf4 0 0 []
def one4 : RingBuffer := buf4 1 0 [(0, 0x41)]
def full4 : RingBuffer := buf4 3 0 [(0, 0x41), (1, 0x42), (2, 0x43)]

/-- A full buffer whose write index has wrapped (95_test_vectors.md, receive vector 8). -/
def wrapped4 : RingBuffer := buf4 0 1 [(0, 0x11), (1, 0x22), (2, 0x33), (3, 0x44)]

/-! ### Well-formedness refuses an ill-formed term, check by check -/

theorem test_slotCount_refuses_one : slotCountOk 1 = false ∧ slotCountOk 2 = true := by decide
theorem test_notEmpty_refuses : Bundle.wf [] = false ∧ Bundle.notEmpty [] = false := by decide
theorem test_sameFormat_refuses : Bundle.sameFormat [.nop, .rbNop] = false := by decide
theorem test_inOrder_refuses_push_before_pop :
    Bundle.inOrder [.isEmpty, .isFull, .tryPush 0, .tryPop] = false := by decide
theorem test_inOrder_refuses_two_enqueues : Bundle.inOrder [.enqueue 0, .enqueue 1] = false := by decide
theorem test_resetAlone_refuses : Bundle.resetAlone [.coreInit, .dispatch] = false := by decide
theorem test_observes_refuses : Bundle.observes [.tryPop] = false := by decide
theorem test_idleAlone_refuses : Bundle.idleAlone [.dispatch, .nop] = false := by decide
theorem test_idleAlone_refuses_only_looking : Bundle.idleAlone [.isEmpty, .isFull] = false := by decide
theorem test_oneBranch_refuses : Bundle.oneBranch [.onTransmitReady, .onByteReceived] = false := by decide
theorem test_wf_accepts :
    Bundle.wf [.isEmpty, .isFull, .tryPop, .tryPush 5] = true ∧ Bundle.wf [.dequeue, .dispatch] = true := by decide
theorem test_run_refuses_without_reset : Run.wf [0x100000] = false ∧ Run.wf [0x200000, 0x100000] = true := by decide

/-! ### Decoding, from words written out bit by bit (R46 to R48) -/

/-- `rst wr_en rd_en wr_data`. -/
theorem test_decode_init : decodeRb 0b1_0_0_00000000 = [.init] := by decide
theorem test_decode_init_overrides : decodeRb 0b1_1_1_11111111 = [.init] := by decide
theorem test_decode_rbNop : decodeRb 0b0_0_0_11000011 = [.isEmpty, .isFull, .rbNop] := by decide
theorem test_decode_push : decodeRb 0b0_1_0_10100101 = [.isEmpty, .isFull, .tryPush 0xA5] := by decide
theorem test_decode_pop : decodeRb 0b0_0_1_11111111 = [.isEmpty, .isFull, .tryPop] := by decide
theorem test_decode_pop_push : decodeRb 0b0_1_1_00000101 = [.isEmpty, .isFull, .tryPop, .tryPush 5] := by decide

/-- `rst ie enq_req deq_req u_txrdy u_rxbyte enq_data u_rxdata`. -/
theorem test_decode_coreInit : decodeCw 0b1_0_0_0_0_0_00000000_00000000 = [.coreInit] := by decide
theorem test_decode_coreInit_overrides : decodeCw 0b1_1_1_1_1_1_11111111_11111111 = [.coreInit] := by decide
theorem test_decode_dispatch : decodeCw 0b0_1_0_0_0_0_00000000_00000000 = [.dispatch] := by decide
theorem test_decode_enqueue : decodeCw 0b0_0_1_0_0_0_01000010_00000001 = [.enqueue 0x42] := by decide
theorem test_decode_dequeue : decodeCw 0b0_0_0_1_0_0_00000000_00000000 = [.dequeue] := by decide
theorem test_decode_uTxrdy : decodeCw 0b0_0_0_0_1_0_00000000_00000000 = [.uTxrdy] := by decide
theorem test_decode_uRxbyte : decodeCw 0b0_0_0_0_0_1_10000000_00010001 = [.uRxbyte 0x11] := by decide
theorem test_decode_nop : decodeCw 0b0_0_0_0_0_0_11111111_11111111 = [.nop] := by decide
theorem test_decode_all : decodeCw 0b0_1_1_1_1_1_01001000_01010101 =
    [.dequeue, .dispatch, .enqueue 0x48, .uTxrdy, .uRxbyte 0x55] := by decide

/-- `TXR RXF`. -/
theorem test_decode_st : decodeSt 0b00 = [.onByteReceived] ∧ decodeSt 0b01 = [.onByteReceived] ∧
    decodeSt 0b10 = [.onTransmitReady] ∧ decodeSt 0b11 = [.onTransmitReady] := by decide

/-- The mnemonic examples of R55 and the words of 95_test_vectors.md. -/
theorem test_assemble : assembleRb [.push 5, .pop] = 0x305 ∧ assembleRb [.init] = 0x400 ∧
    assembleCw [.ie, .enq 0x48] = 0x184800 ∧ assembleCw [.urx 0x11, .ie] = 0x110011 ∧
    assembleCw [.ie, .utx, .urx 0x77] = 0x130077 ∧ assembleCw [.deq, .ie] = 0x140000 := by decide
theorem test_enqueueString_words : enqueueStringWords [0x41, 0x42] = [0x084100, 0x084200] := by decide

/-- Bytes: the length tells the format, and a bit above the word is rejected by name. -/
theorem test_decode_bytes : bundleOf [0x05, 0x03] = some [.isEmpty, .isFull, .tryPop, .tryPush 5] ∧
    bundleOf [0x00, 0x48, 0x18] = some [.dispatch, .enqueue 0x48] ∧ bundleOf [0x02] = some [.onTransmitReady] := by decide
theorem test_decode_rejects : errorOf [] = some .noFormatOfThisLength ∧ errorOf [0, 0, 0, 0] = some .noFormatOfThisLength ∧
    errorOf [0x04] = some .bitAboveTheWord ∧ errorOf [0x00, 0x08] = some .bitAboveTheWord ∧
    errorOf [0x00, 0x00, 0x40] = some .bitAboveTheWord := by decide

/-- The rows of the opcode table, by their match. -/
theorem test_table_rb : decodeTableWord 11 0x400 = some .init ∧ decodeTableWord 11 0x200 = some (.tryPush 0) ∧
    decodeTableWord 11 0x100 = some .tryPop ∧ decodeTableWord 11 0x000 = some .rbNop := by decide
theorem test_table_cw : decodeTableWord 22 0x200000 = some .coreInit ∧ decodeTableWord 22 0x100000 = some .dispatch ∧
    decodeTableWord 22 0x080000 = some (.enqueue 0) ∧ decodeTableWord 22 0x040000 = some .dequeue ∧
    decodeTableWord 22 0x020000 = some .uTxrdy ∧ decodeTableWord 22 0x010000 = some (.uRxbyte 0) ∧
    decodeTableWord 22 0 = some .nop := by decide
theorem test_table_st : decodeTableWord 2 2 = some .onTransmitReady ∧ decodeTableWord 2 0 = some .onByteReceived := by decide

/-- Every row's word runs as the first request after reset. -/
theorem test_fetch_rb : ∀ w ∈ [0x400, 0x200, 0x100, 0x000],
    after (step (State.reset.withFetchWord 11 w)) (fun t => t.requests) = some [] := by decide
theorem test_fetch_cw : ∀ w ∈ [0x200000, 0x100000, 0x080000, 0x040000, 0x020000, 0x010000, 0x000000],
    after (step (State.reset.withFetchWord 22 w)) (fun t => t.requests) = some [] := by decide
theorem test_fetch_st : ∀ w ∈ [0, 1, 2, 3],
    after (step (State.reset.withFetchWord 2 w)) (fun t => t.requests) = some [] := by decide
theorem test_fetch_st_runs :
    after (step (State.reset.withFetchWord 2 1)) (fun t => (idx t.rx, t.rxf)) = some ((1, 0), false) := by decide

/-! ### Vectors of 95_test_vectors.md: the ring buffer (section 2) -/

theorem test_adv : adv 8 7 = 0 ∧ adv 8 3 = 4 ∧ adv 3 2 = 0 ∧ adv 2 1 = 0 := by decide
theorem test_indexWidth : indexWidth 2 = 1 ∧ indexWidth 3 = 2 ∧ indexWidth 8 = 3 := by
  refine ⟨?_, ?_, ?_⟩ <;> norm_num [indexWidth, Nat.clog]
theorem test_conditions_full : (buf4 0 1 []).empty = false ∧ (buf4 0 1 []).full = true ∧ (buf4 0 1 []).count = 3 := by decide
theorem test_conditions_n3 : (RingBuffer.mk 3 [] 0 2).empty = false ∧ (RingBuffer.mk 3 [] 0 2).full = false ∧
    (RingBuffer.mk 3 [] 0 2).count = 1 := by decide

/-- 2.2 #1. -/
theorem test_init : after (rbCycle 0x400 (rbSt (buf4 3 1 [(1, 0xA2), (2, 0xA3)])))
    (fun t => (t.rb, t.rbOut.rdValid)) = some (buf4 0 0 [(1, 0xA2), (2, 0xA3)], false) := by decide
/-- 2.2 #12. -/
theorem test_init_overrides : after (rbCycle 0x7FF (rbSt (buf4 1 1 []))) (fun t => (idx t.rb, t.rbOut.wrOk, t.rbOut.status.empty)) =
    some ((0, 0), false, true) := by decide
/-- 2.2 #2: empty shows on the pin. -/
theorem test_isEmpty : after (rbCycle 0x000 (rbSt (buf4 0 0 []))) (fun t => t.rbOut.status.empty) = some true := by decide
/-- 2.2 #5: full shows on the pin. -/
theorem test_isFull : after (rbCycle 0x208 (rbSt full4)) (fun t => t.rbOut.status.full) = some true := by decide
/-- 2.2 #9 with four slots: the write index wraps. -/
theorem test_push_wraps : after (rbCycle 0x208 (rbSt (buf4 3 1 []))) (fun t => (idx t.rb, t.rb.mem.read 3, t.rbOut.wrOk)) =
    some ((0, 1), some 0x08, true) := by decide
/-- 2.2 #5: a full buffer rejects. -/
theorem test_push_full : after (rbCycle 0x208 (rbSt full4)) (fun t => (t.rb, t.rbOut.wrOk)) = some (full4, false) := by decide
/-- 2.2 #10: the byte FF is data. -/
theorem test_pop_ff : after (rbCycle 0x100 (rbSt (buf4 1 0 [(0, 0xFF)]))) (fun t => (idx t.rb, t.rbOut.rdValid, t.rbOut.rdData)) =
    some ((1, 1), true, 0xFF) := by decide
/-- 2.2 #7: no value. -/
theorem test_pop_empty : after (rbCycle 0x100 (rbSt (buf4 2 2 []))) (fun t => (idx t.rb, t.rbOut.rdValid, t.rbOut.rdData)) =
    some ((2, 2), false, 0xFF) := by decide
/-- 2.2 #13. -/
theorem test_rbNop : after (rbCycle 0x0C3 (rbSt (buf4 2 0 [(0, 1), (1, 2)]))) (fun t => (t.rb, t.rbOut.wrOk)) =
    some (buf4 2 0 [(0, 1), (1, 2)], false) := by decide
/-- 2.3 cycle 5: pop and push on a full buffer. -/
theorem test_pop_push_full : after (rbCycle 0x3A4 (rbSt (buf4 3 0 [(0, 0xA1), (1, 0xA2), (2, 0xA3)])))
    (fun t => (idx t.rb, t.rbOut.wrOk, t.rbOut.rdData, t.rb.mem.read 3)) = some ((0, 1), true, 0xA1, some 0xA4) := by decide
/-- 2.3 cycle 9: no fall-through. -/
theorem test_pop_push_empty : after (rbCycle 0x3B5 (rbSt (buf4 0 0 [])))
    (fun t => (idx t.rb, t.rbOut.wrOk, t.rbOut.rdValid)) = some ((1, 0), true, false) := by decide

/-! ### The transmit path (section 3) -/

/-- #1 and #4. -/
theorem test_enqueue_idle : after (exec (.enqueue 0x48) (coreSt none4 none4 false false false 0))
    (fun t => (idx t.tx, t.tx.mem.read 0, t.active, t.txr, t.out.enqOk)) = some ((1, 0), some 0x48, true, true, true) := by decide
theorem test_enqueue_full : after (exec (.enqueue 0x44) (coreSt full4 none4 true false false 0))
    (fun t => (t.tx, t.txr, t.out.enqOk)) = some (full4, false, false) := by decide
/-- #5 and #6. -/
theorem test_onTransmitReady_pops : after (exec .onTransmitReady (coreSt one4 none4 true true false 0))
    (fun t => (idx t.tx, t.txdata, t.active, t.txr, t.out.events)) = some ((1, 1), 0x41, true, true, [.txWrite 0x41]) := by decide
theorem test_onTransmitReady_empty : after (exec .onTransmitReady (coreSt (buf4 2 2 []) none4 true true false 0))
    (fun t => (idx t.tx, t.active, t.txr, t.out.txWrite)) = some ((2, 2), false, true, false) := by decide
/-- The bytes of test vector #9, presented in words with one cycle of `ie` before the fourth. -/
def drainString : List StringByte :=
  [⟨[], .nop, 0x41⟩, ⟨[], .nop, 0x42⟩, ⟨[], .nop, 0x43⟩, ⟨[{ CwFields.nop with ie := true }], .nop, 0x44⟩,
   ⟨[], .nop, 0x45⟩]
/-- #9. -/
theorem test_enqueueString : after (runEnqueueString [0x41, 0x42, 0x43, 0x44, 0x45] (coreSt none4 none4 false false false 0))
    (fun r => (r.1.tx, r.2)) = some (full4, 2) := by decide
/-- R80 with a drain between the third and the fourth byte: one place is free again, so only the last byte is rejected. -/
theorem test_spreadString_words : spreadStringWords drainString =
    [0x084100, 0x084200, 0x084300, 0x100000, 0x084400, 0x084500] := by decide
theorem test_splitEnqueueString : after (splitEnqueueString
    [(0x41, []), (0x42, []), (0x43, [.dispatch]), (0x44, []), (0x45, [])] (coreSt none4 none4 false false false 0))
    (fun r => (r.1.tx.contents, r.1.txdata, r.2)) = some ([0x42, 0x43, 0x44], 0x41, 1) := by decide
/-- R80 in words, the drain in a cycle of its own before the fourth byte. -/
theorem test_spreadString : after (runCw (spreadStringWords drainString) (coreSt none4 none4 false false false 0))
    (fun r => (r.1.tx.contents, txOut r.2, stringTally (spreadStringWords drainString) r.2)) =
      some ([0x42, 0x43, 0x44], [0x41], 1) := by decide

/-! ### The receive path (section 4) -/

/-- #2 and #8. -/
theorem test_onByteReceived_stores : after (exec .onByteReceived (coreSt none4 (buf4 2 0 [(0, 0x11), (1, 0x22)]) false false true 0x44))
    (fun t => (idx t.rx, t.rx.mem.read 2, t.rxf)) = some ((3, 0), some 0x44, true) := by decide
theorem test_onByteReceived_drops : after (exec .onByteReceived (coreSt none4 wrapped4 false false true 0x55))
    (fun t => (t.rx, t.out.events)) = some (wrapped4, [.rxDrop]) := by decide
/-- #6 and #7. -/
theorem test_dequeue_ff : after (exec .dequeue (coreSt none4 (buf4 1 0 [(0, 0xFF)]) false false false 0))
    (fun t => (idx t.rx, t.out.deqValid, t.out.deqData)) = some ((1, 1), true, 0xFF) := by decide
theorem test_dequeue_empty : after (exec .dequeue (coreSt none4 (buf4 1 1 [(0, 0xFF)]) false false false 0))
    (fun t => (idx t.rx, t.out.deqValid, t.out.deqData)) = some ((1, 1), false, 0xFF) := by decide

/-! ### The dispatcher (section 5.2) -/

/-- #5: transmit first, the byte-received flag left. -/
theorem test_dispatch_both : after (exec .dispatch (coreSt one4 none4 true true true 0x55))
    (fun t => (idx t.tx, t.txr, t.rxf, t.rx, t.txdata)) = some ((1, 1), false, true, none4, 0x41) := by decide
/-- #4: the flag is cleared although the byte is dropped. -/
theorem test_dispatch_drops : after (exec .dispatch (coreSt none4 full4 false false true 0x44))
    (fun t => (t.rx, t.rxf, t.out.rxDrop)) = some (full4, false, true) := by decide
/-- #6 and #7: invoked with neither flag set. -/
theorem test_invoke_stale : after (step { coreSt none4 none4 false false false 0x77 with requests := [.invoke] })
    (fun t => (idx t.rx, t.rx.mem.read 0)) = some ((1, 0), some 0x77) := by decide
theorem test_call_dispatch_stale : after (step { coreSt none4 none4 false false false 0x77 with requests := [.call .int .dispatch] })
    (fun t => (idx t.rx, t.rx.mem.read 0)) = some ((1, 0), some 0x77) := by decide
theorem test_invoke_unwritten : faultOf (step { State.reset with requests := [.invoke] }) = some .rxdataNeverWritten := by decide

/-! ### Single CW cycles (section 6) -/

/-- #2. -/
theorem test_nop : after (cwCycle 0x000000 (coreSt one4 none4 true true false 0)) (fun t => (t.tx, t.txr, t.out.txWrite)) =
    some (one4, true, false) := by decide
/-- #4. -/
theorem test_coreInit : after (cwCycle 0x3FFFFF (coreSt one4 full4 true false true 0))
    (fun t => (idx t.tx, idx t.rx, t.active, t.rxf, t.out.enqOk, t.out.deqValid)) =
    some ((0, 0), (0, 0), false, false, false, false) := by decide
/-- #3: the stores are not cleared. -/
theorem test_coreInit_keeps_stores : after (cwCycle 0x200000 (coreSt one4 full4 true false true 0x99))
    (fun t => (t.tx.mem, t.rx.mem, t.rxdata)) = some (one4.mem, full4.mem, 0x99) := by decide
/-- #5 and #8: the set wins. -/
theorem test_uTxrdy : after (cwCycle 0x120000 (coreSt none4 none4 false false false 0)) (fun t => t.txr) = some true := by decide
theorem test_uTxrdy_set_wins : after (cwCycle 0x130077 (coreSt one4 none4 true true false 0))
    (fun t => (idx t.tx, t.txr, t.rxf, t.rxdata, t.out.txWdata)) = some ((1, 1), true, true, 0x77, 0x41) := by decide
/-- #7: overrun at the register. -/
theorem test_uRxbyte_overrun : after (cwCycle 0x0100A2 (coreSt none4 none4 false false true 0xA1))
    (fun t => (t.rxdata, t.rxf, idx t.rx)) = some (0xA2, true, (0, 0)) := by decide
/-- #9: the enqueue sees `active` after the dispatcher cleared it. -/
theorem test_cycle_race : after (cwCycle 0x184200 (coreSt (buf4 1 1 []) none4 true true false 0))
    (fun t => (idx t.tx, t.active, t.txr, t.out.enqOk, t.out.txWrite)) = some ((2, 1), true, true, true, false) := by decide
/-- #12: the dequeue frees the slot. -/
theorem test_cycle_dequeue_first : after (cwCycle 0x140000 (coreSt none4 full4 false false true 0x44))
    (fun t => (idx t.rx, t.out.deqData, t.out.rxDrop, t.out.status.rxFull)) = some ((0, 1), 0x41, false, true) := by decide
/-- #10: the pop makes room for the same cycle's enqueue. -/
theorem test_cycle_pop_before_push : after (cwCycle 0x180400 (coreSt full4 none4 true true false 0))
    (fun t => (idx t.tx, t.tx.mem.read 3, t.txr, t.out.status.txFull)) = some ((0, 1), some 0x04, false, true) := by decide

/-! ### Split operations (R144) -/

/-- DEQUEUE (section 4 #4), with the dispatcher pushing a byte between its steps. -/
theorem test_split_dequeue : after (splitDequeue dequeueOrder [[], [.dispatch], []] (coreSt none4 one4 false false true 0x55))
    (fun r => (idx r.1.rx, r.2.value, r.1.rx.mem.read 1)) = some ((2, 1), some 0x41, some 0x55) := by decide
/-- The empty test comes first: a byte pushed after it is not returned. -/
theorem test_split_dequeue_empty : after (splitDequeue dequeueOrder [[.dispatch], [], []] (coreSt none4 none4 false false true 0x55))
    (fun r => (idx r.1.rx, r.2.value, r.2.sawEmpty)) = some ((1, 0), none, true) := by decide

/-! ### Stops -/

theorem test_refused_before_reset :
    refusalOf (step { State.reset with coreReset := false, requests := [.cw 0] }) = some .beforeReset ∧
    refusalOf (step { State.reset with rbReset := false, requests := [.rb 0x100] }) = some .beforeReset := by decide
theorem test_refused_no_request : refusalOf (step State.reset) = some .noRequest := by decide
theorem test_refused_wrong_agent : refusalOf (step { State.reset with requests := [.call .uart .dequeue] }) = some .wrongAgent := by decide
theorem test_refused_ill_formed : refusalOf (exec .tryPop (rbSt (buf4 4 0 []))) = some .illFormedBuffer := by decide
theorem test_fault_slot : faultOf (exec .tryPop (rbSt (buf4 1 0 []))) = some .slotNeverWritten := by decide

/-! ### Witnesses: for each statement with hypotheses, states and operands that meet them all -/

/-- A buffer's part of the invariant, as a check that runs. -/
def goodCheck (b : RingBuffer) : Bool := b.shapeOk && b.liveSlots.all fun i => (b.mem.read i).isSome

/-- The store's part. -/
def storeCheck (b : RingBuffer) : Bool :=
  decide b.mem.wf && (b.mem.all fun c => decide (c.1 < b.slots)) && slotCountOk b.slots

/-- The invariant with both blocks reset, as a check that runs. -/
def invCheck (s : State) : Bool :=
  goodCheck s.tx && goodCheck s.rx && goodCheck s.rb && storeCheck s.tx && storeCheck s.rx && storeCheck s.rb &&
  (s.active || s.tx.empty) && (!s.rxf || s.rxdataWritten)

theorem good_of_check {b : RingBuffer} (h : goodCheck b = true) : b.Good := by
  simp only [goodCheck, Bool.and_eq_true, List.all_eq_true] at h
  exact ⟨h.1, h.2⟩

theorem store_of_check {b : RingBuffer} (h : storeCheck b = true) : b.StoreOk ∧ slotCountOk b.slots = true := by
  simp only [storeCheck, Bool.and_eq_true, List.all_eq_true, decide_eq_true_eq] at h
  exact ⟨⟨h.1.1, h.1.2⟩, h.2⟩

theorem inv_of_check {s : State} (h : invCheck s = true) : s.Inv := by
  simp only [invCheck, Bool.and_eq_true, Bool.or_eq_true, Bool.not_eq_true'] at h
  obtain ⟨⟨⟨⟨⟨⟨⟨a, b⟩, c⟩, d⟩, e⟩, f⟩, g⟩, k⟩ := h
  refine ⟨⟨(store_of_check d).1, (store_of_check e).1, (store_of_check f).1, (store_of_check d).2, (store_of_check e).2,
    (store_of_check f).2⟩, fun _ => ⟨good_of_check a, good_of_check b, ?_, ?_⟩, fun _ => good_of_check c⟩
  · intro x; simpa [x] using g
  · intro x; simpa [x] using k

/-- CORE that holds one byte to send, a full receive buffer, and both flags. -/
def busy : State := coreSt one4 full4 true true true 0x55
/-- CORE that is idle, nothing buffered. -/
def idle : State := coreSt none4 none4 false false false 0
/-- CORE with a full transmit buffer in progress. -/
def sending : State := coreSt full4 none4 true false false 0
/-- CORE with the next transmit-ready due and nothing buffered. -/
def ending : State := coreSt none4 none4 true true false 0
/-- A byte received, room for it. -/
def receiving : State := coreSt none4 one4 false false true 0x55
/-- A byte received, no room for it. -/
def overflowing : State := coreSt none4 full4 false false true 0x55
/-- The same states before the first reset. -/
def unreset : State := { idle with coreReset := false, rbReset := false }

theorem busy_inv : busy.Inv := inv_of_check (by decide)
theorem idle_inv : idle.Inv := inv_of_check (by decide)
theorem sending_inv : sending.Inv := inv_of_check (by decide)
theorem ending_inv : ending.Inv := inv_of_check (by decide)
theorem receiving_inv : receiving.Inv := inv_of_check (by decide)
theorem overflowing_inv : overflowing.Inv := inv_of_check (by decide)
theorem busy_ready : busy.CoreReady := busy_inv.coreReady rfl
theorem idle_ready : idle.CoreReady := idle_inv.coreReady rfl
theorem sending_ready : sending.CoreReady := sending_inv.coreReady rfl
theorem ending_ready : ending.CoreReady := ending_inv.coreReady rfl
theorem receiving_ready : receiving.CoreReady := receiving_inv.coreReady rfl
theorem overflowing_ready : overflowing.CoreReady := overflowing_inv.coreReady rfl

/-- The machine with a stand-alone buffer that is empty, part filled, full. -/
theorem rbNone_inv : (rbSt none4).Inv := inv_of_check (by decide)
theorem rbOne_inv : (rbSt one4).Inv := inv_of_check (by decide)
theorem rbFull_inv : (rbSt full4).Inv := inv_of_check (by decide)

/-- A transmit slot that is live and was never written: a state no run reaches. -/
def unwrittenTx : State := coreSt (buf4 1 0 []) none4 true true false 0
def unwrittenRx : State := coreSt none4 (buf4 1 0 []) false false false 0
def unwrittenRb : State := rbSt (buf4 1 0 [])
/-- No byte has been received since power-up. -/
def unreceived : State := { idle with rxdataWritten := false }

theorem witness_ResetMeetsTheInvariant : ∃ nTx nRx nRb : Nat, 2 ≤ nTx ∧ 2 ≤ nRx ∧ 2 ≤ nRb := ⟨2, 3, 8, by decide⟩

theorem witness_EveryStepKeepsTheInvariant : ∃ s t : State, s.Inv ∧ step s = .next t :=
  ⟨{ busy with requests := [.cw 0x3DFFFF] }, _, inv_of_check (by decide), rfl⟩

theorem witness_EveryWordIsPerformed :
    (∃ (s : State) (w : CwWord) (rest : List Request), s.Inv ∧ s.coreReset = true ∧ s.requests = .cw w :: rest) ∧
    ∃ (s : State) (w : RbWord) (rest : List Request), s.Inv ∧ s.rbReset = true ∧ s.requests = .rb w :: rest :=
  ⟨⟨{ busy with requests := [.cw 0x1FFFFF] }, _, _, inv_of_check (by decide), rfl, rfl⟩,
   ⟨{ busy with requests := [.rb 0x3FF] }, _, _, inv_of_check (by decide), rfl, rfl⟩⟩

theorem witness_OnlyAResetRunsBeforeTheFirstReset :
    (∃ (s : State) (w : CwWord) (rest : List Request), s.coreReset = false ∧ s.requests = .cw w :: rest ∧ (cwFields w).rst = false) ∧
    (∃ (s : State) (w : CwWord) (rest : List Request), s.coreReset = false ∧ s.requests = .cw w :: rest ∧ (cwFields w).rst = true) ∧
    (∃ (s : State) (w : RbWord) (rest : List Request), s.rbReset = false ∧ s.requests = .rb w :: rest ∧ (rbFields w).rst = false) ∧
    (∃ (s : State) (w : RbWord) (rest : List Request), s.rbReset = false ∧ s.requests = .rb w :: rest ∧ (rbFields w).rst = true) ∧
    (∃ (s : State) (rest : List Request), s.coreReset = false ∧ s.requests = .invoke :: rest) ∧
    (∃ (s : State) (a : Agent) (i : Instr) (rest : List Request), s.coreReset = false ∧ s.requests = .call a i :: rest ∧
      mayPerform a i = true ∧ i ≠ .coreInit) ∧
    ∃ (s : State) (a : Agent) (i : Instr) (rest : List Request), s.coreReset = false ∧ s.requests = .call a i :: rest ∧
      mayPerform a i = true ∧ i = .coreInit :=
  ⟨⟨{ unreset with requests := [.cw 0x1FFFFF] }, _, _, rfl, rfl, by decide⟩,
   ⟨{ unreset with requests := [.cw 0x200000] }, _, _, rfl, rfl, by decide⟩,
   ⟨{ unreset with requests := [.rb 0x3FF] }, _, _, rfl, rfl, by decide⟩,
   ⟨{ unreset with requests := [.rb 0x400] }, _, _, rfl, rfl, by decide⟩,
   ⟨{ unreset with requests := [.invoke] }, _, rfl, rfl⟩,
   ⟨{ unreset with requests := [.call .int .dispatch] }, _, _, _, rfl, rfl, by decide, by decide⟩,
   ⟨{ unreset with requests := [.call .platform .coreInit] }, _, _, _, rfl, rfl, by decide, rfl⟩⟩

theorem witness_IllFormedBuffersAreRefused :
    (∃ (s : State) (i : Instr), s.coreReset = true ∧ (s.tx.shapeOk && s.rx.shapeOk) = false ∧ i.format ≠ .rb ∧ i ≠ .coreInit) ∧
    ∃ (s : State) (i : Instr), s.rbReset = true ∧ s.rb.shapeOk = false ∧ i.format = .rb ∧ i ≠ .init :=
  ⟨⟨coreSt (buf4 4 0 []) none4 false false false 0, .dispatch, rfl, by decide, by decide, by decide⟩,
   ⟨rbSt ⟨1, [], 0, 0⟩, .isEmpty, rfl, by decide, by decide, by decide⟩⟩

theorem witness_IsEmptyAndIsFullResults : ∃ s : State, s.RbReady := ⟨rbSt full4, rfl, by decide⟩

theorem witness_TryPushResult :
    (∃ s : State, s.RbReady ∧ adv s.rb.slots s.rb.writeIndex = s.rb.readIndex) ∧
    ∃ s : State, s.RbReady ∧ adv s.rb.slots s.rb.writeIndex ≠ s.rb.readIndex :=
  ⟨⟨rbSt full4, ⟨rfl, by decide⟩, by decide⟩, ⟨rbSt (buf4 3 1 []), ⟨rfl, by decide⟩, by decide⟩⟩

theorem witness_TryPopResult :
    (∃ s : State, s.RbReady ∧ s.rb.writeIndex = s.rb.readIndex) ∧
    (∃ (s : State) (v : Byte), s.RbReady ∧ s.rb.writeIndex ≠ s.rb.readIndex ∧ s.rb.mem.read s.rb.loadSlot = some v) ∧
    ∃ s : State, s.RbReady ∧ s.rb.writeIndex ≠ s.rb.readIndex ∧ s.rb.mem.read s.rb.loadSlot = none :=
  ⟨⟨rbSt none4, ⟨rfl, by decide⟩, by decide⟩, ⟨rbSt (buf4 0 3 [(3, 0x41)]), 0x41, ⟨rfl, by decide⟩, by decide, by decide⟩,
   ⟨unwrittenRb, ⟨rfl, by decide⟩, by decide, by decide⟩⟩

theorem witness_IdleWordsChangeNothing :
    (∃ (s : State) (w : CwWord) (rest : List Request), s.CoreReady ∧ s.requests = .cw w :: rest ∧
      (cwFields w).rst = false ∧ (cwFields w).ie = false ∧ (cwFields w).enqReq = false ∧
      (cwFields w).deqReq = false ∧ (cwFields w).uTxrdy = false ∧ (cwFields w).uRxbyte = false) ∧
    ∃ (s : State) (w : RbWord) (rest : List Request), s.RbReady ∧ s.requests = .rb w :: rest ∧
      (rbFields w).rst = false ∧ (rbFields w).wrEn = false ∧ (rbFields w).rdEn = false :=
  ⟨⟨{ busy with requests := [.cw 0x00FFFF] }, _, _, ⟨rfl, by decide, by decide⟩, rfl, by decide⟩,
   ⟨{ busy with requests := [.rb 0x0FF] }, _, _, ⟨rfl, by decide⟩, rfl, by decide⟩⟩

theorem witness_CountDecidesEmptyAndFull : ∃ (b : RingBuffer) (k : Nat), b.Good ∧ k < b.count :=
  ⟨wrapped4, 2, good_of_check (by decide), by decide⟩

theorem witness_FullBufferKeepsOneSlotFree : ∃ b : RingBuffer, b.Good ∧ b.full = true :=
  ⟨wrapped4, good_of_check (by decide), by decide⟩

theorem witness_PushNeverOverwritesALiveElement : (∃ b : RingBuffer, b.Good ∧ b.full = true) ∧
    ∃ (b : RingBuffer) (i : Nat),
    b.Good ∧ b.full = false ∧ i ∈ b.liveSlots :=
  ⟨⟨wrapped4, good_of_check (by decide), by decide⟩, buf4 3 1 [(1, 0x42), (2, 0x43)], 2, good_of_check (by decide), by decide, by decide⟩

theorem witness_QueueLaw :
    (∃ (b : RingBuffer) (v : Byte), b.Good ∧ (b.tryPush v).2 = true) ∧
    (∃ (b : RingBuffer) (v : Byte), b.Good ∧ (b.tryPush v).2 = false) ∧
    ∃ (b : RingBuffer) (s t u : State), b.Good ∧ s.rb = b ∧ exec .isEmpty s = .next t ∧ exec .isFull s = .next u :=
  ⟨⟨one4, 1, good_of_check (by decide), by decide⟩, ⟨full4, 1, good_of_check (by decide), by decide⟩,
   ⟨one4, rbSt one4, _, _, good_of_check (by decide), rfl, rfl, rfl⟩⟩

theorem witness_FifoUnderEveryInterleaving : ∃ b : RingBuffer, b.Good := ⟨wrapped4, good_of_check (by decide)⟩

theorem witness_CapacityIsSlotsMinusOne : ∃ b : RingBuffer, b.Good ∧ b.empty = true :=
  ⟨buf4 2 2 [], good_of_check (by decide), by decide⟩

theorem witness_RoundTripReturnsTheBytesPushed : ∃ (b : RingBuffer) (vs : List Byte),
    b.Good ∧ b.empty = true ∧ vs.length = b.slots - 1 ∧ b.writeIndex = 0 :=
  ⟨none4, [1, 2, 3], good_of_check (by decide), by decide, rfl, rfl⟩

theorem witness_PopThenPushInOneCycle :
    (∃ (s : State) (w : RbWord) (rest : List Request), s.Inv ∧ s.rbReset = true ∧ s.requests = .rb w :: rest ∧
      (rbFields w).rst = false ∧ (rbFields w).wrEn = true ∧ (rbFields w).rdEn = true ∧ s.rb.full = true) ∧
    ∃ (s : State) (w : RbWord) (rest : List Request), s.Inv ∧ s.rbReset = true ∧ s.requests = .rb w :: rest ∧
      (rbFields w).rst = false ∧ (rbFields w).wrEn = true ∧ (rbFields w).rdEn = true ∧ s.rb.empty = true :=
  ⟨⟨{ rbSt full4 with requests := [.rb 0x3A4] }, _, _, inv_of_check (by decide), rfl, rfl, by decide⟩,
   ⟨{ rbSt none4 with requests := [.rb 0x3A4] }, _, _, inv_of_check (by decide), rfl, rfl, by decide⟩⟩

theorem witness_EnqueueResult :
    (∃ s : State, s.CoreReady ∧ adv s.tx.slots s.tx.writeIndex = s.tx.readIndex) ∧
    (∃ s : State, s.CoreReady ∧ adv s.tx.slots s.tx.writeIndex ≠ s.tx.readIndex ∧ s.active = false) ∧
    ∃ s : State, s.CoreReady ∧ adv s.tx.slots s.tx.writeIndex ≠ s.tx.readIndex ∧ s.active = true :=
  ⟨⟨sending, sending_ready, by decide⟩, ⟨idle, idle_ready, by decide, rfl⟩, ⟨ending, ending_ready, by decide, rfl⟩⟩

theorem witness_OnTransmitReadyResult :
    (∃ s : State, s.CoreReady ∧ s.tx.writeIndex = s.tx.readIndex) ∧
    (∃ (s : State) (b : Byte), s.CoreReady ∧ s.tx.writeIndex ≠ s.tx.readIndex ∧ s.tx.mem.read s.tx.loadSlot = some b) ∧
    ∃ s : State, s.CoreReady ∧ s.tx.writeIndex ≠ s.tx.readIndex ∧ s.tx.mem.read s.tx.loadSlot = none :=
  ⟨⟨ending, ending_ready, by decide⟩, ⟨sending, 0x41, sending_ready, by decide, by decide⟩,
   ⟨unwrittenTx, ⟨rfl, by decide, by decide⟩, by decide, by decide⟩⟩

theorem witness_EnqueueStringCountsItsRejections :
    (∃ (s : State) (bs : List Byte), s.Inv ∧ s.coreReset = true ∧ bs = []) ∧
    ∃ (s : State) (ps : List (Byte × List Instr)), s.Inv ∧ s.coreReset = true ∧ ps ≠ [] ∧
      ∀ p ∈ ps, ∀ i ∈ p.2, mayInterrupt i = true :=
  ⟨⟨idle, [], idle_inv, rfl, rfl⟩, ⟨busy, [(0x48, [.dispatch, .uTxrdy])], busy_inv, rfl, by decide, by decide⟩⟩

theorem witness_EnqueueStringWordsDoTheSame :
    (∃ s : State, s.Inv ∧ s.coreReset = true) ∧
    ∃ (s : State) (ps : List StringByte), s.Inv ∧ s.coreReset = true ∧ ps ≠ [] ∧
      ∀ p ∈ ps, ∀ f ∈ p.gap, f.rst = false :=
  ⟨⟨busy, busy_inv, rfl⟩, ⟨idle, drainString, idle_inv, rfl, by decide, by decide⟩⟩

theorem witness_DequeueResult :
    (∃ s : State, s.CoreReady ∧ s.rx.writeIndex = s.rx.readIndex) ∧
    (∃ (s : State) (b : Byte), s.CoreReady ∧ s.rx.writeIndex ≠ s.rx.readIndex ∧ s.rx.mem.read s.rx.loadSlot = some b) ∧
    ∃ s : State, s.CoreReady ∧ s.rx.writeIndex ≠ s.rx.readIndex ∧ s.rx.mem.read s.rx.loadSlot = none :=
  ⟨⟨idle, idle_ready, by decide⟩, ⟨busy, 0x41, busy_ready, by decide, by decide⟩,
   ⟨unwrittenRx, ⟨rfl, by decide, by decide⟩, by decide, by decide⟩⟩

theorem witness_OnByteReceivedResult :
    (∃ s : State, s.CoreReady ∧ s.rxdataWritten = false) ∧
    (∃ s : State, s.CoreReady ∧ s.rxdataWritten = true ∧ adv s.rx.slots s.rx.writeIndex = s.rx.readIndex) ∧
    ∃ s : State, s.CoreReady ∧ s.rxdataWritten = true ∧ adv s.rx.slots s.rx.writeIndex ≠ s.rx.readIndex :=
  ⟨⟨unreceived, ⟨rfl, by decide, by decide⟩, rfl⟩, ⟨overflowing, overflowing_ready, rfl, by decide⟩,
   ⟨receiving, receiving_ready, rfl, by decide⟩⟩

theorem witness_DispatchTransmitBranchResult :
    (∃ s : State, s.CoreReady ∧ s.txr = false ∧ s.rxf = false) ∧
    (∃ s : State, s.CoreReady ∧ s.txr = true ∧ s.tx.writeIndex = s.tx.readIndex) ∧
    (∃ (s : State) (b : Byte), s.CoreReady ∧ s.txr = true ∧ s.tx.writeIndex ≠ s.tx.readIndex ∧ s.tx.mem.read s.tx.loadSlot = some b) ∧
    ∃ s : State, s.CoreReady ∧ s.txr = true ∧ s.tx.writeIndex ≠ s.tx.readIndex ∧ s.tx.mem.read s.tx.loadSlot = none :=
  ⟨⟨idle, idle_ready, rfl, rfl⟩, ⟨ending, ending_ready, rfl, by decide⟩, ⟨busy, 0x41, busy_ready, rfl, by decide, by decide⟩,
   ⟨unwrittenTx, ⟨rfl, by decide, by decide⟩, rfl, by decide, by decide⟩⟩

theorem witness_DispatchReceiveBranchResult :
    (∃ s : State, s.CoreReady ∧ s.txr = false ∧ s.rxf = true ∧ s.rxdataWritten = false) ∧
    (∃ s : State, s.CoreReady ∧ s.txr = false ∧ s.rxf = true ∧ s.rxdataWritten = true ∧
      adv s.rx.slots s.rx.writeIndex = s.rx.readIndex) ∧
    ∃ s : State, s.CoreReady ∧ s.txr = false ∧ s.rxf = true ∧ s.rxdataWritten = true ∧
      adv s.rx.slots s.rx.writeIndex ≠ s.rx.readIndex :=
  ⟨⟨{ unreceived with rxf := true }, ⟨rfl, by decide, by decide⟩, rfl, rfl, rfl⟩,
   ⟨overflowing, overflowing_ready, rfl, rfl, rfl, by decide⟩, ⟨receiving, receiving_ready, rfl, rfl, rfl, by decide⟩⟩

theorem witness_InvocationWithNeitherFlagSet :
    (∃ (s : State) (r : Request) (rest : List Request), r = .invoke ∧ s.CoreReady ∧ s.requests = r :: rest ∧
      s.txr = false ∧ s.rxf = false ∧ s.rxdataWritten = false) ∧
    (∃ (s : State) (r : Request) (rest : List Request), r = .call .int .dispatch ∧ s.CoreReady ∧ s.requests = r :: rest ∧
      s.txr = false ∧ s.rxf = false ∧ s.rxdataWritten = true ∧ s.rx.full = true) ∧
    ∃ (s : State) (r : Request) (rest : List Request), r = .call .int .dispatch ∧ s.CoreReady ∧ s.requests = r :: rest ∧
      s.txr = false ∧ s.rxf = false ∧ s.rxdataWritten = true ∧ s.rx.full = false :=
  ⟨⟨{ unreceived with requests := [.invoke] }, _, _, rfl, ⟨rfl, by decide, by decide⟩, rfl, rfl, rfl, rfl⟩,
   ⟨{ idle with rx := full4, requests := [.call .int .dispatch] }, _, _, rfl, ⟨rfl, by decide, by decide⟩, rfl, rfl, rfl, rfl,
     by decide⟩,
   ⟨{ idle with requests := [.call .int .dispatch] }, _, _, rfl, ⟨rfl, by decide, by decide⟩, rfl, rfl, rfl, rfl, by decide⟩⟩

theorem witness_BothFlagsAreServedTransmitFirst :
    (∃ (s : State) (w v : CwWord), s.Inv ∧ s.coreReset = true ∧ s.txr = true ∧ s.rxf = true ∧
      w = assembleCw [.ie] ∧ v = assembleCw [.ie] ∧ s.rx.full = true) ∧
    ∃ (s : State) (w v : CwWord), s.Inv ∧ s.coreReset = true ∧ s.txr = true ∧ s.rxf = true ∧
      w = assembleCw [.ie] ∧ v = assembleCw [.ie] ∧ s.rx.full = false :=
  ⟨⟨busy, _, _, busy_inv, rfl, rfl, rfl, rfl, rfl, by decide⟩,
   ⟨{ busy with rx := one4 }, _, _, inv_of_check (by decide), rfl, rfl, rfl, rfl, rfl, by decide⟩⟩

theorem witness_UartEventResults : ∃ s : State, s.CoreReady := ⟨busy, busy_ready⟩

theorem witness_CycleIsTheFixedSequence : ∃ (s : State) (w : CwWord), s.CoreReady ∧ (cwFields w).rst = false :=
  ⟨busy, 0x1FFFFF, busy_ready, by decide⟩

theorem witness_SetWinsOverClear :
    (∃ (s : State) (w : CwWord), s.Inv ∧ s.coreReset = true ∧ (cwFields w).rst = false ∧ (cwFields w).uTxrdy = true ∧
      (cwFields w).uRxbyte = true ∧ (cwFields w).enqReq = true ∧ s.active = false) ∧
    ∃ (s : State) (w : CwWord), s.Inv ∧ s.coreReset = true ∧ (cwFields w).rst = false ∧
      (cwFields w).enqReq = true ∧ (cwFields w).ie = true ∧ s.txr = true ∧ s.tx.empty = true :=
  ⟨⟨idle, 0x1F4255, idle_inv, rfl, by decide⟩, ⟨ending, 0x184200, ending_inv, rfl, by decide⟩⟩

theorem witness_ResetOverridesTheOtherFields :
    (∃ (s : State) (w : CwWord) (rest : List Request), s.requests = .cw w :: rest ∧ (cwFields w).rst = true) ∧
    ∃ (s : State) (w : RbWord) (rest : List Request), s.requests = .rb w :: rest ∧ (rbFields w).rst = true :=
  ⟨⟨{ busy with requests := [.cw 0x3FFFFF] }, _, _, rfl, by decide⟩, ⟨{ busy with requests := [.rb 0x7FF] }, _, _, rfl, by decide⟩⟩

theorem witness_StatusOutputsShowTheStartOfTheCycle :
    (∃ (s t : State) (w : CwWord), s.coreReset = true ∧ cwCycle w s = .next t) ∧
    ∃ (s t : State) (w : RbWord), s.rbReset = true ∧ rbCycle w s = .next t :=
  ⟨⟨busy, _, 0x1FFFFF, rfl, rfl⟩, ⟨rbSt full4, _, 0x3FF, rfl, rfl⟩⟩

theorem witness_DeqValidAgreesWithRxEmpty : ∃ (s : State) (w : CwWord),
    s.Inv ∧ s.coreReset = true ∧ (cwFields w).rst = false ∧ (cwFields w).deqReq = true :=
  ⟨busy, 0x040000, busy_inv, rfl, by decide⟩

theorem witness_AtMostOneEventPerCycle : ∃ s : State, s.Inv ∧ s.coreReset = true ∧ s.txr = true ∧ s.rxf = true :=
  ⟨busy, busy_inv, rfl, rfl, rfl⟩

theorem witness_TransmitTraceIsTheAcceptedBytes : ∃ (ws : List CwWord) (s : State),
    s.Inv ∧ s.coreReset = true ∧ ∀ w ∈ ws, (cwFields w).rst = false :=
  ⟨[0x184200, 0x1FFFFF], busy, busy_inv, rfl,
    List.forall_mem_cons.2 ⟨by decide, List.forall_mem_cons.2 ⟨by decide, fun _ h => absurd h List.not_mem_nil⟩⟩⟩

theorem witness_ReceivedBytesAreReturnedInOrder : ∃ (ws : List CwWord) (s : State),
    s.Inv ∧ s.coreReset = true ∧ ∀ w ∈ ws, (cwFields w).rst = false :=
  ⟨[0x140000, 0x1FFFFF], overflowing, overflowing_inv, rfl,
    List.forall_mem_cons.2 ⟨by decide, List.forall_mem_cons.2 ⟨by decide, fun _ h => absurd h List.not_mem_nil⟩⟩⟩

theorem witness_TransmitPathDrainsToIdle : ∃ (s : State) (ws : List CwWord),
    s.Inv ∧ s.coreReset = true ∧ ws.length = s.tx.count + 2 ∧ s.tx.full = true ∧
    ∀ w ∈ ws, (cwFields w).rst = false ∧ (cwFields w).ie = true ∧ (cwFields w).uTxrdy = true ∧
      (cwFields w).enqReq = false :=
  ⟨sending, List.replicate 5 0x17AA55, sending_inv, rfl, by decide, by decide,
    fun w h => by rw [List.eq_of_mem_replicate h]; decide⟩

theorem witness_EnqueuedByteIsSentInTheNextCycle : ∃ (s : State) (w v : CwWord),
    s.Inv ∧ s.coreReset = true ∧ s.active = false ∧ (cwFields w).rst = false ∧ (cwFields w).enqReq = true ∧
    (cwFields v).rst = false ∧ (cwFields v).ie = true :=
  ⟨idle, 0x1FFFFF, 0x1FFFFF, idle_inv, rfl, rfl, by decide⟩

theorem witness_ReceivedByteIsReturnedTwoCyclesLater : ∃ (s : State) (w v u : CwWord),
    s.Inv ∧ s.coreReset = true ∧ s.txr = false ∧ s.rxf = false ∧ s.rx.empty = true ∧
    (cwFields w).rst = false ∧ (cwFields w).uRxbyte = true ∧ (cwFields w).enqReq = false ∧ (cwFields w).uTxrdy = false ∧
    (cwFields v).rst = false ∧ (cwFields v).ie = true ∧ (cwFields u).rst = false ∧ (cwFields u).deqReq = true :=
  ⟨idle, 0x150055, 0x1FFFFF, 0x1FFFFF, idle_inv, rfl, rfl, rfl, by decide⟩

theorem witness_EachIndexHasOneWriter :
    (∃ s t : State, exec (.enqueue 1) s = .next t ∧ t.tx.writeIndex ≠ s.tx.writeIndex) ∧
    (∃ s t : State, exec .dispatch s = .next t ∧ t.tx.readIndex ≠ s.tx.readIndex) ∧
    (∃ s t : State, exec .onByteReceived s = .next t ∧ t.rx.writeIndex ≠ s.rx.writeIndex) ∧
    (∃ s t : State, exec .dequeue s = .next t ∧ t.rx.readIndex ≠ s.rx.readIndex) ∧
    (∃ s t : State, exec (.tryPush 1) s = .next t ∧ t.rb.writeIndex ≠ s.rb.writeIndex) ∧
    ∃ s t : State, exec .tryPop s = .next t ∧ t.rb.readIndex ≠ s.rb.readIndex :=
  ⟨⟨idle, _, rfl, by decide⟩, ⟨busy, _, rfl, by decide⟩, ⟨receiving, _, rfl, by decide⟩, ⟨busy, _, rfl, by decide⟩,
   ⟨rbSt one4, _, rfl, by decide⟩, ⟨rbSt one4, _, rfl, by decide⟩⟩

theorem witness_ActiveHasItsTwoWriters :
    (∃ s t : State, exec (.enqueue 1) s = .next t ∧ s.active = false ∧ t.active = true) ∧
    ∃ s t : State, exec .dispatch s = .next t ∧ s.active = true ∧ t.active = false :=
  ⟨⟨idle, _, rfl, rfl, rfl⟩, ⟨ending, _, rfl, rfl, rfl⟩⟩

theorem witness_BoundaryRegistersHaveTheirWriters :
    (∃ s t : State, exec .uTxrdy s = .next t ∧ s.txr = false ∧ t.txr = true) ∧
    (∃ s t : State, exec .dispatch s = .next t ∧ s.txr = true ∧ t.txr = false) ∧
    (∃ s t : State, exec (.uRxbyte 1) s = .next t ∧ s.rxf = false ∧ t.rxf = true ∧ t.rxdata ≠ s.rxdata) ∧
    (∃ s t : State, exec .dispatch s = .next t ∧ s.rxf = true ∧ t.rxf = false) ∧
    ∃ s t : State, exec .onTransmitReady s = .next t ∧ t.txdata ≠ s.txdata :=
  ⟨⟨idle, _, rfl, rfl, rfl⟩, ⟨busy, _, rfl, rfl, rfl⟩, ⟨idle, _, rfl, rfl, rfl, by decide⟩, ⟨receiving, _, rfl, rfl, rfl⟩,
   ⟨busy, _, rfl, by decide⟩⟩

theorem witness_SlotCountsNeverChange : ∃ s t : State, step s = .next t :=
  ⟨{ busy with requests := [.call .main .dequeue] }, _, rfl⟩

theorem witness_TheBlocksDoNotInterfere :
    (∃ (i : Instr) (s t : State), exec i s = .next t ∧ i.format = .rb) ∧
    (∃ s t : State, exec .dequeue s = .next t) ∧ ∃ s t : State, exec .onTransmitReady s = .next t :=
  ⟨⟨.tryPop, rbSt one4, _, rfl, rfl⟩, ⟨busy, _, rfl⟩, ⟨busy, _, rfl⟩⟩

theorem witness_SplitEnqueueNeverStrandsAByte : ∃ (s : State) (gaps : List (List Instr)),
    s.Inv ∧ s.coreReset = true ∧ gaps.length = 6 ∧ ∀ g ∈ gaps, ∀ i ∈ g, mayInterrupt i = true :=
  ⟨ending, [[.uTxrdy], [.dispatch], [.uRxbyte 1, .dispatch], [.dispatch], [], [.dispatch]], ending_inv, rfl, rfl, by decide⟩

theorem witness_ReadingActiveFirstStrandsAByte : ∃ s : State,
    s.Inv ∧ s.coreReset = true ∧ s.active = true ∧ s.txr = true ∧ s.tx.empty = true :=
  ⟨ending, ending_inv, rfl, rfl, rfl, by decide⟩

theorem witness_EventBetweenWriteAndClearIsLost : ∃ (s : State) (ws : List CwWord),
    s.Inv ∧ s.coreReset = true ∧ s.txr = true ∧ 2 ≤ s.tx.count ∧
    ∀ w ∈ ws, (cwFields w).rst = false ∧ (cwFields w).uTxrdy = false :=
  ⟨{ sending with txr := true }, [0x100000, 0x1D4200], inv_of_check (by decide), rfl, rfl, by decide,
    List.forall_mem_cons.2 ⟨by decide, List.forall_mem_cons.2 ⟨by decide, fun _ h => absurd h List.not_mem_nil⟩⟩⟩

theorem witness_DecodeOfEncodeIsTheOperation : ∃ i : Instr, i.alwaysOn = false := ⟨.enqueue 0xFF, by decide⟩

theorem witness_NoWordIsIllegal : ∃ (f : CwFields) (g : RbFields), f.enqReq = false ∧ f.uRxbyte = false ∧ g.wrEn = false :=
  ⟨⟨false, true, false, true, true, false, 1, 2⟩, ⟨false, false, true, 3⟩, by decide⟩

theorem witness_StepRunsTheDecodedOperations :
    (∃ (s : State) (w : CwWord) (rest : List Request), s.requests = .cw w :: rest) ∧
    (∃ (s : State) (w : RbWord) (rest : List Request), s.requests = .rb w :: rest) ∧
    ∃ (s : State) (rest : List Request), s.requests = .invoke :: rest :=
  ⟨⟨{ busy with requests := [.cw 0x1FFFFF] }, _, _, rfl⟩, ⟨{ busy with requests := [.rb 0x3FF] }, _, _, rfl⟩,
   ⟨{ busy with requests := [.invoke] }, _, rfl⟩⟩

theorem witness_MnemonicOrderHasNoMeaning :
    List.Perm [CwMnemonic.ie, .enq 0x48] [.enq 0x48, .ie] ∧ List.Perm [RbMnemonic.pop, .push 5] [.push 5, .pop] :=
  ⟨List.Perm.swap _ _ _, List.Perm.swap _ _ _⟩

theorem witness_AgentsPerformOnlyTheirOperations :
    (∃ (s : State) (a : Agent) (i : Instr) (rest : List Request), s.requests = .call a i :: rest ∧ mayPerform a i = true ∧ i ≠ .dispatch) ∧
    (∃ (s : State) (a : Agent) (i : Instr) (rest : List Request), s.requests = .call a i :: rest ∧ mayPerform a i = true ∧ i = .dispatch) ∧
    ∃ (s : State) (a : Agent) (i : Instr) (rest : List Request), s.requests = .call a i :: rest ∧ mayPerform a i = false :=
  ⟨⟨{ busy with requests := [.call .main .dequeue] }, _, _, _, rfl, by decide, by decide⟩,
   ⟨{ busy with requests := [.call .int .dispatch] }, _, _, _, rfl, by decide, rfl⟩,
   ⟨{ busy with requests := [.call .uart .dequeue] }, _, _, _, rfl, by decide⟩⟩

end Sys2Proof.Tests
end

section
/-! The statements about the state (10_state.md): the count and the full buffer (R15, R17), and the writers of the
indices (R18). -/

namespace Sys2Proof.Machine

/-! ### The conditions of a buffer, in its count (R14, R15, R17) -/

theorem RingBuffer.empty_iff {b : RingBuffer} : b.empty = true ↔ b.writeIndex = b.readIndex := beq_iff_eq

theorem RingBuffer.full_iff {b : RingBuffer} : b.full = true ↔ adv b.slots b.writeIndex = b.readIndex := beq_iff_eq

theorem RingBuffer.count_lt {b : RingBuffer} (h : b.shapeOk = true) : b.count < b.slots := by
  obtain ⟨hn, _, _⟩ := RingBuffer.shapeOk_iff.1 h
  exact Nat.mod_lt _ (by omega)

theorem RingBuffer.empty_iff_count {b : RingBuffer} (h : b.shapeOk = true) : b.empty = true ↔ b.count = 0 := by
  obtain ⟨_, _, hr⟩ := RingBuffer.shapeOk_iff.1 h
  rw [RingBuffer.empty_iff, RingBuffer.count_eq h]
  split <;> omega

theorem RingBuffer.full_iff_count {b : RingBuffer} (h : b.shapeOk = true) :
    b.full = true ↔ b.count = b.slots - 1 := by
  obtain ⟨_, hw, hr⟩ := RingBuffer.shapeOk_iff.1 h
  rw [RingBuffer.full_iff, RingBuffer.count_eq h, adv]
  split_ifs <;> omega

/-! ### The contents, element by element (R17) -/

theorem RingBuffer.liveSlots_getElem? {b : RingBuffer} {k : Nat} (h : b.shapeOk = true) (hk : k < b.count) :
    b.liveSlots[k]? = some ((b.readIndex + k) % b.slots) := by
  obtain ⟨_, _, hr⟩ := RingBuffer.shapeOk_iff.1 h
  simp [RingBuffer.liveSlots, slotsFrom_eq_map _ hr, List.getElem?_range hk]

/-- Reading a list of written slots skips none of them. -/
theorem filterMap_read_getElem? {m : Memory} {l : List Nat} (h : ∀ i ∈ l, (m.read i).isSome) (k : Nat) :
    (l.filterMap fun i => m.read i)[k]? = l[k]?.bind fun i => m.read i := by
  induction l generalizing k with
  | nil => rfl
  | cons a l ih =>
    obtain ⟨v, hv⟩ := Option.isSome_iff_exists.1 (h a List.mem_cons_self)
    rw [List.filterMap_cons_some hv]
    cases k with
    | zero => exact hv.symm
    | succ k => exact ih (fun i hi => h i (List.mem_cons_of_mem a hi)) k

theorem contents_length {b : RingBuffer} (h : b.Good) : b.contents.length = b.count :=
  (filterMap_read_length h.live).trans (slotsFrom_length _ _ _)

theorem contents_getElem? {b : RingBuffer} {k : Nat} (h : b.Good) (hk : k < b.count) :
    b.contents[k]? = b.mem.read ((b.readIndex + k) % b.slots) := by
  rw [RingBuffer.contents, filterMap_read_getElem? h.live, RingBuffer.liveSlots_getElem? h.shape hk]
  rfl

/-! ### What an operation can do to the buffers (R18) -/

/-- What the operation that led from `s` to `t` did to the three buffers: nothing, or the one thing it is for. -/
inductive BufferStep (s t : State) : Instr → Prop where
  | kept {i : Instr} (tx : t.tx = s.tx) (rx : t.rx = s.rx) (rb : t.rb = s.rb) : BufferStep s t i
  | coreInit (tx : t.tx = s.tx.init) (rx : t.rx = s.rx.init) (rb : t.rb = s.rb) : BufferStep s t .coreInit
  | txPush (b : Byte) (tx : t.tx = s.tx.store b) (rx : t.rx = s.rx) (rb : t.rb = s.rb) : BufferStep s t (.enqueue b)
  | txPop {i : Instr} (op : i = .dispatch ∨ i = .onTransmitReady)
      (tx : t.tx = s.tx.drop) (rx : t.rx = s.rx) (rb : t.rb = s.rb) : BufferStep s t i
  | rxPush {i : Instr} (op : i = .dispatch ∨ i = .onByteReceived)
      (tx : t.tx = s.tx) (rx : t.rx = s.rx.store s.rxdata) (rb : t.rb = s.rb) : BufferStep s t i
  | rxPop (tx : t.tx = s.tx) (rx : t.rx = s.rx.drop) (rb : t.rb = s.rb) : BufferStep s t .dequeue
  | rbInit (tx : t.tx = s.tx) (rx : t.rx = s.rx) (rb : t.rb = s.rb.init) : BufferStep s t .init
  | rbPush (v : Byte) (tx : t.tx = s.tx) (rx : t.rx = s.rx) (rb : t.rb = s.rb.store v) : BufferStep s t (.tryPush v)
  | rbPop (tx : t.tx = s.tx) (rx : t.rx = s.rx) (rb : t.rb = s.rb.drop) : BufferStep s t .tryPop

/-- An operation that answers did one of these things. -/
theorem exec_bufferStep {i : Instr} {s t : State} (h : exec i s = .next t) : BufferStep s t i := by
  cases i with
  | init => cases init_next h; exact .rbInit rfl rfl rfl
  | isEmpty => obtain ⟨_, rfl⟩ := isEmpty_next h; exact .kept rfl rfl rfl
  | isFull => obtain ⟨_, rfl⟩ := isFull_next h; exact .kept rfl rfl rfl
  | tryPush v =>
    rcases tryPush_next h with ⟨_, ⟨_, rfl⟩ | ⟨_, rfl⟩⟩
    · exact .kept rfl rfl rfl
    · exact .rbPush v rfl rfl rfl
  | tryPop =>
    rcases tryPop_next h with ⟨_, ⟨_, rfl⟩ | ⟨_, _, _, rfl⟩⟩
    · exact .kept rfl rfl rfl
    · exact .rbPop rfl rfl rfl
  | rbNop => obtain ⟨_, rfl⟩ := rbNop_next h; exact .kept rfl rfl rfl
  | coreInit => cases coreInit_next h; exact .coreInit rfl rfl rfl
  | dispatch =>
    rcases dispatch_next h with
      ⟨_, ⟨_, _, rfl⟩ | ⟨_, _, rfl⟩ | ⟨_, _, _, _, rfl⟩ | ⟨_, _, _, _, rfl⟩ | ⟨_, _, _, _, rfl⟩⟩
    · exact .kept rfl rfl rfl
    · exact .kept rfl rfl rfl
    · exact .txPop (.inl rfl) rfl rfl rfl
    · exact .kept rfl rfl rfl
    · exact .rxPush (.inl rfl) rfl rfl rfl
  | enqueue b =>
    rcases enqueue_next h with ⟨_, ⟨_, rfl⟩ | ⟨_, _, rfl⟩ | ⟨_, _, rfl⟩⟩
    · exact .kept rfl rfl rfl
    · exact .txPush b rfl rfl rfl
    · exact .txPush b rfl rfl rfl
  | dequeue =>
    rcases dequeue_next h with ⟨_, ⟨_, rfl⟩ | ⟨_, _, _, rfl⟩⟩
    · exact .kept rfl rfl rfl
    · exact .rxPop rfl rfl rfl
  | uTxrdy => obtain ⟨_, rfl⟩ := uTxrdy_next h; exact .kept rfl rfl rfl
  | uRxbyte b => obtain ⟨_, rfl⟩ := uRxbyte_next h; exact .kept rfl rfl rfl
  | nop => obtain ⟨_, rfl⟩ := nop_next h; exact .kept rfl rfl rfl
  | onTransmitReady =>
    rcases onTransmitReady_next h with ⟨_, ⟨_, rfl⟩ | ⟨_, _, _, rfl⟩⟩
    · exact .kept rfl rfl rfl
    · exact .txPop (.inr rfl) rfl rfl rfl
  | onByteReceived =>
    rcases onByteReceived_next h with ⟨_, _, ⟨_, rfl⟩ | ⟨_, rfl⟩⟩
    · exact .kept rfl rfl rfl
    · exact .rxPush (.inr rfl) rfl rfl rfl

/-! ### The agent of each operation that moves an index of CORE (R131) -/

theorem mayPerform_enqueue (b : Byte) : mayPerform .main (.enqueue b) = true := rfl

theorem mayPerform_dequeue : mayPerform .main .dequeue = true := rfl

theorem mayPerform_transmit {i : Instr} (h : i = .dispatch ∨ i = .onTransmitReady) : mayPerform .int i = true := by
  rcases h with rfl | rfl <;> rfl

theorem mayPerform_receive {i : Instr} (h : i = .dispatch ∨ i = .onByteReceived) : mayPerform .int i = true := by
  rcases h with rfl | rfl <;> rfl

/-! ### The statements -/

/-- Settles O13: the shape gives the count's range and distance, the written live slots give the contents. -/
theorem countDecidesEmptyAndFull : Obligations.CountDecidesEmptyAndFull := fun _ h =>
  ⟨RingBuffer.count_lt h.shape, RingBuffer.add_count_mod h.shape, RingBuffer.empty_iff_count h.shape,
    RingBuffer.full_iff_count h.shape, contents_length h, fun _ hk => contents_getElem? h hk⟩

/-- Settles O14: the slot a push would store to is never live, and a full buffer's count is `N - 1`. -/
theorem fullBufferKeepsOneSlotFree : Obligations.FullBufferKeepsOneSlotFree := by
  intro b h
  refine ⟨fun ⟨he, hf⟩ => ?_, RingBuffer.full_iff, fun hf => ⟨?_, RingBuffer.not_live_of_shape h.shape⟩⟩
  · exact Bool.false_ne_true ((empty_of_full h hf).symm.trans he)
  · exact (contents_length h).trans ((RingBuffer.full_iff_count h.shape).1 hf)

/-- Settles O44: each thing an operation can do to the buffers moves the index of its one writer and no other. -/
theorem eachIndexHasOneWriter : Obligations.EachIndexHasOneWriter := by
  intro i s t h
  cases exec_bufferStep h with
  | kept tx rx rb => simp [tx, rx, rb]
  | coreInit tx rx rb => simp [rb]
  | txPush b tx rx rb => simp [tx, rx, rb, mayPerform_enqueue]
  | txPop op tx rx rb => simp [tx, rx, rb, op, mayPerform_transmit op]
  | rxPush op tx rx rb => simp [tx, rx, rb, op, mayPerform_receive op]
  | rxPop tx rx rb => simp [tx, rx, rb, mayPerform_dequeue]
  | rbInit tx rx rb => simp [tx, rx]
  | rbPush v tx rx rb => simp [tx, rx, rb]
  | rbPop tx rx rb => simp [tx, rx, rb]

end Sys2Proof.Machine
end

section
/-! The statement about the memory (20_memory.md): a store goes to no live slot (R37). -/

namespace Sys2Proof.Machine

theorem RingBuffer.tryPush_of_full {b : RingBuffer} (v : Byte) (hf : b.full = true) : b.tryPush v = (b, false) :=
  if_pos hf

theorem RingBuffer.tryPush_of_not_full {b : RingBuffer} (v : Byte) (hf : b.full = false) :
    b.tryPush v = (b.store v, true) :=
  if_neg (Bool.eq_false_iff.1 hf)

theorem RingBuffer.store_read_storeSlot (b : RingBuffer) (v : Byte) : (b.store v).mem.read b.storeSlot = some v :=
  Memory.read_write_same _ _ _

/-- A live slot is not the slot stored to, so the store leaves it as it is. -/
theorem RingBuffer.store_read_live {b : RingBuffer} {i : Nat} (v : Byte) (h : b.shapeOk = true) (hi : i ∈ b.liveSlots) :
    (b.store v).mem.read i = b.mem.read i :=
  Memory.read_write_other _ _ (ne_of_mem_of_not_mem hi (RingBuffer.not_live_of_shape h))

/-- Settles O15: a full buffer rejects the byte, and the slot an accepted byte goes to is never live. -/
theorem pushNeverOverwritesALiveElement : Obligations.PushNeverOverwritesALiveElement := by
  intro b v h
  refine ⟨RingBuffer.tryPush_of_full v, fun hf => ?_⟩
  rw [RingBuffer.tryPush_of_not_full v hf]
  exact ⟨RingBuffer.not_live_of_shape h.shape, RingBuffer.store_read_storeSlot b v,
    fun _ hi => RingBuffer.store_read_live v h.shape hi⟩

end Sys2Proof.Machine
end

section
/-! The statements about the encoding (30_encoding.md): the idle words (R57) and the reset word (R50). -/

namespace Sys2Proof

/-! ### Bundle decoding, row by row (R49) -/

theorem selectRows_eq_flatMap {n : Nat} (table : List (Row n)) (w : BitVec n) :
    selectRows table w = table.flatMap fun r => if r.selects w then [r.instr w] else [] := by
  induction table with
  | nil => rfl
  | cons r table ih =>
    rw [List.flatMap_cons, ← ih]
    cases hr : r.selects w <;> simp [selectRows, hr]

theorem decodeCw_rows (w : CwWord) : decodeCw w =
    (if (cwFields w).rst then [.coreInit] else []) ++
    ((if !(cwFields w).rst && (cwFields w).deqReq then [.dequeue] else []) ++
    ((if !(cwFields w).rst && (cwFields w).ie then [.dispatch] else []) ++
    ((if !(cwFields w).rst && (cwFields w).enqReq then [.enqueue (cwFields w).enqData] else []) ++
    ((if !(cwFields w).rst && (cwFields w).uTxrdy then [.uTxrdy] else []) ++
    ((if !(cwFields w).rst && (cwFields w).uRxbyte then [.uRxbyte (cwFields w).uRxdata] else []) ++
    if !(cwFields w).rst && (!(cwFields w).ie && (!(cwFields w).enqReq && (!(cwFields w).deqReq &&
      (!(cwFields w).uTxrdy && !(cwFields w).uRxbyte)))) then [.nop] else []))))) := by
  simp only [decodeCw, selectRows_eq_flatMap, cwTable, List.flatMap_cons, List.flatMap_nil, List.append_nil,
    Row.selects, coreInit_row, dequeue_row, dispatch_row, enqueue_row, uTxrdy_row, uRxbyte_row, nop_row,
    enqData_field, uRxdata_field]

theorem decodeRb_rows (w : RbWord) : decodeRb w =
    (if (rbFields w).rst then [.init] else []) ++
    ((if !(rbFields w).rst then [.isEmpty] else []) ++
    ((if !(rbFields w).rst then [.isFull] else []) ++
    ((if !(rbFields w).rst && (rbFields w).rdEn then [.tryPop] else []) ++
    ((if !(rbFields w).rst && (rbFields w).wrEn then [.tryPush (rbFields w).wrData] else []) ++
    if !(rbFields w).rst && (!(rbFields w).wrEn && !(rbFields w).rdEn) then [.rbNop] else [])))) := by
  simp only [decodeRb, selectRows_eq_flatMap, rbTable, List.flatMap_cons, List.flatMap_nil, List.append_nil,
    Row.selects, init_row, observe_row, tryPop_row, tryPush_row, rbNop_row, wrData_field]

/-! ### The bundles of a reset word and of an idle word (R50, R57) -/

theorem decodeCw_of_rst {w : CwWord} (h : (cwFields w).rst = true) : decodeCw w = [.coreInit] := by
  simp [decodeCw_rows, h]

theorem decodeRb_of_rst {w : RbWord} (h : (rbFields w).rst = true) : decodeRb w = [.init] := by
  simp [decodeRb_rows, h]

theorem decodeCw_of_idle {w : CwWord} (hrst : (cwFields w).rst = false) (hie : (cwFields w).ie = false)
    (henq : (cwFields w).enqReq = false) (hdeq : (cwFields w).deqReq = false) (htx : (cwFields w).uTxrdy = false)
    (hrx : (cwFields w).uRxbyte = false) : decodeCw w = [.nop] := by
  simp [decodeCw_rows, hrst, hie, henq, hdeq, htx, hrx]

theorem decodeRb_of_idle {w : RbWord} (hrst : (rbFields w).rst = false) (hwr : (rbFields w).wrEn = false)
    (hrd : (rbFields w).rdEn = false) : decodeRb w = [.isEmpty, .isFull, .rbNop] := by
  simp [decodeRb_rows, hrst, hwr, hrd]

namespace Machine

variable {s : State} {rest : List Request}

/-! ### The step of a word -/

theorem step_cw {w : CwWord} (h : s.requests = .cw w :: rest) :
    step s = runBundle (decodeCw w) (beginCw (s.setRequests rest)) := by
  simp only [step, sample, h, serve, cwCycle]

theorem step_rb {w : RbWord} (h : s.requests = .rb w :: rest) :
    step s = runBundle (decodeRb w) (beginRb (s.setRequests rest)) := by
  simp only [step, sample, h, serve, rbCycle]

/-! ### The pins at the start of a cycle (R53, R54) -/

theorem beginCw_out_inactive (s : State) : (beginCw s).out = CoreOut.inactive (beginCw s).out.status := by
  unfold beginCw
  split_ifs <;> rfl

theorem beginRb_out_inactive (s : State) : (beginRb s).rbOut = RbOut.inactive (beginRb s).rbOut.status := by
  unfold beginRb
  split_ifs <;> rfl

/-! ### The start of a cycle keeps a block ready -/

theorem beginCw_ready (h : s.CoreReady) : (beginCw s).CoreReady := by
  rw [beginCw_of_reset h.reset]
  exact ⟨h.reset, h.tx, h.rx⟩

theorem beginRb_ready (h : s.RbReady) : (beginRb s).RbReady := by
  rw [beginRb_of_reset h.reset]
  exact ⟨h.reset, h.rb⟩

theorem beginRb_shows_status (h : s.RbReady) : (beginRb s).rbOut.status = (beginRb s).rbStatus := by
  rw [beginRb_of_reset h.reset]
  rfl

/-! ### Operations that leave the state as it is -/

theorem exec_nop_of_ready (h : s.CoreReady) : exec .nop s = .next s := coreChecked_of_ready h _

theorem exec_rbNop_of_ready (h : s.RbReady) : exec .rbNop s = .next s := rbChecked_of_ready h _

/-- IS_EMPTY writes to its pin what the pin already shows. -/
theorem exec_isEmpty_of_shown (h : s.RbReady) (hp : s.rbOut.status = s.rbStatus) : exec .isEmpty s = .next s := by
  have he : s.rb.empty = s.rbOut.status.empty := congrArg RbStatus.empty hp.symm
  exact (rbChecked_of_ready h _).trans (by rw [he]; rfl)

/-- IS_FULL writes to its pin what the pin already shows. -/
theorem exec_isFull_of_shown (h : s.RbReady) (hp : s.rbOut.status = s.rbStatus) : exec .isFull s = .next s := by
  have hf : s.rb.full = s.rbOut.status.full := congrArg RbStatus.full hp.symm
  exact (rbChecked_of_ready h _).trans (by rw [hf]; rfl)

theorem runBundle_rbIdle_of_shown (h : s.RbReady) (hp : s.rbOut.status = s.rbStatus) :
    runBundle [.isEmpty, .isFull, .rbNop] s = .next s := by
  simp [exec_isEmpty_of_shown h hp, exec_isFull_of_shown h hp, exec_rbNop_of_ready h]

/-! ### The statements -/

/-- Settles O12: an idle CW word selects NOP alone; an idle RB word selects RB_NOP with the two observers, whose pins
already show the state. -/
theorem idleWordsChangeNothing : Obligations.IdleWordsChangeNothing := by
  refine ⟨fun _ => exec_nop_of_ready, fun _ => exec_rbNop_of_ready, ?_, ?_⟩
  · intro s w rest h hq hrst hie henq hdeq htx hrx
    have hr : (s.setRequests rest).CoreReady := ⟨h.reset, h.tx, h.rx⟩
    rw [step_cw hq, decodeCw_of_idle hrst hie henq hdeq htx hrx, runBundle_cons, andThen_runBundle_nil,
      exec_nop_of_ready (beginCw_ready hr), beginCw_of_reset hr.reset]
    rfl
  · intro s w rest h hq hrst hwr hrd
    have hr : (s.setRequests rest).RbReady := ⟨h.reset, h.rb⟩
    rw [step_rb hq, decodeRb_of_idle hrst hwr hrd,
      runBundle_rbIdle_of_shown (beginRb_ready hr) (beginRb_shows_status hr), beginRb_of_reset hr.reset]
    rfl

/-- Settles O35: a word with `rst = 1` selects the reset alone, and the reset drives no pin after the start of the
cycle has made them inactive. -/
theorem resetOverridesTheOtherFields : Obligations.ResetOverridesTheOtherFields := by
  constructor
  · intro s w rest hq hrst
    have hs : step s = exec .coreInit (beginCw (s.setRequests rest)) := by
      rw [step_cw hq, decodeCw_of_rst hrst, runBundle_cons, andThen_runBundle_nil]
    exact ⟨hs, _, hs, beginCw_out_inactive (s.setRequests rest)⟩
  · intro s w rest hq hrst
    have hs : step s = exec .init (beginRb (s.setRequests rest)) := by
      rw [step_rb hq, decodeRb_of_rst hrst, runBundle_cons, andThen_runBundle_nil]
    exact ⟨hs, _, hs, beginRb_out_inactive (s.setRequests rest)⟩

end Machine
end Sys2Proof
end

section
/-! The statements about the ring buffer (40_ringbuffer.md): how many pushes succeed (R69) and the round trip (R70). -/

namespace Sys2Proof.Machine

/-! ### The room left in a buffer (R8, R17) -/

/-- The number of pushes a buffer still accepts. -/
def RingBuffer.room (b : RingBuffer) : Nat := b.capacity - b.count

theorem RingBuffer.count_add_room {b : RingBuffer} (h : b.shapeOk = true) : b.count + b.room = b.slots - 1 :=
  Nat.add_sub_cancel' (Nat.le_sub_one_of_lt (RingBuffer.count_lt h))

theorem RingBuffer.room_of_empty {b : RingBuffer} (h : b.shapeOk = true) (he : b.empty = true) :
    b.room = b.slots - 1 := by
  rw [← RingBuffer.count_add_room h, (RingBuffer.empty_iff_count h).1 he, Nat.zero_add]

theorem RingBuffer.full_iff_room {b : RingBuffer} (h : b.shapeOk = true) : b.full = true ↔ b.room = 0 := by
  rw [RingBuffer.full_iff_count h, ← RingBuffer.count_add_room h]
  omega

/-- An accepted push takes one unit of room. -/
theorem RingBuffer.room_store {b : RingBuffer} (v : Byte) (h : b.shapeOk = true) (hf : b.full = false) :
    b.room = (b.store v).room + 1 := by
  have hs := RingBuffer.count_add_room (RingBuffer.store_shapeOk v h)
  rw [RingBuffer.store_slots, RingBuffer.count_store v h hf, ← RingBuffer.count_add_room h] at hs
  omega

/-! ### A list of pushes (R69) -/

theorem pushAll_cons_of_full {b : RingBuffer} (v : Byte) (vs : List Byte) (hf : b.full = true) :
    pushAll (v :: vs) b = ((pushAll vs b).1, false :: (pushAll vs b).2) := by
  rw [pushAll, RingBuffer.tryPush_of_full v hf]

theorem pushAll_cons_of_not_full {b : RingBuffer} (v : Byte) (vs : List Byte) (hf : b.full = false) :
    pushAll (v :: vs) b = ((pushAll vs (b.store v)).1, true :: (pushAll vs (b.store v)).2) := by
  rw [pushAll, RingBuffer.tryPush_of_not_full v hf]

theorem pushAll_frame (vs : List Byte) (b : RingBuffer) :
    (pushAll vs b).1.slots = b.slots ∧ (pushAll vs b).1.readIndex = b.readIndex := by
  induction vs generalizing b with
  | nil => exact ⟨rfl, rfl⟩
  | cons v vs ih => simpa [pushAll] using ih (b.tryPush v).1

theorem pushAll_good {b : RingBuffer} (vs : List Byte) (h : b.Good) : (pushAll vs b).1.Good := by
  induction vs generalizing b with
  | nil => exact h
  | cons v vs ih => exact ih (RingBuffer.tryPush_good v h)

/-- As many pushes succeed as there is room, the first ones. -/
theorem pushAll_results {b : RingBuffer} (vs : List Byte) (h : b.Good) :
    (pushAll vs b).2 = List.replicate (min vs.length b.room) true ++ List.replicate (vs.length - b.room) false := by
  induction vs generalizing b with
  | nil => simp [pushAll]
  | cons v vs ih =>
    cases hf : b.full with
    | true =>
      have hr := (RingBuffer.full_iff_room h.shape).1 hf
      simp [pushAll_cons_of_full v vs hf, ih h, hr, List.replicate_succ]
    | false =>
      simp [pushAll_cons_of_not_full v vs hf, ih (RingBuffer.store_good v h hf), RingBuffer.room_store v h.shape hf,
        Nat.add_min_add_right, List.replicate_succ]

/-- The bytes that find room are appended in order. -/
theorem pushAll_contents {b : RingBuffer} (vs : List Byte) (h : b.Good) :
    (pushAll vs b).1.contents = b.contents ++ vs.take b.room := by
  induction vs generalizing b with
  | nil => simp [pushAll]
  | cons v vs ih =>
    cases hf : b.full with
    | true =>
      have hr := (RingBuffer.full_iff_room h.shape).1 hf
      simp [pushAll_cons_of_full v vs hf, ih h, hr]
    | false =>
      simp [pushAll_cons_of_not_full v vs hf, ih (RingBuffer.store_good v h hf), RingBuffer.room_store v h.shape hf,
        contents_store v h hf]

theorem pushAll_contents_of_empty {b : RingBuffer} (vs : List Byte) (h : b.Good) (he : b.empty = true) :
    (pushAll vs b).1.contents = vs.take (b.slots - 1) := by
  rw [pushAll_contents vs h, contents_empty h he, RingBuffer.room_of_empty h.shape he, List.nil_append]

theorem pushAll_count_of_empty {b : RingBuffer} (vs : List Byte) (h : b.Good) (he : b.empty = true) :
    (pushAll vs b).1.count = min (b.slots - 1) vs.length := by
  rw [← contents_length (pushAll_good vs h), pushAll_contents_of_empty vs h he, List.length_take]

/-- `N - 1` pushes from index 0 leave the write index on the last slot. -/
theorem pushAll_writeIndex_of_empty {b : RingBuffer} {vs : List Byte} (h : b.Good) (he : b.empty = true)
    (hl : vs.length = b.slots - 1) (hw : b.writeIndex = 0) : (pushAll vs b).1.writeIndex = b.slots - 1 := by
  obtain ⟨hn, _, _⟩ := RingBuffer.shapeOk_iff.1 h.shape
  obtain ⟨hslots, hread⟩ := pushAll_frame vs b
  have hr : b.readIndex = 0 := (RingBuffer.empty_iff.1 he).symm.trans hw
  rw [← RingBuffer.add_count_mod (pushAll_good vs h).shape, hslots, hread, hr, pushAll_count_of_empty vs h he, hl,
    Nat.min_self, Nat.zero_add, Nat.mod_eq_of_lt (by omega)]

/-! ### Popping everything (R70) -/

/-- The buffer after all its elements have been popped: the read index has reached the write index. -/
def RingBuffer.drained (b : RingBuffer) : RingBuffer := { b with readIndex := b.writeIndex }

@[simp] theorem RingBuffer.drop_drained (b : RingBuffer) : b.drop.drained = b.drained := rfl

theorem RingBuffer.drained_empty (b : RingBuffer) : b.drained.empty = true := RingBuffer.empty_iff.2 rfl

theorem RingBuffer.drained_of_empty {b : RingBuffer} (he : b.empty = true) : b.drained = b :=
  congrArg (fun i => { b with readIndex := i }) (RingBuffer.empty_iff.1 he)

theorem RingBuffer.tryPop_of_empty {b : RingBuffer} (he : b.empty = true) : b.tryPop = .next (b, none) := if_pos he

theorem RingBuffer.tryPop_of_contents {b : RingBuffer} {v : Byte} {vs : List Byte} (h : b.Good)
    (hc : b.contents = v :: vs) : b.tryPop = .next (b.drop, some v) := by
  obtain ⟨he, hv⟩ := load_of_contents h hc
  simp [RingBuffer.tryPop, he, hv]

theorem empty_of_contents_nil {b : RingBuffer} (h : b.Good) (hc : b.contents = []) : b.empty = true := by
  rw [RingBuffer.empty_iff_count h.shape, ← contents_length h, hc, List.length_nil]

/-- As many pops as there are elements return the contents, oldest first. -/
theorem popAll_contents {b : RingBuffer} {vs : List Byte} (h : b.Good) (hc : b.contents = vs) :
    popAll vs.length b = .next (b.drained, vs.map some) := by
  induction vs generalizing b with
  | nil => rw [RingBuffer.drained_of_empty (empty_of_contents_nil h hc)]; rfl
  | cons v vs ih =>
    obtain ⟨he, hv⟩ := load_of_contents h hc
    have hd : b.drop.contents = vs := (List.cons.inj ((contents_drop h he hv).symm.trans hc)).2
    simp [popAll, RingBuffer.tryPop_of_contents h hc, ih (RingBuffer.drop_good h he) hd]

/-! ### The statements -/

/-- Settles O18: an empty buffer has room for `N - 1` bytes, and the pushes that find room are the accepted ones. -/
theorem capacityIsSlotsMinusOne : Obligations.CapacityIsSlotsMinusOne := by
  intro b vs h he
  refine ⟨?_, ?_, pushAll_contents_of_empty vs h he⟩
  · rw [pushAll_results vs h, RingBuffer.room_of_empty h.shape he]
  · obtain ⟨hslots, _⟩ := pushAll_frame vs b
    rw [RingBuffer.full_iff_count (pushAll_good vs h).shape, pushAll_count_of_empty vs h he, hslots]
    exact min_eq_left_iff

/-- Settles O19: after the pushes the contents are the whole list, and popping all of it drains the buffer. -/
theorem roundTripReturnsTheBytesPushed : Obligations.RoundTripReturnsTheBytesPushed := by
  intro b vs h he hl
  have hc : (pushAll vs b).1.contents = vs := by rw [pushAll_contents_of_empty vs h he, ← hl, List.take_length]
  have hempty := (pushAll vs b).1.drained_empty
  refine ⟨_, popAll_contents (pushAll_good vs h) hc, hempty, RingBuffer.tryPop_of_empty hempty, fun hw => ?_⟩
  have hend := pushAll_writeIndex_of_empty h he hl hw
  exact ⟨hend, hend⟩

end Sys2Proof.Machine
end

section
/-! The statements about the cycle (44_core_cycle.md): the fixed sequence (R106) and the set that wins over a clear (R107). -/

namespace Sys2Proof.Machine

variable {s t : State} {w : CwWord}

/-! ### An operation a field of the word selects -/

/-- One optional operation of a cycle: performed exactly when its condition holds. -/
def execIf (c : Bool) (i : Instr) (s : State) : Res State := if c then exec i s else .next s

@[simp] theorem execIf_true (i : Instr) (s : State) : execIf true i s = exec i s := rfl

@[simp] theorem execIf_false (i : Instr) (s : State) : execIf false i s = .next s := rfl

theorem runBundle_optional_append (c : Bool) (i : Instr) (is : List Instr) :
    runBundle ((if c then [i] else []) ++ is) = fun s => andThen (execIf c i s) (runBundle is) := by
  cases c <;> rfl

/-- An optional operation that answers keeps what the operation itself keeps. -/
theorem execIf_keeps {P : State → Prop} {c : Bool} {i : Instr} (hp : exec i s = .next t → P t) (hs : P s)
    (h : execIf c i s = .next t) : P t := by
  cases c with
  | true => exact hp h
  | false => cases h; exact hs

theorem execIf_inv {c : Bool} {i : Instr} (hi : s.Inv) (h : execIf c i s = .next t) : t.Inv :=
  execIf_keeps (exec_inv hi) hi h

theorem andThen_congr {α β : Type} {o : Res α} {f g : α → Res β} (h : ∀ a, o = .next a → f a = g a) :
    andThen o f = andThen o g := by
  cases o with
  | next a => exact h a rfl
  | fault r => rfl
  | refused r => rfl

/-! ### The cycle as a sequence of optional operations (R49, R106) -/

/-- NOP is selected only when nothing else is, and it leaves the state as it is. -/
theorem cwCycle_eq_execIf (h : s.CoreReady) (hrst : (cwFields w).rst = false) :
    cwCycle w s =
      andThen (execIf (cwFields w).deqReq .dequeue (beginCw s)) fun s1 =>
      andThen (execIf (cwFields w).ie .dispatch s1) fun s2 =>
      andThen (execIf (cwFields w).enqReq (.enqueue (cwFields w).enqData) s2) fun s3 =>
      andThen (execIf (cwFields w).uTxrdy .uTxrdy s3) fun s4 =>
      execIf (cwFields w).uRxbyte (.uRxbyte (cwFields w).uRxdata) s4 := by
  simp only [cwCycle, decodeCw_rows, hrst, Bool.not_false, Bool.true_and, Bool.false_eq_true, if_false,
    List.nil_append, runBundle_optional_append]
  split_ifs with hidle
  · simp only [Bool.and_eq_true, Bool.not_eq_true'] at hidle
    obtain ⟨hie, henq, hdeq, htx, hrx⟩ := hidle
    simp [hie, henq, hdeq, htx, hrx, exec_nop_of_ready (beginCw_ready h)]
  · simp only [andThen_runBundle_nil]

theorem exec_dequeue_ready (h : exec .dequeue s = .next t) : t.CoreReady := by
  obtain ⟨r, ⟨_, rfl⟩ | ⟨_, _, _, rfl⟩⟩ := dequeue_next h
  · exact ⟨r.reset, r.tx, r.rx⟩
  · exact ⟨r.reset, r.tx, RingBuffer.drop_shapeOk r.rx⟩

/-- An eligible dispatcher runs exactly when a flag is set (R93). -/
theorem execIf_dispatch_eq (h : s.CoreReady) (c : Bool) :
    execIf c .dispatch s = execIf (c && (s.txr || s.rxf)) .dispatch s := by
  cases c with
  | false => rfl
  | true =>
    cases hq : s.txr || s.rxf with
    | true => rfl
    | false => exact (coreChecked_of_ready h _).trans (if_neg (Bool.eq_false_iff.1 hq))

/-- Settles O33: the rows select the operations in the order of the cycle, and DISPATCH with no flag set does nothing. -/
theorem cycleIsTheFixedSequence : Obligations.CycleIsTheFixedSequence := by
  intro s w h hrst
  have hb := beginCw_ready h
  rw [cwCycle_eq_execIf h hrst]
  rw [beginCw_of_reset h.reset] at hb ⊢
  refine andThen_congr fun s1 h1 => ?_
  have hr : s1.CoreReady := execIf_keeps exec_dequeue_ready hb h1
  rw [execIf_dispatch_eq hr]
  rfl

/-! ### What the operations of a cycle do to `active` and `TXR` -/

theorem dequeue_frame (h : exec .dequeue s = .next t) : t.tx = s.tx ∧ t.active = s.active ∧ t.txr = s.txr := by
  obtain ⟨_, ⟨_, rfl⟩ | ⟨_, _, _, rfl⟩⟩ := dequeue_next h <;> exact ⟨rfl, rfl, rfl⟩

/-- DISPATCH never makes the transmit path active. -/
theorem dispatch_idle (h : exec .dispatch s = .next t) (ha : s.active = false) : t.active = false := by
  rcases dispatch_next h with
    ⟨_, ⟨_, _, rfl⟩ | ⟨_, _, rfl⟩ | ⟨_, _, _, _, rfl⟩ | ⟨_, _, _, _, rfl⟩ | ⟨_, _, _, _, rfl⟩⟩
  · exact ha
  · rfl
  · exact ha
  · exact ha
  · exact ha

/-- DISPATCH with `TXR` set and nothing to send makes the transmit path idle (R77). -/
theorem dispatch_ends_transmission (h : exec .dispatch s = .next t) (hx : s.txr = true) (he : s.tx.empty = true) :
    t.active = false := by
  rcases dispatch_next h with
    ⟨_, ⟨hx', _⟩ | ⟨_, _, rfl⟩ | ⟨_, he', _⟩ | ⟨hx', _⟩ | ⟨hx', _⟩⟩
  · exact absurd hx (Bool.eq_false_iff.1 hx')
  · rfl
  · exact absurd he (Bool.eq_false_iff.1 he')
  · exact absurd hx (Bool.eq_false_iff.1 hx')
  · exact absurd hx (Bool.eq_false_iff.1 hx')

theorem State.Inv.not_full_of_idle (hi : s.Inv) (hc : s.coreReset = true) (ha : s.active = false) :
    s.tx.full = false := by
  have g := hi.core hc
  by_contra hf
  have he := empty_of_full g.tx (by simpa using hf)
  exact Bool.false_ne_true (he.symm.trans (g.idle ha))

/-- What ENQUEUE on an idle path leaves behind: the path active, `TXR` set and the byte accepted (R76). -/
structure Started (s : State) : Prop where
  active : s.active = true
  txr : s.txr = true
  enqOk : s.out.enqOk = true

/-- On an idle path of a good state ENQUEUE is accepted and ARMs: the buffer is empty, so there is room. -/
theorem enqueue_starts {b : Byte} (h : exec (.enqueue b) s = .next t) (hi : s.Inv) (ha : s.active = false) :
    Started t := by
  obtain ⟨r, ⟨hf, _⟩ | ⟨_, ha', _⟩ | ⟨_, _, rfl⟩⟩ := enqueue_next h
  · exact absurd hf (Bool.eq_false_iff.1 (hi.not_full_of_idle r.reset ha))
  · exact absurd ha' (Bool.eq_false_iff.1 ha)
  · exact ⟨rfl, rfl, rfl⟩

theorem uTxrdy_sets (h : exec .uTxrdy s = .next t) : t.txr = true := by
  obtain ⟨_, rfl⟩ := uTxrdy_next h
  rfl

theorem uRxbyte_sets {b : Byte} (h : exec (.uRxbyte b) s = .next t) : t.rxf = true ∧ t.rxdata = b := by
  obtain ⟨_, rfl⟩ := uRxbyte_next h
  exact ⟨rfl, rfl⟩

theorem uRxbyte_txr {b : Byte} (h : exec (.uRxbyte b) s = .next t) : t.txr = s.txr := by
  obtain ⟨_, rfl⟩ := uRxbyte_next h
  rfl

theorem Started.uTxrdy (hs : Started s) (h : exec .uTxrdy s = .next t) : Started t := by
  obtain ⟨_, rfl⟩ := uTxrdy_next h
  exact ⟨hs.active, rfl, hs.enqOk⟩

theorem Started.uRxbyte {b : Byte} (hs : Started s) (h : exec (.uRxbyte b) s = .next t) : Started t := by
  obtain ⟨_, rfl⟩ := uRxbyte_next h
  exact ⟨hs.active, hs.txr, hs.enqOk⟩

/-- Before the ENQUEUE of a cycle the path is idle if it was idle at the start or the dispatcher ends its transmission. -/
theorem idle_before_enqueue {u : State} {deq ie : Bool} (h1 : execIf deq .dequeue s = .next t)
    (h2 : execIf ie .dispatch t = .next u)
    (hidle : s.active = false ∨ (ie = true ∧ s.txr = true ∧ s.tx.empty = true)) : u.active = false := by
  obtain ⟨htx, hact, htxr⟩ : t.tx = s.tx ∧ t.active = s.active ∧ t.txr = s.txr :=
    execIf_keeps (P := fun u => u.tx = s.tx ∧ u.active = s.active ∧ u.txr = s.txr) dequeue_frame ⟨rfl, rfl, rfl⟩ h1
  rcases hidle with ha | ⟨rfl, hx, he⟩
  · have ha' := hact.trans ha
    exact execIf_keeps (P := fun u => u.active = false) (dispatch_idle · ha') ha' h2
  · exact dispatch_ends_transmission h2 (htxr.trans hx) (htx ▸ he)

/-! ### The cycle, taken apart at its four intermediate states -/

theorem cwCycle_next (h : s.CoreReady) (hrst : (cwFields w).rst = false) (ht : cwCycle w s = .next t) :
    ∃ s1 s2 s3 s4, execIf (cwFields w).deqReq .dequeue (beginCw s) = .next s1 ∧
      execIf (cwFields w).ie .dispatch s1 = .next s2 ∧
      execIf (cwFields w).enqReq (.enqueue (cwFields w).enqData) s2 = .next s3 ∧
      execIf (cwFields w).uTxrdy .uTxrdy s3 = .next s4 ∧
      execIf (cwFields w).uRxbyte (.uRxbyte (cwFields w).uRxdata) s4 = .next t := by
  simpa only [cwCycle_eq_execIf h hrst, andThen_eq_next, exists_and_left] using ht

theorem cwCycle_completes (w : CwWord) (hi : s.Inv) (hc : s.coreReset = true) : Completes (cwCycle w s) := by
  obtain ⟨t, ht, _⟩ := runBundle_core_completes (decodeCw_format w) (beginCw_inv hi) ((beginCw_kept s).coreReset hc)
  exact ⟨t, ht⟩

/-- Settles O34: the setters of a cycle come after the dispatcher's clear, and none of them undoes another. -/
theorem setWinsOverClear : Obligations.SetWinsOverClear := by
  intro s w hi hc hrst
  obtain ⟨t, ht⟩ := cwCycle_completes w hi hc
  obtain ⟨s1, s2, s3, s4, h1, h2, h3, h4, h5⟩ := cwCycle_next (hi.coreReady hc) hrst ht
  refine ⟨t, ht, fun hu => ?_, fun hu => ?_, fun hq hidle => ?_⟩
  · rw [hu] at h4
    have hx : s4.txr = true := uTxrdy_sets h4
    exact execIf_keeps (P := fun u => u.txr = true) (fun h => (uRxbyte_txr h).trans hx) hx h5
  · rw [hu] at h5
    exact uRxbyte_sets h5
  · have hi2 : s2.Inv := execIf_inv (execIf_inv (beginCw_inv hi) h1) h2
    rw [beginCw_of_reset hc] at h1
    rw [hq] at h3
    have hs3 : Started s3 := enqueue_starts h3 hi2 (idle_before_enqueue h1 h2 hidle)
    have hs4 : Started s4 := execIf_keeps hs3.uTxrdy hs3 h4
    obtain ⟨ha, hx, hok⟩ : Started t := execIf_keeps hs4.uRxbyte hs4 h5
    exact ⟨ha, hx, hok⟩

end Sys2Proof.Machine
end

section
/-! The statements about the step: the invariant it keeps (10_state.md R16, 41_transmit_path.md R82), that every word is
performed (44_core_cycle.md R105) and the slot counts it leaves (10_state.md R11). -/

namespace Sys2Proof.Machine

variable {s t : State} {rest : List Request}

/-! ### A bundle, an invocation and a request keep the invariant -/

theorem runBundle_inv {is : List Instr} (hi : s.Inv) (h : runBundle is s = .next t) : t.Inv :=
  runBundle_keeps (P := State.Inv) (fun _ _ _ _ => exec_inv) hi h

theorem serve_inv {r : Request} (hi : s.Inv) (h : serve r s = .next t) : t.Inv := by
  cases r with
  | rb w => exact runBundle_inv (beginRb_inv hi) h
  | cw w => exact runBundle_inv (beginCw_inv hi) h
  | invoke => exact invokeBySt_inv (beginCw_inv hi) h
  | call a i =>
    simp only [serve, callOp] at h
    split_ifs at h
    exact callMeaning_inv (beginCw_inv hi) h

/-- A step that answers has served the oldest request. -/
theorem step_next (h : step s = .next t) :
    ∃ r rest, s.requests = r :: rest ∧ serve r (s.setRequests rest) = .next t := by
  simp only [step, sample] at h
  split at h
  · cases h
  · exact ⟨_, _, ‹_›, h⟩

/-- Settles O3: whichever request the step serves, it is served by operations that each keep the invariant. -/
theorem everyStepKeepsTheInvariant : Obligations.EveryStepKeepsTheInvariant := by
  intro s t hi h
  obtain ⟨r, rest, _, hr⟩ := step_next h
  exact serve_inv (setRequests_inv rest hi) hr

/-! ### Every word is performed (R105) -/

/-- A cycle of CORE from a good state that has been reset: it answers, the state is good, the requests stay. -/
theorem cwCycle_performed (w : CwWord) (hi : s.Inv) (hc : s.coreReset = true) :
    ∃ t, cwCycle w s = .next t ∧ t.Inv ∧ Kept s t := by
  obtain ⟨t, ht, hit⟩ :=
    runBundle_core_completes (decodeCw_format w) (beginCw_inv hi) ((beginCw_kept s).coreReset hc)
  exact ⟨t, ht, hit, (beginCw_kept s).trans (runBundle_kept ht)⟩

/-- The same for a cycle of the stand-alone ring buffer. -/
theorem rbCycle_performed (w : RbWord) (hi : s.Inv) (hr : s.rbReset = true) :
    ∃ t, rbCycle w s = .next t ∧ t.Inv ∧ Kept s t := by
  obtain ⟨t, ht, hit⟩ :=
    runBundle_rb_completes (decodeRb_format w) (beginRb_inv hi) ((beginRb_kept s).rbReset hr)
  exact ⟨t, ht, hit, (beginRb_kept s).trans (runBundle_kept ht)⟩

/-- Settles O4: the rows of a word are operations of its block, and each of them completes from a good reset state. -/
theorem everyWordIsPerformed : Obligations.EveryWordIsPerformed := by
  constructor
  · intro s w rest hi hc hq
    obtain ⟨t, ht, hit, hk⟩ := cwCycle_performed w (setRequests_inv rest hi) hc
    exact ⟨t, (step_cw hq).trans ht, hk.requests, hk.coreReset hc, hit⟩
  · intro s w rest hi hr hq
    obtain ⟨t, ht, hit, hk⟩ := rbCycle_performed w (setRequests_inv rest hi) hr
    exact ⟨t, (step_rb hq).trans ht, hk.requests, hk.rbReset hr, hit⟩

/-! ### The slot counts (R7, R11) -/

theorem endInvocation_kept (i : Instr) (s : State) : Kept s (endInvocation i s) := by
  unfold endInvocation
  split_ifs <;> exact ⟨rfl, id, id, rfl, rfl, rfl⟩

theorem invokeBySt_kept (h : invokeBySt s = .next t) : Kept s t := by
  unfold invokeBySt at h
  split at h
  · obtain ⟨u, hu, h⟩ := andThen_eq_next.1 h
    cases h
    exact (exec_kept hu).trans (endInvocation_kept _ u)
  · cases h
    exact .refl s

theorem serve_kept {r : Request} (h : serve r s = .next t) : Kept s t := by
  cases r with
  | rb w => exact (beginRb_kept s).trans (runBundle_kept h)
  | cw w => exact (beginCw_kept s).trans (runBundle_kept h)
  | invoke => exact (beginCw_kept s).trans (invokeBySt_kept h)
  | call a i =>
    simp only [serve, callOp, callMeaning] at h
    split_ifs at h
    · exact (beginCw_kept s).trans (invokeBySt_kept h)
    · exact (beginCw_kept s).trans (exec_kept h)

/-- Settles O47: no operation of a request changes a slot count. -/
theorem slotCountsNeverChange : Obligations.SlotCountsNeverChange := by
  intro s t h
  obtain ⟨r, rest, _, hr⟩ := step_next h
  have hk := serve_kept hr
  exact ⟨hk.txSlots, hk.rxSlots, hk.rbSlots⟩

end Sys2Proof.Machine
end

section
/-! The statements about the queue (40_ringbuffer.md): the queue law (R68) and its form for every interleaving. -/

namespace Sys2Proof.Machine

variable {b : RingBuffer}

/-- The bytes an accepted or rejected push adds. -/
theorem tryPush_contents (v : Byte) (h : b.Good) :
    (b.tryPush v).1.contents = b.contents ++ if (b.tryPush v).2 then [v] else [] := by
  rcases b.tryPush_cases v with ⟨_, e⟩ | ⟨hf, e⟩ <;> rw [e]
  · simp
  · exact contents_store v h hf

theorem tryPush_result (b : RingBuffer) (v : Byte) : (b.tryPush v).2 = !b.full := by
  rcases b.tryPush_cases v with ⟨hf, e⟩ | ⟨hf, e⟩ <;> rw [e, hf] <;> rfl

theorem empty_eq_isEmpty (h : b.Good) : b.empty = b.contents.isEmpty := by
  rw [Bool.eq_iff_iff, List.isEmpty_iff]
  exact ⟨contents_empty h, empty_of_contents_nil h⟩

theorem full_eq_false_of_empty (h : b.Good) (he : b.empty = true) : b.full = false := by
  by_contra hf
  exact Bool.false_ne_true ((empty_of_full h (by simpa using hf)).symm.trans he)

/-- A pop of a good buffer returns the head of the contents, leaves the tail, and there is room afterwards. -/
theorem tryPop_head (h : b.Good) :
    ∃ c : RingBuffer, b.tryPop = .next (c, b.contents.head?) ∧ c.Good ∧ c.slots = b.slots ∧
      c.contents = b.contents.tail ∧ c.full = false := by
  cases hc : b.contents with
  | nil =>
    have he := empty_of_contents_nil h hc
    exact ⟨b, RingBuffer.tryPop_of_empty he, h, rfl, hc, full_eq_false_of_empty h he⟩
  | cons v vs =>
    obtain ⟨he, hv⟩ := load_of_contents h hc
    have hd : b.drop.contents = vs := (List.cons.inj ((contents_drop h he hv).symm.trans hc)).2
    exact ⟨b.drop, RingBuffer.tryPop_of_contents h hc, RingBuffer.drop_good h he, rfl, hd, drop_not_full h he⟩

theorem head?_toList_append_tail {α : Type} (l : List α) : l.head?.toList ++ l.tail = l := by cases l <;> rfl

/-- INIT leaves no element: both indices are 0. -/
theorem init_contents (b : RingBuffer) : b.init.contents = [] := by
  simp [RingBuffer.contents, RingBuffer.liveSlots, RingBuffer.count, slotsFrom]

/-- Settles O17: by induction on the interleaving; a push adds at the tail what it accepts, a pop takes the head. -/
theorem fifoUnderEveryInterleaving : Obligations.FifoUnderEveryInterleaving := by
  intro ops
  induction ops with
  | nil => intro b h; exact ⟨⟨b, [], []⟩, rfl, h, by simp⟩
  | cons op ops ih =>
    intro b h
    cases op with
    | push v =>
      obtain ⟨q, hq, hg, hc⟩ := ih (b.tryPush v).1 (RingBuffer.tryPush_good v h)
      refine ⟨{ q with accepted := (if (b.tryPush v).2 then [v] else []) ++ q.accepted }, by simp [runQueue, hq], hg, ?_⟩
      rw [← List.append_assoc, ← tryPush_contents v h, hc]
    | pop =>
      obtain ⟨c, hpop, hgc, _, ht, _⟩ := tryPop_head h
      obtain ⟨q, hq, hg, hc⟩ := ih c hgc
      refine ⟨{ q with popped := b.contents.head?.toList ++ q.popped }, by simp [runQueue, hpop, hq], hg, ?_⟩
      rw [List.append_assoc, ← hc, ht, ← List.append_assoc, head?_toList_append_tail]

/-- Settles O16: what a push, a pop, INIT and the two observers do to the contents. -/
theorem queueLaw : Obligations.QueueLaw := by
  intro b h
  refine ⟨fun v hv => ?_, fun v hv => ?_, tryPush_result b, ?_, init_contents b, ?_⟩
  · rw [tryPush_contents v h, if_pos hv]
  · rw [tryPush_contents v h, hv]
    simp
  · obtain ⟨c, hpop, _, _, ht, _⟩ := tryPop_head h
    refine ⟨_, hpop, ?_⟩
    cases hb : b.contents with
    | nil => exact .inl ⟨rfl, rfl, by rw [ht, hb]; rfl⟩
    | cons v vs => exact .inr ⟨v, rfl, by rw [ht, hb]; rfl⟩
  · rintro s t rfl (he | hf)
    · obtain ⟨_, rfl⟩ := isEmpty_next he
      rfl
    · obtain ⟨_, rfl⟩ := isFull_next hf
      rfl

end Sys2Proof.Machine
end

section
/-! The statements about the encoding (30_encoding.md): words and fields (R46, R47), the bundle of a word (R49, R51), the
encoder (R58), the mnemonics (R55), and the word a step performs. -/

namespace Sys2Proof

/-! ### Words and fields -/

theorem enqData_cwWordOf (f : CwFields) : (cwFields (cwWordOf f)).enqData = f.enqData := by
  apply BitVec.eq_of_getElem_eq
  intro i hi
  simp only [cwFields, cwWordOf, dataField, BitVec.getElem_extractLsb', BitVec.getLsbD_cast, BitVec.getLsbD_append]
  simp [hi]

theorem uRxdata_cwWordOf (f : CwFields) : (cwFields (cwWordOf f)).uRxdata = f.uRxdata := by
  apply BitVec.eq_of_getElem_eq
  intro i hi
  simp only [cwFields, cwWordOf, dataField, BitVec.getElem_extractLsb', BitVec.getLsbD_cast, BitVec.getLsbD_append]
  simp [hi]

@[simp] theorem cwFields_cwWordOf (f : CwFields) : cwFields (cwWordOf f) = f := by
  obtain ⟨rst, ie, enq, deq, utx, urx, x, y⟩ := f
  rw [CwFields.mk.injEq, enqData_cwWordOf, uRxdata_cwWordOf]
  simp only [cwFields, cwWordOf, BitVec.getElem_cast, BitVec.getElem_append]
  simp

theorem cwWordOf_cwFields (w : CwWord) : cwWordOf (cwFields w) = w := by
  apply BitVec.eq_of_getElem_eq
  intro i hi
  simp only [cwFields, cwWordOf, dataField, BitVec.getElem_cast, BitVec.getElem_append]
  interval_cases i <;> simp

theorem wrData_rbWordOf (f : RbFields) : (rbFields (rbWordOf f)).wrData = f.wrData := by
  apply BitVec.eq_of_getElem_eq
  intro i hi
  simp only [rbFields, rbWordOf, dataField, BitVec.getElem_extractLsb', BitVec.getLsbD_cast, BitVec.getLsbD_append]
  simp [hi]

@[simp] theorem rbFields_rbWordOf (f : RbFields) : rbFields (rbWordOf f) = f := by
  obtain ⟨rst, wr, rd, x⟩ := f
  rw [RbFields.mk.injEq, wrData_rbWordOf]
  simp only [rbFields, rbWordOf, BitVec.getElem_cast, BitVec.getElem_append]
  simp

theorem rbWordOf_rbFields (w : RbWord) : rbWordOf (rbFields w) = w := by
  apply BitVec.eq_of_getElem_eq
  intro i hi
  simp only [rbFields, rbWordOf, dataField, BitVec.getElem_cast, BitVec.getElem_append]
  interval_cases i <;> simp

/-- Settles O53: bit by bit, each bit of a word is a bit of one field. -/
theorem wordsAndFieldsRoundTrip : Obligations.WordsAndFieldsRoundTrip :=
  ⟨cwWordOf_cwFields, cwFields_cwWordOf, rbWordOf_rbFields, rbFields_rbWordOf⟩

/-! ### The bundle of a word -/

/-- The operations a CW word that is no reset requests by a bit, in the order of the cycle. -/
def cwRequested (f : CwFields) : List Instr :=
  (if f.deqReq then [.dequeue] else []) ++ (if f.ie then [.dispatch] else []) ++
  (if f.enqReq then [.enqueue f.enqData] else []) ++ (if f.uTxrdy then [.uTxrdy] else []) ++
  (if f.uRxbyte then [.uRxbyte f.uRxdata] else [])

/-- Whether a CW word that is no reset requests anything. -/
def cwRequests (f : CwFields) : Bool := f.deqReq || f.ie || f.enqReq || f.uTxrdy || f.uRxbyte

theorem decodeCw_eq (w : CwWord) : decodeCw w =
    if (cwFields w).rst then [.coreInit]
    else if cwRequests (cwFields w) then cwRequested (cwFields w) else [.nop] := by
  cases hrst : (cwFields w).rst with
  | true => exact decodeCw_of_rst hrst
  | false =>
    cases hreq : cwRequests (cwFields w) with
    | false =>
      simp only [cwRequests, Bool.or_eq_false_iff] at hreq
      obtain ⟨⟨⟨⟨hdeq, hie⟩, henq⟩, htx⟩, hrx⟩ := hreq
      exact decodeCw_of_idle hrst hie henq hdeq htx hrx
    | true =>
      have hidle : ¬ ((cwFields w).ie = false ∧ (cwFields w).enqReq = false ∧ (cwFields w).deqReq = false ∧
          (cwFields w).uTxrdy = false ∧ (cwFields w).uRxbyte = false) := by
        rintro ⟨hie, henq, hdeq, htx, hrx⟩
        simp [cwRequests, hie, henq, hdeq, htx, hrx] at hreq
      simp [decodeCw_rows, hrst, cwRequested, hidle]

theorem decodeRb_eq (w : RbWord) : decodeRb w =
    if (rbFields w).rst then [.init]
    else [.isEmpty, .isFull] ++ (if (rbFields w).rdEn then [.tryPop] else []) ++
      (if (rbFields w).wrEn then [.tryPush (rbFields w).wrData] else []) ++
      (if (rbFields w).rdEn || (rbFields w).wrEn then [] else [.rbNop]) := by
  rw [decodeRb_rows]
  cases (rbFields w).rst with
  | true => rfl
  | false => cases (rbFields w).rdEn <;> cases (rbFields w).wrEn <;> rfl

/-- Settles O55: the rows are selected by the request bits, in the order in which the tables list them. -/
theorem rowsSelectWhatTheFieldsRequest : Obligations.RowsSelectWhatTheFieldsRequest := ⟨decodeCw_eq, decodeRb_eq⟩

/-! ### No word is illegal (R51) -/

/-- The rows of a table stand in the order of the cycle, so the operations they select do too. -/
theorem selectRows_inOrder {n : Nat} {table : List (Row n)} {w : BitVec n}
    (h : (table.map fun r => (r.instr w).rank).Pairwise (· < ·)) : Bundle.inOrder (selectRows table w) = true := by
  simp only [Bundle.inOrder, selectRows, List.map_map, decide_eq_true_eq]
  exact h.sublist (List.filter_sublist.map _)

theorem cwTable_ranks (w : CwWord) : (cwTable.map fun r => (r.instr w).rank).Pairwise (· < ·) := by
  show [0, 1, 2, 3, 4, 5, 6].Pairwise (· < ·)
  decide

/-- A CW bundle is well formed when it is in order and the reset and the idle row stand alone. -/
theorem wf_of_cw {b : List Instr} (hne : b ≠ []) (hf : ∀ i ∈ b, i.format = .cw) (ho : Bundle.inOrder b = true)
    (hreset : .coreInit ∈ b → b.length = 1) (hidle : .nop ∈ b → b.length = 1) : Bundle.wf b = true := by
  have hother {i : Instr} (hi : i.format ≠ .cw) : i ∉ b := fun hm => hi (hf i hm)
  have hsame : Bundle.sameFormat b = true := by
    cases b with
    | nil => rfl
    | cons i is =>
      have hi := hf i List.mem_cons_self
      exact List.all_eq_true.2 fun j hj => beq_iff_eq.2 ((hf j (List.mem_cons_of_mem i hj)).trans hi.symm)
  have hresets : Bundle.resetAlone b = true := by
    by_cases hr : .coreInit ∈ b
    · simp [Bundle.resetAlone, hreset hr]
    · simp [Bundle.resetAlone, hr, hother (i := .init) (by decide)]
  have hobserves : Bundle.observes b = true := List.all_eq_true.2 fun i hi => by simp [hf i hi]
  have hidles : Bundle.idleAlone b = true := by
    have hnop : .nop ∉ b ∨ b.length = 1 := or_iff_not_imp_left.2 fun h => hidle (not_not.1 h)
    simp [Bundle.idleAlone, hnop, hother (i := .rbNop) (by decide), hother (i := .isEmpty) (by decide)]
  have hbranch : Bundle.oneBranch b = true := List.all_eq_true.2 fun i hi => by simp [hf i hi]
  simp [Bundle.wf, Bundle.notEmpty, hne, hsame, ho, hresets, hobserves, hidles, hbranch]

theorem cwRequested_ne_nil {f : CwFields} (h : cwRequests f = true) : cwRequested f ≠ [] := by
  simp only [cwRequests, Bool.or_eq_true] at h
  obtain (((h | h) | h) | h) | h := h <;> simp [cwRequested, h]

theorem decodeCw_wf (w : CwWord) : Bundle.wf (decodeCw w) = true := by
  cases hrst : (cwFields w).rst with
  | true => rw [decodeCw_of_rst hrst]; rfl
  | false =>
    cases hreq : cwRequests (cwFields w) with
    | false =>
      rw [show decodeCw w = [.nop] by simp [decodeCw_eq, hrst, hreq]]
      rfl
    | true =>
      have hd : decodeCw w = cwRequested (cwFields w) := by simp [decodeCw_eq, hrst, hreq]
      refine wf_of_cw (hd ▸ cwRequested_ne_nil hreq) (Machine.decodeCw_format w) (selectRows_inOrder (cwTable_ranks w)) ?_ ?_
      · simp [hd, cwRequested]
      · simp [hd, cwRequested]

theorem decodeRb_wf (w : RbWord) : Bundle.wf (decodeRb w) = true := by
  rw [decodeRb_eq]
  cases (rbFields w).rst with
  | true => rfl
  | false => cases (rbFields w).rdEn <;> cases (rbFields w).wrEn <;> rfl

/-- Settles O56: the rows select what the fields request, a data field only under its enable bit. -/
theorem noWordIsIllegal : Obligations.NoWordIsIllegal := by
  refine ⟨decodeCw_wf, decodeRb_wf, by decide, by decide, by decide, fun f x y => ⟨fun h => ?_, fun h => ?_⟩,
    fun f x h => ?_⟩
  · simp [decodeCw_eq, cwRequests, cwRequested, h]
  · simp [decodeCw_eq, cwRequests, cwRequested, h]
  · simp [decodeRb_eq, h]

/-! ### The encoder (R58) -/

theorem toNat_append_add {n m : Nat} (x : BitVec n) (y : BitVec m) :
    (x ++ y).toNat = x.toNat * 2 ^ m + y.toNat := by
  rw [BitVec.toNat_append, ← Nat.shiftLeft_add_eq_or_of_lt y.isLt, Nat.shiftLeft_eq]

theorem toNat_cwWordOf (f : CwFields) : (cwWordOf f).toNat =
    ((((((f.rst.toNat * 2 + f.ie.toNat) * 2 + f.enqReq.toNat) * 2 + f.deqReq.toNat) * 2 + f.uTxrdy.toNat) * 2 +
      f.uRxbyte.toNat) * 256 + f.enqData.toNat) * 256 + f.uRxdata.toNat := by
  simp only [cwWordOf, BitVec.toNat_cast, toNat_append_add, BitVec.toNat_ofBool, Nat.reducePow]

theorem toNat_rbWordOf (f : RbFields) : (rbWordOf f).toNat =
    ((f.rst.toNat * 2 + f.wrEn.toNat) * 2 + f.rdEn.toNat) * 256 + f.wrData.toNat := by
  simp only [rbWordOf, BitVec.toNat_cast, toNat_append_add, BitVec.toNat_ofBool, Nat.reducePow]

/-- An ST word laid out in one byte is read as itself. -/
theorem readWord_st (w : StWord) : readWord (natToBytes 1 w.toNat) = .ok (.st w) := by
  revert w
  decide

/-- A word of some format whose value is what the encoder writes for the operation. -/
inductive EncodedAs (i : Instr) : PortWord → Prop where
  | rb {w : RbWord} (format : i.format = .rb) (bits : encodeBits i = w.toNat) : EncodedAs i (.rb w)
  | cw {w : CwWord} (format : i.format = .cw) (bits : encodeBits i = w.toNat) : EncodedAs i (.cw w)
  | st {w : StWord} (format : i.format = .st) (bits : encodeBits i = w.toNat) : EncodedAs i (.st w)

theorem EncodedAs.decode_encode {i : Instr} {p : PortWord} (h : EncodedAs i p) : decode (encode i) = .ok p.bundle := by
  cases h with
  | rb format bits => rw [encode, format, bits]; exact congrArg (Except.map PortWord.bundle) (readWord_rb _)
  | cw format bits => rw [encode, format, bits]; exact congrArg (Except.map PortWord.bundle) (readWord_cw _)
  | st format bits => rw [encode, format, bits]; exact congrArg (Except.map PortWord.bundle) (readWord_st _)

theorem EncodedAs.bits_lt {i : Instr} {p : PortWord} (h : EncodedAs i p) :
    encodeBits i < 2 ^ (8 * bytesFor i.format.width) := by
  cases h with
  | @rb w format bits => rw [format, bits]; exact w.isLt.trans (by decide)
  | @cw w format bits => rw [format, bits]; exact w.isLt.trans (by decide)
  | @st w format bits => rw [format, bits]; exact w.isLt.trans (by decide)

theorem EncodedAs.decodeTableWord {i : Instr} {p : PortWord} (h : EncodedAs i p) :
    decodeTableWord i.format.width (encodeBits i) = principal p.bundle := by
  have hd : decode (natToBytes (bytesFor i.format.width) (encodeBits i)) = .ok p.bundle := h.decode_encode
  rw [Sys2Proof.decodeTableWord, if_pos h.bits_lt, hd]

/-- The operations of a word that requests `i` and no other. -/
structure RequestsOnly (i : Instr) (b : List Instr) : Prop where
  mem : i ∈ b
  only : ∀ j ∈ b, j = i ∨ j.alwaysOn = true ∨ j = .rbNop
  first : i.alwaysOn = false → principal b = some i

theorem requestsOnly_singleton {i : Instr} : RequestsOnly i [i] :=
  ⟨List.mem_singleton_self i, fun _ hj => .inl (List.mem_singleton.1 hj), fun h => by simp [principal, h]⟩

/-- In a cycle of the stand-alone buffer the two observers are performed besides the operation requested. -/
theorem requestsOnly_observed {i : Instr} : RequestsOnly i [.isEmpty, .isFull, i] :=
  ⟨by simp, by simp [Instr.alwaysOn], fun h => by
    have he : (Instr.isEmpty).alwaysOn = true := rfl
    have hf : (Instr.isFull).alwaysOn = true := rfl
    simp [principal, he, hf, h]⟩

/-- The word of each operation requests that operation and no other. -/
theorem encodedAs_requestsOnly (i : Instr) : ∃ p, EncodedAs i p ∧ RequestsOnly i p.bundle := by
  have cw {f : CwFields} (hf : i.format = .cw) (hb : encodeBits i = (cwWordOf f).toNat)
      (hd : decodeCw (cwWordOf f) = [i]) : ∃ p, EncodedAs i p ∧ RequestsOnly i p.bundle :=
    ⟨.cw (cwWordOf f), .cw hf hb, by rw [PortWord.bundle, hd]; exact requestsOnly_singleton⟩
  have rb {f : RbFields} (hf : i.format = .rb) (hb : encodeBits i = (rbWordOf f).toNat)
      (hr : RequestsOnly i (decodeRb (rbWordOf f))) : ∃ p, EncodedAs i p ∧ RequestsOnly i p.bundle :=
    ⟨.rb (rbWordOf f), .rb hf hb, hr⟩
  cases i with
  | init => exact rb (f := ⟨true, false, false, 0⟩) rfl rfl requestsOnly_singleton
  | isEmpty => exact rb (f := ⟨false, false, false, 0⟩) rfl rfl ⟨by decide, by decide, by decide⟩
  | isFull => exact rb (f := ⟨false, false, false, 0⟩) rfl rfl ⟨by decide, by decide, by decide⟩
  | tryPush v =>
    refine rb (f := ⟨false, true, false, v⟩) rfl (by simp [encodeBits, toNat_rbWordOf]) ?_
    rw [show decodeRb (rbWordOf ⟨false, true, false, v⟩) = [.isEmpty, .isFull, .tryPush v] by simp [decodeRb_eq]]
    exact requestsOnly_observed
  | tryPop => exact rb (f := ⟨false, false, true, 0⟩) rfl rfl requestsOnly_observed
  | rbNop => exact rb (f := ⟨false, false, false, 0⟩) rfl rfl requestsOnly_observed
  | coreInit => exact cw (f := { CwFields.nop with rst := true }) rfl rfl rfl
  | dispatch => exact cw (f := { CwFields.nop with ie := true }) rfl rfl rfl
  | enqueue b =>
    refine cw (f := { CwFields.nop with enqReq := true, enqData := b }) rfl ?_ ?_
    · simp [encodeBits, toNat_cwWordOf, CwFields.nop]
      omega
    · simp [decodeCw_eq, cwRequests, cwRequested, CwFields.nop]
  | dequeue => exact cw (f := { CwFields.nop with deqReq := true }) rfl rfl rfl
  | uTxrdy => exact cw (f := { CwFields.nop with uTxrdy := true }) rfl rfl rfl
  | uRxbyte b =>
    refine cw (f := { CwFields.nop with uRxbyte := true, uRxdata := b }) rfl ?_ ?_
    · simp [encodeBits, toNat_cwWordOf, CwFields.nop]
    · simp [decodeCw_eq, cwRequests, cwRequested, CwFields.nop]
  | nop => exact cw (f := CwFields.nop) rfl rfl rfl
  | onTransmitReady => exact ⟨.st 2, .st rfl rfl, requestsOnly_singleton⟩
  | onByteReceived => exact ⟨.st 0, .st rfl rfl, requestsOnly_singleton⟩

/-- Settles O54: each operation's word is read back as itself, and requests that operation alone. -/
theorem decodeOfEncodeIsTheOperation : Obligations.DecodeOfEncodeIsTheOperation := by
  intro i
  obtain ⟨p, hp, hr⟩ := encodedAs_requestsOnly i
  exact ⟨fun h => hp.decodeTableWord.trans (hr.first h), p.bundle, hp.decode_encode, hr.mem, hr.only⟩

/-! ### Mnemonics (R55) and sample words -/

/-- Setting bits in two orders is the same. -/
theorem foldr_or_perm {α : Type} {n : Nat} {f : α → BitVec n} {l k : List α} (h : l.Perm k) :
    l.foldr (fun m w => f m ||| w) 0 = k.foldr (fun m w => f m ||| w) 0 :=
  h.foldr_eq' (fun x _ y _ z => by rw [← BitVec.or_assoc, ← BitVec.or_assoc, BitVec.or_comm (f y)]) 0

/-- Settles O59: the bits of the mnemonics are joined by "or". -/
theorem mnemonicOrderHasNoMeaning : Obligations.MnemonicOrderHasNoMeaning :=
  ⟨fun _ _ h => foldr_or_perm h, fun _ _ h => foldr_or_perm h⟩

/-- Settles O58, by decoding the eight words. -/
theorem sampleWordsDecode : Obligations.SampleWordsDecode := by
  unfold Obligations.SampleWordsDecode
  decide

/-! ### The word a step performs -/

namespace Machine

variable {s : State} {rest : List Request}

theorem step_invoke (h : s.requests = .invoke :: rest) : step s = invokeBySt (beginCw (s.setRequests rest)) := by
  simp only [step, sample, h, serve]

theorem placeSt_st (s : State) (w : StWord) : (placeSt s w).st = w := by
  have hw : stWordOf w[1] w[0] = w := by
    revert w
    decide
  unfold placeSt
  split_ifs with h
  · exact (congrArg (stWordOf · w[0]) h.symm).trans hw
  · exact (congrArg (stWordOf · w[0]) (Bool.eq_false_iff.2 h).symm).trans hw

theorem placeSt_requests (s : State) (w : StWord) : (placeSt s w).requests = s.requests := by
  unfold placeSt
  split_ifs <;> rfl

theorem step_withFetchWord_cw (s : State) (w : CwWord) : step (s.withFetchWord 22 w.toNat) =
    runBundle (decodeCw w) (beginCw (s.setRequests (s.requests.drop 1))) := by
  have h : s.withFetchWord 22 w.toNat = placeRequest s (.cw w) := by
    simp only [State.withFetchWord, placeWord, show bytesFor 22 = 3 from rfl, readWord_cw]
  rw [h]
  exact step_cw rfl

theorem step_withFetchWord_rb (s : State) (w : RbWord) : step (s.withFetchWord 11 w.toNat) =
    runBundle (decodeRb w) (beginRb (s.setRequests (s.requests.drop 1))) := by
  have h : s.withFetchWord 11 w.toNat = placeRequest s (.rb w) := by
    simp only [State.withFetchWord, placeWord, show bytesFor 11 = 2 from rfl, readWord_rb]
  rw [h]
  exact step_rb rfl

theorem step_withFetchWord_st (s : State) (w : StWord) : step (s.withFetchWord 2 w.toNat) =
    invokeBySt (beginCw ((placeSt s w).setRequests (s.requests.drop 1))) := by
  have h : s.withFetchWord 2 w.toNat = placeRequest (placeSt s w) .invoke := by
    simp only [State.withFetchWord, placeWord, show bytesFor 2 = 1 from rfl, readWord_st]
  rw [h, ← placeSt_requests s w]
  exact step_invoke rfl

/-- Settles O57: a step serves the request at the head, and a placed word is read back and put there. -/
theorem stepRunsTheDecodedOperations : Obligations.StepRunsTheDecodedOperations :=
  ⟨fun _ _ _ => step_cw, fun _ _ _ => step_rb, step_withFetchWord_cw, step_withFetchWord_rb, fun _ _ => step_invoke,
    fun s w => ⟨placeSt_st s w, step_withFetchWord_st s w⟩⟩

end Machine
end Sys2Proof
end

section
/-! The statements about single operations: the two resets (10_state.md R28, R29; 44_core_cycle.md R111), the ring-buffer
operations (40_ringbuffer.md R61 to R66), the transmit and receive paths (41_transmit_path.md R76, R77; 42_receive_path.md
R86, R87), the dispatcher (43_dispatcher.md R93 to R100) and the agents (60_exceptions.md R131). -/

namespace Sys2Proof.Machine

variable {s t : State} {rest : List Request}

/-! ### The reset state (R28) -/

theorem RingBuffer.fresh_storeOk (n : Nat) : (RingBuffer.fresh n).StoreOk :=
  ⟨Memory.nil_wf, fun _ hc => absurd hc List.not_mem_nil⟩

theorem RingBuffer.fresh_good {n : Nat} (h : 2 ≤ n) : (RingBuffer.fresh n).Good :=
  RingBuffer.init_good (b := RingBuffer.fresh n) (decide_eq_true h)

/-- Settles O1: the reset state is written out. -/
theorem resetLeavesTheSpecsValues : Obligations.ResetLeavesTheSpecsValues :=
  fun _ _ _ => ⟨rfl, rfl, rfl, rfl, rfl, rfl, rfl, rfl, rfl, rfl⟩

/-- Settles O2: fresh buffers of two slots or more are good, and nothing is buffered or received. -/
theorem resetMeetsTheInvariant : Obligations.ResetMeetsTheInvariant := fun _ _ _ htx hrx hrb =>
  { stores :=
      { tx := RingBuffer.fresh_storeOk _, rx := RingBuffer.fresh_storeOk _, rb := RingBuffer.fresh_storeOk _
        txSlots := decide_eq_true htx, rxSlots := decide_eq_true hrx, rbSlots := decide_eq_true hrb }
    core := fun _ =>
      ⟨RingBuffer.fresh_good htx, RingBuffer.fresh_good hrx, fun _ => rfl, fun h => absurd h Bool.false_ne_true⟩
    rb := fun _ => RingBuffer.fresh_good hrb }

/-- Settles O7: the reset writes the indices, `active`, the flags and the mark. -/
theorem coreInitResult : Obligations.CoreInitResult := fun _ => rfl

/-- Settles O8: INIT writes the two indices and the mark. -/
theorem initResult : Obligations.InitResult := fun _ => rfl

/-! ### Before the first reset, and on ill-formed buffers -/

/-- Every operation of CORE but its reset begins with the check of the block. -/
theorem exec_eq_coreChecked {i : Instr} (hf : i.format ≠ .rb) (hi : i ≠ .coreInit) (s : State) :
    ∃ o : Res State, exec i s = coreChecked s o := by
  cases i with
  | init | isEmpty | isFull | tryPush | tryPop | rbNop => exact absurd rfl hf
  | coreInit => exact absurd rfl hi
  | dispatch | enqueue | dequeue | uTxrdy | uRxbyte | nop | onTransmitReady | onByteReceived => exact ⟨_, rfl⟩

/-- The same for the stand-alone ring buffer. -/
theorem exec_eq_rbChecked {i : Instr} (hf : i.format = .rb) (hi : i ≠ .init) (s : State) :
    ∃ o : Res State, exec i s = rbChecked s o := by
  cases i with
  | init => exact absurd rfl hi
  | isEmpty | isFull | tryPush | tryPop | rbNop => exact ⟨_, rfl⟩
  | coreInit | dispatch | enqueue | dequeue | uTxrdy | uRxbyte | nop | onTransmitReady | onByteReceived => cases hf

theorem exec_before_coreReset {i : Instr} (hc : s.coreReset = false) (hf : i.format ≠ .rb) (hi : i ≠ .coreInit) :
    exec i s = .refused .beforeReset := by
  obtain ⟨o, ho⟩ := exec_eq_coreChecked hf hi s
  exact ho.trans (coreChecked_before_reset hc o)

theorem exec_before_rbReset {i : Instr} (hr : s.rbReset = false) (hf : i.format = .rb) (hi : i ≠ .init) :
    exec i s = .refused .beforeReset := by
  obtain ⟨o, ho⟩ := exec_eq_rbChecked hf hi s
  exact ho.trans (rbChecked_before_reset hr o)

/-- Settles O6: every operation but the two resets begins with the check of its block. -/
theorem illFormedBuffersAreRefused : Obligations.IllFormedBuffersAreRefused := by
  constructor
  · intro s i hc hs hf hi
    obtain ⟨o, ho⟩ := exec_eq_coreChecked hf hi s
    rw [ho]
    simp [coreChecked, hc, hs]
  · intro s i hr hs hf hi
    obtain ⟨o, ho⟩ := exec_eq_rbChecked hf hi s
    rw [ho]
    simp [rbChecked, hr, hs]

/-- A bundle whose operations are all refused is refused. -/
theorem runBundle_refused {is : List Instr} {r : Refusal} (hne : is ≠ []) (h : ∀ i ∈ is, exec i s = .refused r) :
    runBundle is s = .refused r := by
  cases is with
  | nil => exact absurd rfl hne
  | cons i is => rw [runBundle_cons, h i List.mem_cons_self, andThen_refused]

theorem decodeCw_ne_nil (w : CwWord) : decodeCw w ≠ [] := by
  intro h
  have hw := decodeCw_wf w
  rw [h] at hw
  exact absurd hw (by decide)

theorem decodeRb_ne_nil (w : RbWord) : decodeRb w ≠ [] := by
  intro h
  have hw := decodeRb_wf w
  rw [h] at hw
  exact absurd hw (by decide)

theorem not_mem_decodeCw_of_rst {w : CwWord} (h : (cwFields w).rst = false) : Instr.coreInit ∉ decodeCw w := by
  simp [decodeCw_rows, h]

theorem not_mem_decodeRb_of_rst {w : RbWord} (h : (rbFields w).rst = false) : Instr.init ∉ decodeRb w := by
  simp [decodeRb_rows, h]

theorem beginCw_coreReset (s : State) : (beginCw s).coreReset = s.coreReset := by
  unfold beginCw
  split_ifs <;> rfl

theorem beginRb_rbReset (s : State) : (beginRb s).rbReset = s.rbReset := by
  unfold beginRb
  split_ifs <;> rfl

theorem format_of_mayPerform {a : Agent} {i : Instr} (h : mayPerform a i = true) : i.format ≠ .rb := by
  intro hf
  cases i with
  | init | isEmpty | isFull | tryPush | tryPop | rbNop => cases h
  | coreInit | dispatch | enqueue | dequeue | uTxrdy | uRxbyte | nop | onTransmitReady | onByteReceived => cases hf

/-! ### The two forms of an invocation (R58, R94 to R97) -/

theorem andThen_coreChecked {α β : Type} (s : State) (o : Res α) (f : α → Res β) :
    andThen (coreChecked s o) f = coreChecked s (andThen o f) := by
  unfold coreChecked
  split_ifs <;> rfl

theorem decodeSt_of_txr (h : s.txr = true) : decodeSt s.st = [.onTransmitReady] := by
  unfold State.st
  rw [h]
  cases s.rxf <;> decide

theorem decodeSt_of_not_txr (h : s.txr = false) : decodeSt s.st = [.onByteReceived] := by
  unfold State.st
  rw [h]
  cases s.rxf <;> decide

/-- Settles O30: ST selects the branch by its bit `TXR`, and the check of the operation is the check of the invocation. -/
theorem stDecodeAgreesWithTheBranch : Obligations.StDecodeAgreesWithTheBranch := by
  intro s
  cases h : s.txr with
  | true =>
    simp only [invokeBySt, decodeSt_of_txr h, invoke, h, if_true]
    exact andThen_coreChecked s _ _
  | false =>
    simp only [invokeBySt, decodeSt_of_not_txr h, invoke, h]
    refine (andThen_coreChecked s _ _).trans (congrArg (coreChecked s) ?_)
    exact andThen_assoc (readRxdata s) _ _

/-! ### Calls and their agents (R131) -/

theorem step_call {a : Agent} {i : Instr} (h : s.requests = .call a i :: rest) :
    step s = if mayPerform a i then callMeaning i (beginCw (s.setRequests rest)) else .refused .wrongAgent := by
  simp only [step, sample, h, serve, callOp]

theorem step_call_dispatch (h : s.requests = .call .int .dispatch :: rest) :
    step s = invokeBySt (beginCw (s.setRequests rest)) := step_call h

theorem mayPerform_iff_eq {a x : Agent} {i : Instr} (h : agentOf i = some x) : mayPerform a i = true ↔ a = x := by
  rw [mayPerform, h, beq_iff_eq, Option.some.injEq, eq_comm]

/-- Settles O60: a call is tested against the agent listed, and only DISPATCH means more than its row. -/
theorem agentsPerformOnlyTheirOperations : Obligations.AgentsPerformOnlyTheirOperations := by
  constructor
  · intro s a i rest hq
    rw [step_call hq]
    refine ⟨fun h hi => ?_, fun h hi => ?_, fun h => ?_⟩
    · rw [if_pos h, callMeaning, if_neg hi]
    · rw [if_pos h, callMeaning, if_pos hi]
    · rw [if_neg (Bool.eq_false_iff.1 h)]
  · intro a b
    exact ⟨mayPerform_iff_eq rfl, mayPerform_iff_eq rfl, mayPerform_iff_eq rfl, mayPerform_iff_eq rfl,
      mayPerform_iff_eq rfl, mayPerform_iff_eq rfl, mayPerform_iff_eq rfl, mayPerform_iff_eq rfl⟩

/-- Settles O5: without the mark every operation but the reset is refused, and the reset sets the mark. -/
theorem onlyAResetRunsBeforeTheFirstReset : Obligations.OnlyAResetRunsBeforeTheFirstReset := by
  have hbegin {s : State} (rest : List Request) (hc : s.coreReset = false) :
      (beginCw (s.setRequests rest)).coreReset = false := (beginCw_coreReset _).trans hc
  have hinvoke {s : State} (rest : List Request) (hc : s.coreReset = false) :
      invokeBySt (beginCw (s.setRequests rest)) = .refused .beforeReset := by
    rw [stDecodeAgreesWithTheBranch, coreChecked_before_reset (hbegin rest hc)]
  refine ⟨fun s w rest hc hq => ⟨fun hrst => ?_, fun hrst => ?_⟩, fun s w rest hr hq => ⟨fun hrst => ?_, fun hrst => ?_⟩,
    fun s rest hc hq => (step_invoke hq).trans (hinvoke rest hc),
    fun s a i rest hc hq ha => ⟨fun hi => ?_, fun hi => ?_⟩⟩
  · rw [step_cw hq]
    refine runBundle_refused (decodeCw_ne_nil w) fun i hm => exec_before_coreReset (hbegin rest hc) ?_ ?_
    · rw [decodeCw_format w i hm]; decide
    · exact ne_of_mem_of_not_mem hm (not_mem_decodeCw_of_rst hrst)
  · rw [step_cw hq, decodeCw_of_rst hrst]
    exact ⟨_, rfl, rfl⟩
  · rw [step_rb hq]
    refine runBundle_refused (decodeRb_ne_nil w) fun i hm => exec_before_rbReset ((beginRb_rbReset _).trans hr) ?_ ?_
    · exact decodeRb_format w i hm
    · exact ne_of_mem_of_not_mem hm (not_mem_decodeRb_of_rst hrst)
  · rw [step_rb hq, decodeRb_of_rst hrst]
    exact ⟨_, rfl, rfl⟩
  · rw [step_call hq, if_pos ha, callMeaning]
    split_ifs
    · exact hinvoke rest hc
    · exact exec_before_coreReset (hbegin rest hc) (format_of_mayPerform ha) hi
  · subst hi
    rw [step_call hq, if_pos ha]
    exact ⟨_, rfl, rfl⟩

/-! ### A pop and a push by the indices (R62 to R65) -/

theorem RingBuffer.empty_eq_false_iff {b : RingBuffer} : b.empty = false ↔ b.writeIndex ≠ b.readIndex :=
  beq_eq_false_iff_ne

theorem RingBuffer.full_eq_false_iff {b : RingBuffer} : b.full = false ↔ adv b.slots b.writeIndex ≠ b.readIndex :=
  beq_eq_false_iff_ne

theorem RingBuffer.tryPop_of_loaded {b : RingBuffer} {v : Byte} (he : b.empty = false)
    (hv : b.mem.read b.loadSlot = some v) : b.tryPop = .next (b.drop, some v) := by
  simp [RingBuffer.tryPop, he, hv]

theorem RingBuffer.tryPop_of_unwritten {b : RingBuffer} (he : b.empty = false) (hv : b.mem.read b.loadSlot = none) :
    b.tryPop = .fault .slotNeverWritten := by
  simp [RingBuffer.tryPop, he, hv]

theorem exec_tryPush_of_ready (v : Byte) (h : s.RbReady) : exec (.tryPush v) s =
    .next ((s.setRb (s.rb.tryPush v).1).setRbOut { s.rbOut with wrOk := (s.rb.tryPush v).2 }) :=
  rbChecked_of_ready h _

theorem exec_tryPop_of_ready (h : s.RbReady) : exec .tryPop s =
    andThen s.rb.tryPop fun r => .next (showPop (s.setRb r.1) r.2) :=
  rbChecked_of_ready h _

/-- Settles O9: each observer writes its condition to its pin. -/
theorem isEmptyAndIsFullResults : Obligations.IsEmptyAndIsFullResults :=
  fun _ h => ⟨rbChecked_of_ready h _, rbChecked_of_ready h _⟩

/-- Settles O10: by whether the advanced write index meets the read index. -/
theorem tryPushResult : Obligations.TryPushResult := by
  intro s v h
  rw [exec_tryPush_of_ready v h]
  refine ⟨fun hf => ?_, fun hf => ⟨s.rb.mem.write s.rb.storeSlot v, ?_, Memory.read_write_same _ _ _,
    fun _ ha => Memory.read_write_other _ _ ha⟩⟩
  · rw [RingBuffer.tryPush_of_full v (RingBuffer.full_iff.2 hf)]
    rfl
  · rw [RingBuffer.tryPush_of_not_full v (RingBuffer.full_eq_false_iff.2 hf)]
    rfl

/-- Settles O11: by whether the indices are equal, and whether the slot of the read index has been written. -/
theorem tryPopResult : Obligations.TryPopResult := by
  intro s h
  rw [exec_tryPop_of_ready h]
  refine ⟨fun he => ?_, fun he v hv => ?_, fun he hv => ?_⟩
  · rw [RingBuffer.tryPop_of_empty (RingBuffer.empty_iff.2 he)]
    rfl
  · rw [RingBuffer.tryPop_of_loaded (RingBuffer.empty_eq_false_iff.2 he) hv]
    rfl
  · rw [RingBuffer.tryPop_of_unwritten (RingBuffer.empty_eq_false_iff.2 he) hv]
    rfl

/-! ### A push and a pop in one cycle (R66) -/

theorem isSome_head?_contents {b : RingBuffer} (h : b.Good) : b.contents.head?.isSome = !b.empty := by
  rw [empty_eq_isEmpty h]
  cases b.contents <;> rfl

/-- A push after a pop that took an element makes a full buffer full again. -/
theorem full_store_of_full {b c : RingBuffer} (v : Byte) (hb : b.Good) (hc : c.Good) (hs : c.slots = b.slots)
    (ht : c.contents = b.contents.tail) (hn : c.full = false) (hf : b.full = true) : (c.store v).full = true := by
  have hcount := (RingBuffer.full_iff_count hb.shape).1 hf
  obtain ⟨hslots, _, _⟩ := RingBuffer.shapeOk_iff.1 hb.shape
  have htail : c.count = b.count - 1 := by
    rw [← contents_length hc, ht, List.length_tail, contents_length hb]
  rw [RingBuffer.full_iff_count (RingBuffer.store_shapeOk v hc.shape), RingBuffer.count_store v hc.shape hn,
    RingBuffer.store_slots, hs, htail, hcount]
  omega

theorem runBundle_singleton (i : Instr) : runBundle [i] = exec i := funext fun _ => andThen_runBundle_nil _

/-- A cycle with a push and a pop: the observers change nothing, then the pop, then the push. -/
theorem rbCycle_pop_push {w : RbWord} (h : s.RbReady) (hrst : (rbFields w).rst = false)
    (hwr : (rbFields w).wrEn = true) (hrd : (rbFields w).rdEn = true) :
    rbCycle w s = andThen (exec .tryPop (beginRb s)) (exec (.tryPush (rbFields w).wrData)) := by
  have hr := beginRb_ready h
  have hp := beginRb_shows_status h
  simp [rbCycle, decodeRb_eq, hrst, hwr, hrd, exec_isEmpty_of_shown hr hp, exec_isFull_of_shown hr hp,
    runBundle_singleton]

/-- Its result, when the pop leaves room: every pin and the buffer (R53, R66). -/
theorem rbCycle_pop_push_next {w : RbWord} {c : RingBuffer} {v : Option Byte} (h : s.RbReady)
    (hrst : (rbFields w).rst = false) (hwr : (rbFields w).wrEn = true) (hrd : (rbFields w).rdEn = true)
    (hpop : s.rb.tryPop = .next (c, v)) (hc : c.shapeOk = true) (hf : c.full = false) :
    rbCycle w s = .next ((s.setRb (c.store (rbFields w).wrData)).setRbOut
      ⟨true, v.isSome, v.getD Byte.idle, s.rbStatus⟩) := by
  have hready : (s.setRbOut (RbOut.inactive s.rbStatus)).RbReady := ⟨h.reset, h.rb⟩
  have hready' : (showPop ((s.setRbOut (RbOut.inactive s.rbStatus)).setRb c) v).RbReady := ⟨h.reset, hc⟩
  have hpush := exec_tryPush_of_ready (rbFields w).wrData hready'
  rw [showPop_rb, State.setRb_rb, RingBuffer.tryPush_of_not_full _ hf] at hpush
  rw [rbCycle_pop_push h hrst hwr hrd, beginRb_of_reset h.reset, exec_tryPop_of_ready hready, State.setRbOut_rb, hpop]
  exact hpush

/-- Settles O20: the pop returns the head and leaves room, so the push is accepted. -/
theorem popThenPushInOneCycle : Obligations.PopThenPushInOneCycle := by
  intro s w rest hi hr hq hrst hwr hrd
  have hg := hi.rb hr
  obtain ⟨c, hpop, hcg, hcs, hct, hcf⟩ := tryPop_head hg
  have hcycle := rbCycle_pop_push_next (s := s.setRequests rest) ⟨hr, hg.shape⟩ hrst hwr hrd hpop hcg.shape hcf
  refine ⟨_, (step_rb hq).trans hcycle, ?_, ?_, full_store_of_full (rbFields w).wrData hg hcg hcs hct hcf⟩
  · rw [← isSome_head?_contents hg, List.headD_eq_head?_getD]
    rfl
  · exact (contents_store _ hcg hcf).trans (by rw [hct])

/-! ### The transmit path by the indices (R76, R77) -/

theorem onTransmitReady_of_empty (he : s.tx.empty = true) : onTransmitReady s = .next (s.setActive false) := by
  simp [onTransmitReady, RingBuffer.tryPop_of_empty he]

theorem onTransmitReady_of_loaded {b : Byte} (he : s.tx.empty = false) (hb : s.tx.mem.read s.tx.loadSlot = some b) :
    onTransmitReady s = .next (emitTxWrite ((s.setTx s.tx.drop).setTxdata b) b) := by
  simp [onTransmitReady, RingBuffer.tryPop_of_loaded he hb]

theorem onTransmitReady_of_unwritten (he : s.tx.empty = false) (hb : s.tx.mem.read s.tx.loadSlot = none) :
    onTransmitReady s = .fault .slotNeverWritten := by
  simp [onTransmitReady, RingBuffer.tryPop_of_unwritten he hb]

theorem enqueue_of_full (b : Byte) (hf : s.tx.full = true) : enqueue s b = (s, .rejected) := by
  simp [enqueue, RingBuffer.tryPush_of_full b hf]

theorem enqueue_of_not_full (b : Byte) (hf : s.tx.full = false) :
    enqueue s b = (startIfIdle (s.setTx (s.tx.store b)), .ok) := by
  simp [enqueue, RingBuffer.tryPush_of_not_full b hf]

/-- What starting the path writes, whether or not it was idle. -/
theorem startIfIdle_eq (s : State) : startIfIdle s = { s with active := true, txr := s.txr || !s.active } := by
  cases s with | mk tx rx active => cases active <;> simp [startIfIdle, arm, State.setActive, State.setTxr]

theorem exec_enqueue_of_ready (b : Byte) (h : s.CoreReady) : exec (.enqueue b) s =
    .next ((enqueue s b).1.setOut { (enqueue s b).1.out with enqOk := decide ((enqueue s b).2 = .ok) }) :=
  coreChecked_of_ready h _

/-- Settles O21: by whether the advanced write index meets the read index. -/
theorem enqueueResult : Obligations.EnqueueResult := by
  intro s b h
  rw [exec_enqueue_of_ready b h]
  refine ⟨fun hf => ?_, fun hf => ⟨s.tx.mem.write s.tx.storeSlot b, ?_, Memory.read_write_same _ _ _,
    fun _ ha => Memory.read_write_other _ _ ha⟩⟩
  · rw [enqueue_of_full b (RingBuffer.full_iff.2 hf)]
    rfl
  · rw [enqueue_of_not_full b (RingBuffer.full_eq_false_iff.2 hf), startIfIdle_eq]
    rfl

theorem exec_onTransmitReady_of_ready (h : s.CoreReady) : exec .onTransmitReady s = onTransmitReady s :=
  coreChecked_of_ready h _

/-- Settles O22: by whether the indices are equal, and whether the slot of the read index has been written. -/
theorem onTransmitReadyResult : Obligations.OnTransmitReadyResult := by
  intro s h
  rw [exec_onTransmitReady_of_ready h]
  exact ⟨fun he => onTransmitReady_of_empty (RingBuffer.empty_iff.2 he),
    fun he _ hb => onTransmitReady_of_loaded (RingBuffer.empty_eq_false_iff.2 he) hb,
    fun he hb => onTransmitReady_of_unwritten (RingBuffer.empty_eq_false_iff.2 he) hb⟩

/-! ### The receive path by the indices (R86, R87) -/

theorem readRxdata_of_written (h : s.rxdataWritten = true) : readRxdata s = .next s.rxdata := if_pos h

theorem readRxdata_of_unwritten (h : s.rxdataWritten = false) : readRxdata s = .fault .rxdataNeverWritten :=
  if_neg (Bool.eq_false_iff.1 h)

theorem onByteReceived_of_full (b : Byte) (hf : s.rx.full = true) : onByteReceived s b = emitRxDrop s := by
  simp [onByteReceived, RingBuffer.tryPush_of_full b hf]

theorem onByteReceived_of_not_full (b : Byte) (hf : s.rx.full = false) :
    onByteReceived s b = s.setRx (s.rx.store b) := by
  simp [onByteReceived, RingBuffer.tryPush_of_not_full b hf]

theorem exec_dequeue_of_ready (h : s.CoreReady) : exec .dequeue s =
    andThen (dequeue s) fun r => .next (showDequeue r.1 r.2) :=
  coreChecked_of_ready h _

/-- Settles O25: by whether the indices are equal, and whether the slot of the read index has been written. -/
theorem dequeueResult : Obligations.DequeueResult := by
  intro s h
  rw [exec_dequeue_of_ready h, dequeue]
  refine ⟨fun he => ?_, fun he b hb => ?_, fun he hb => ?_⟩
  · rw [RingBuffer.tryPop_of_empty (RingBuffer.empty_iff.2 he)]
    rfl
  · rw [RingBuffer.tryPop_of_loaded (RingBuffer.empty_eq_false_iff.2 he) hb]
    rfl
  · rw [RingBuffer.tryPop_of_unwritten (RingBuffer.empty_eq_false_iff.2 he) hb]
    rfl

theorem exec_onByteReceived_of_ready (h : s.CoreReady) : exec .onByteReceived s =
    andThen (readRxdata s) fun b => .next (onByteReceived s b) :=
  coreChecked_of_ready h _

/-- Settles O26: by whether `RXDATA` has been written, and whether the advanced write index meets the read index. -/
theorem onByteReceivedResult : Obligations.OnByteReceivedResult := by
  intro s h
  rw [exec_onByteReceived_of_ready h]
  refine ⟨fun hw => ?_, fun hw hf => ?_, fun hw hf => ⟨s.rx.mem.write s.rx.storeSlot s.rxdata, ?_,
    Memory.read_write_same _ _ _, fun _ ha => Memory.read_write_other _ _ ha⟩⟩
  · rw [readRxdata_of_unwritten hw, andThen_fault]
  · rw [readRxdata_of_written hw, andThen_next, onByteReceived_of_full _ (RingBuffer.full_iff.2 hf)]
    rfl
  · rw [readRxdata_of_written hw, andThen_next, onByteReceived_of_not_full _ (RingBuffer.full_eq_false_iff.2 hf)]
    rfl

/-! ### The dispatcher by the flags (R93 to R100) -/

theorem exec_dispatch_of_no_flag (h : s.CoreReady) (hx : s.txr = false) (hf : s.rxf = false) :
    exec .dispatch s = .next s :=
  (coreChecked_of_ready h _).trans (by simp [State.irq, hx, hf])

theorem exec_dispatch_of_txr (h : s.CoreReady) (hx : s.txr = true) : exec .dispatch s = txBranch s :=
  (coreChecked_of_ready h _).trans (by simp [State.irq, invoke, hx])

theorem exec_dispatch_of_rxf (h : s.CoreReady) (hx : s.txr = false) (hf : s.rxf = true) : exec .dispatch s = rxBranch s :=
  (coreChecked_of_ready h _).trans (by simp [State.irq, invoke, hx, hf])

/-- Settles O27: with `TXR` set the row is the transmit-ready branch, ON_TRANSMIT_READY and the clear of the flag. -/
theorem dispatchTransmitBranchResult : Obligations.DispatchTransmitBranchResult := by
  intro s h
  refine ⟨exec_dispatch_of_no_flag h, fun hx he => ?_, fun hx he b hb => ?_, fun hx he hb => ?_⟩
  · rw [exec_dispatch_of_txr h hx, txBranch, onTransmitReady_of_empty (RingBuffer.empty_iff.2 he)]
    rfl
  · rw [exec_dispatch_of_txr h hx, txBranch, onTransmitReady_of_loaded (RingBuffer.empty_eq_false_iff.2 he) hb]
    rfl
  · rw [exec_dispatch_of_txr h hx, txBranch, onTransmitReady_of_unwritten (RingBuffer.empty_eq_false_iff.2 he) hb]
    rfl

/-- Settles O28: with only `RXF` set the row is the byte-received branch, ON_BYTE_RECEIVED and the clear of the flag. -/
theorem dispatchReceiveBranchResult : Obligations.DispatchReceiveBranchResult := by
  intro s h hx hf
  rw [exec_dispatch_of_rxf h hx hf, rxBranch]
  refine ⟨fun hw => ?_, fun hw hl => ?_, fun hw hl => ⟨s.rx.mem.write s.rx.storeSlot s.rxdata, ?_,
    Memory.read_write_same _ _ _, fun _ ha => Memory.read_write_other _ _ ha⟩⟩
  · rw [readRxdata_of_unwritten hw, andThen_fault]
  · rw [readRxdata_of_written hw, andThen_next, onByteReceived_of_full _ (RingBuffer.full_iff.2 hl)]
    rfl
  · rw [readRxdata_of_written hw, andThen_next, onByteReceived_of_not_full _ (RingBuffer.full_eq_false_iff.2 hl)]
    rfl

theorem step_invocation {r : Request} (hr : r = .invoke ∨ r = .call .int .dispatch) (h : s.CoreReady)
    (hq : s.requests = r :: rest) : step s = invoke (beginCw (s.setRequests rest)) := by
  have hready : (beginCw (s.setRequests rest)).CoreReady := beginCw_ready ⟨h.reset, h.tx, h.rx⟩
  rw [← coreChecked_of_ready hready (invoke _), ← stDecodeAgreesWithTheBranch]
  rcases hr with rfl | rfl
  · exact step_invoke hq
  · exact step_call_dispatch hq

/-- Settles O29: an invocation with `TXR = 0` is the byte-received branch, and `RXF` is not tested. -/
theorem invocationWithNeitherFlagSet : Obligations.InvocationWithNeitherFlagSet := by
  intro s r rest hr h hq hx hf
  have hbegin := beginCw_of_reset (s := s.setRequests rest) h.reset
  have hstep : step s = rxBranch (beginCw (s.setRequests rest)) := by
    rw [step_invocation hr h hq, hbegin]
    exact if_neg (Bool.eq_false_iff.1 hx)
  rw [hstep, rxBranch]
  refine ⟨fun hw => ?_, fun hw hl => ?_, fun hw hl => ?_⟩
  · rw [readRxdata_of_unwritten (hbegin ▸ hw), andThen_fault]
  · rw [readRxdata_of_written (hbegin ▸ hw), andThen_next, onByteReceived_of_not_full _ (hbegin ▸ hl), hbegin]
    exact ⟨_, rfl, rfl, rfl, Memory.read_write_same _ _ _, fun _ ha => Memory.read_write_other _ _ ha,
      hx, rfl, rfl, rfl, rfl, rfl⟩
  · rw [readRxdata_of_written (hbegin ▸ hw), andThen_next, onByteReceived_of_full _ (hbegin ▸ hl), hbegin]
    exact ⟨_, rfl, rfl, rfl, rfl, rfl, rfl, hf.symm, rfl, rfl⟩

/-- Settles O32: each event writes its registers. -/
theorem uartEventResults : Obligations.UartEventResults :=
  fun _ _ h => ⟨coreChecked_of_ready h _, coreChecked_of_ready h _⟩

end Sys2Proof.Machine
end

section
/-! The statements about who writes what: `active` (10_state.md R19), the flags and the data registers (R22 to R24), and
the blocks and paths that leave each other alone (20_memory.md R30, 40_ringbuffer.md R71). -/

namespace Sys2Proof.Machine

variable {s t : State} {i : Instr}

/-! ### What an operation can do to the registers of CORE besides its buffers -/

/-- The state of CORE besides its two buffers (R10). -/
structure Registers where
  active : Bool
  txr : Bool
  rxf : Bool
  txdata : Byte
  rxdata : Byte

/-- These registers of a state. -/
def State.registers (s : State) : Registers := ⟨s.active, s.txr, s.rxf, s.txdata, s.rxdata⟩

/-- What the operation that led from `s` to `t` did to the registers: nothing, or the one thing it is for. -/
inductive RegisterStep (s t : State) : Instr → Prop where
  | kept {i : Instr} (regs : t.registers = s.registers) : RegisterStep s t i
  | coreInit (regs : t.registers = { s.registers with active := false, txr := false, rxf := false }) :
      RegisterStep s t .coreInit
  | start (b : Byte) (idle : s.active = false) (regs : t.registers = { s.registers with active := true, txr := true }) :
      RegisterStep s t (.enqueue b)
  | branchEnds (served : s.txr = true) (empty : s.tx.empty = true) (tx : t.tx = s.tx)
      (regs : t.registers = { s.registers with active := false, txr := false }) : RegisterStep s t .dispatch
  | branchSends (b : Byte) (served : s.txr = true) (regs : t.registers = { s.registers with txr := false, txdata := b }) :
      RegisterStep s t .dispatch
  | branchReceives (unserved : s.txr = false) (regs : t.registers = { s.registers with rxf := false }) :
      RegisterStep s t .dispatch
  | ends (empty : s.tx.empty = true) (tx : t.tx = s.tx) (regs : t.registers = { s.registers with active := false }) :
      RegisterStep s t .onTransmitReady
  | sends (b : Byte) (regs : t.registers = { s.registers with txdata := b }) : RegisterStep s t .onTransmitReady
  | txReady (regs : t.registers = { s.registers with txr := true }) : RegisterStep s t .uTxrdy
  | received (b : Byte) (regs : t.registers = { s.registers with rxf := true, rxdata := b }) :
      RegisterStep s t (.uRxbyte b)

/-- An operation that answers did one of these things. -/
theorem exec_registerStep (h : exec i s = .next t) : RegisterStep s t i := by
  cases i with
  | init => cases init_next h; exact .kept rfl
  | isEmpty => obtain ⟨_, rfl⟩ := isEmpty_next h; exact .kept rfl
  | isFull => obtain ⟨_, rfl⟩ := isFull_next h; exact .kept rfl
  | tryPush v => rcases tryPush_next h with ⟨_, ⟨_, rfl⟩ | ⟨_, rfl⟩⟩ <;> exact .kept rfl
  | tryPop => rcases tryPop_next h with ⟨_, ⟨_, rfl⟩ | ⟨_, _, _, rfl⟩⟩ <;> exact .kept rfl
  | rbNop => obtain ⟨_, rfl⟩ := rbNop_next h; exact .kept rfl
  | coreInit => cases coreInit_next h; exact .coreInit rfl
  | dispatch =>
    rcases dispatch_next h with
      ⟨_, ⟨_, _, rfl⟩ | ⟨hx, he, rfl⟩ | ⟨hx, _, b, _, rfl⟩ | ⟨hx, _, _, _, rfl⟩ | ⟨hx, _, _, _, rfl⟩⟩
    · exact .kept rfl
    · exact .branchEnds hx he rfl rfl
    · exact .branchSends b hx rfl
    · exact .branchReceives hx rfl
    · exact .branchReceives hx rfl
  | enqueue b =>
    rcases enqueue_next h with ⟨_, ⟨_, rfl⟩ | ⟨_, _, rfl⟩ | ⟨_, ha, rfl⟩⟩
    · exact .kept rfl
    · exact .kept rfl
    · exact .start b ha rfl
  | dequeue => rcases dequeue_next h with ⟨_, ⟨_, rfl⟩ | ⟨_, _, _, rfl⟩⟩ <;> exact .kept rfl
  | uTxrdy => obtain ⟨_, rfl⟩ := uTxrdy_next h; exact .txReady rfl
  | uRxbyte b => obtain ⟨_, rfl⟩ := uRxbyte_next h; exact .received b rfl
  | nop => obtain ⟨_, rfl⟩ := nop_next h; exact .kept rfl
  | onTransmitReady =>
    rcases onTransmitReady_next h with ⟨_, ⟨he, rfl⟩ | ⟨_, b, _, rfl⟩⟩
    · exact .ends he rfl rfl
    · exact .sends b rfl
  | onByteReceived => rcases onByteReceived_next h with ⟨_, _, ⟨_, rfl⟩ | ⟨_, rfl⟩⟩ <;> exact .kept rfl

/-- Settles O45: of the things an operation can do to the registers, one sets `active` and three clear it. -/
theorem activeHasItsTwoWriters : Obligations.ActiveHasItsTwoWriters := by
  intro i s t h
  change (s.registers.active = false → t.registers.active = true → _) ∧
    (s.registers.active = true → t.registers.active = false → _)
  cases exec_registerStep h with
  | kept regs => simp +contextual [regs]
  | coreInit regs => simp [regs]
  | start b idle regs => simp [regs]
  | branchEnds served empty tx regs => simp [regs, empty, tx]
  | branchSends b served regs => simp +contextual [regs]
  | branchReceives unserved regs => simp +contextual [regs]
  | ends empty tx regs => simp [regs, empty, tx]
  | sends b regs => simp +contextual [regs]
  | txReady regs => simp +contextual [regs]
  | received b regs => simp +contextual [regs]

/-- Settles O46: the same for the flags and the data registers. -/
theorem boundaryRegistersHaveTheirWriters : Obligations.BoundaryRegistersHaveTheirWriters := by
  intro i s t h
  change (s.registers.txr = false → t.registers.txr = true → _) ∧
    (s.registers.txr = true → t.registers.txr = false → _) ∧
    (s.registers.rxf = false → t.registers.rxf = true → _) ∧
    (s.registers.rxf = true → t.registers.rxf = false → _) ∧
    (t.registers.txdata ≠ s.registers.txdata → _) ∧
    (t.registers.rxdata ≠ s.registers.rxdata → ∃ b, _ ∧ t.registers.rxdata = b)
  cases exec_registerStep h with
  | kept regs => simp +contextual [regs]
  | coreInit regs => simp [regs]
  | start b idle regs => simp +contextual [regs, idle]
  | branchEnds served empty tx regs => simp +contextual [regs]
  | branchSends b served regs => simp +contextual [regs]
  | branchReceives unserved regs => simp +contextual [regs, unserved]
  | ends empty tx regs => simp +contextual [regs]
  | sends b regs => simp +contextual [regs]
  | txReady regs => simp +contextual [regs]
  | received b regs => simp +contextual [regs]

/-! ### The blocks and the paths -/

/-- The transmit path, and the pins of ENQUEUE and of `TXDATA`, are the same in both. -/
structure SameTx (s t : State) : Prop where
  tx : t.tx = s.tx
  active : t.active = s.active
  txr : t.txr = s.txr
  txdata : t.txdata = s.txdata
  enqOk : t.out.enqOk = s.out.enqOk
  txWrite : t.out.txWrite = s.out.txWrite
  txWdata : t.out.txWdata = s.out.txWdata

/-- The receive path, and the pins of DEQUEUE and of a drop, are the same in both. -/
structure SameRx (s t : State) : Prop where
  rx : t.rx = s.rx
  rxf : t.rxf = s.rxf
  rxdata : t.rxdata = s.rxdata
  deqValid : t.out.deqValid = s.out.deqValid
  deqData : t.out.deqData = s.out.deqData
  rxDrop : t.out.rxDrop = s.out.rxDrop

theorem SameTx.refl (s : State) : SameTx s s := ⟨rfl, rfl, rfl, rfl, rfl, rfl, rfl⟩

theorem SameRx.refl (s : State) : SameRx s s := ⟨rfl, rfl, rfl, rfl, rfl, rfl⟩

theorem dequeue_sameTx (h : exec .dequeue s = .next t) : SameTx s t := by
  obtain ⟨_, ⟨_, rfl⟩ | ⟨_, _, _, rfl⟩⟩ := dequeue_next h <;> exact ⟨rfl, rfl, rfl, rfl, rfl, rfl, rfl⟩

theorem onByteReceived_sameTx (h : exec .onByteReceived s = .next t) : SameTx s t := by
  obtain ⟨_, _, ⟨_, rfl⟩ | ⟨_, rfl⟩⟩ := onByteReceived_next h <;> exact ⟨rfl, rfl, rfl, rfl, rfl, rfl, rfl⟩

theorem uRxbyte_sameTx {b : Byte} (h : exec (.uRxbyte b) s = .next t) : SameTx s t := by
  obtain ⟨_, rfl⟩ := uRxbyte_next h
  exact ⟨rfl, rfl, rfl, rfl, rfl, rfl, rfl⟩

theorem onTransmitReady_sameRx (h : exec .onTransmitReady s = .next t) : SameRx s t := by
  obtain ⟨_, ⟨_, rfl⟩ | ⟨_, _, _, rfl⟩⟩ := onTransmitReady_next h <;> exact ⟨rfl, rfl, rfl, rfl, rfl, rfl⟩

theorem uTxrdy_sameRx (h : exec .uTxrdy s = .next t) : SameRx s t := by
  obtain ⟨_, rfl⟩ := uTxrdy_next h
  exact ⟨rfl, rfl, rfl, rfl, rfl, rfl⟩

theorem enqueue_sameRx {b : Byte} (h : exec (.enqueue b) s = .next t) : SameRx s t := by
  obtain ⟨_, ⟨_, rfl⟩ | ⟨_, _, rfl⟩ | ⟨_, _, rfl⟩⟩ := enqueue_next h <;> exact ⟨rfl, rfl, rfl, rfl, rfl, rfl⟩

/-- An operation of the stand-alone ring buffer leaves CORE and its pins alone. -/
theorem exec_rb_frame (h : exec i s = .next t) (hf : i.format = .rb) :
    SameCore s t ∧ t.out = s.out ∧ t.coreReset = s.coreReset := by
  cases i with
  | init => cases init_next h; exact ⟨⟨rfl, rfl, rfl, rfl, rfl, rfl, rfl⟩, rfl, rfl⟩
  | isEmpty => obtain ⟨_, rfl⟩ := isEmpty_next h; exact ⟨⟨rfl, rfl, rfl, rfl, rfl, rfl, rfl⟩, rfl, rfl⟩
  | isFull => obtain ⟨_, rfl⟩ := isFull_next h; exact ⟨⟨rfl, rfl, rfl, rfl, rfl, rfl, rfl⟩, rfl, rfl⟩
  | tryPush v => rcases tryPush_next h with ⟨_, ⟨_, rfl⟩ | ⟨_, rfl⟩⟩ <;> exact ⟨⟨rfl, rfl, rfl, rfl, rfl, rfl, rfl⟩, rfl, rfl⟩
  | tryPop => rcases tryPop_next h with ⟨_, ⟨_, rfl⟩ | ⟨_, _, _, rfl⟩⟩ <;> exact ⟨⟨rfl, rfl, rfl, rfl, rfl, rfl, rfl⟩, rfl, rfl⟩
  | rbNop => obtain ⟨_, rfl⟩ := rbNop_next h; exact ⟨⟨rfl, rfl, rfl, rfl, rfl, rfl, rfl⟩, rfl, rfl⟩
  | coreInit | dispatch | enqueue | dequeue | uTxrdy | uRxbyte | nop | onTransmitReady | onByteReceived => cases hf

/-- What the operations of CORE leave alone: the stand-alone ring buffer, and the status pins of CORE, which the start of
the cycle has driven. -/
structure CoreFrame (s t : State) : Prop where
  rb : t.rb = s.rb
  rbOut : t.rbOut = s.rbOut
  rbReset : t.rbReset = s.rbReset
  status : t.out.status = s.out.status

theorem exec_core_frame (h : exec i s = .next t) (hf : i.format ≠ .rb) : CoreFrame s t := by
  cases i with
  | init | isEmpty | isFull | tryPush | tryPop | rbNop => exact absurd rfl hf
  | coreInit => cases coreInit_next h; exact ⟨rfl, rfl, rfl, rfl⟩
  | dispatch =>
    rcases dispatch_next h with
      ⟨_, ⟨_, _, rfl⟩ | ⟨_, _, rfl⟩ | ⟨_, _, _, _, rfl⟩ | ⟨_, _, _, _, rfl⟩ | ⟨_, _, _, _, rfl⟩⟩ <;>
    exact ⟨rfl, rfl, rfl, rfl⟩
  | enqueue b =>
    rcases enqueue_next h with ⟨_, ⟨_, rfl⟩ | ⟨_, _, rfl⟩ | ⟨_, _, rfl⟩⟩ <;> exact ⟨rfl, rfl, rfl, rfl⟩
  | dequeue => rcases dequeue_next h with ⟨_, ⟨_, rfl⟩ | ⟨_, _, _, rfl⟩⟩ <;> exact ⟨rfl, rfl, rfl, rfl⟩
  | uTxrdy => obtain ⟨_, rfl⟩ := uTxrdy_next h; exact ⟨rfl, rfl, rfl, rfl⟩
  | uRxbyte b => obtain ⟨_, rfl⟩ := uRxbyte_next h; exact ⟨rfl, rfl, rfl, rfl⟩
  | nop => obtain ⟨_, rfl⟩ := nop_next h; exact ⟨rfl, rfl, rfl, rfl⟩
  | onTransmitReady => rcases onTransmitReady_next h with ⟨_, ⟨_, rfl⟩ | ⟨_, _, _, rfl⟩⟩ <;> exact ⟨rfl, rfl, rfl, rfl⟩
  | onByteReceived => rcases onByteReceived_next h with ⟨_, _, ⟨_, rfl⟩ | ⟨_, rfl⟩⟩ <;> exact ⟨rfl, rfl, rfl, rfl⟩

/-- Settles O48: the frames of the two blocks and of the two paths. -/
theorem theBlocksDoNotInterfere : Obligations.TheBlocksDoNotInterfere := by
  intro i s t h
  refine ⟨exec_rb_frame h, fun hf => ?_, fun hi => ?_, fun hi => ?_⟩
  · have k := exec_core_frame h hf
    exact ⟨k.rb, k.rbOut, k.rbReset⟩
  · have k : SameTx s t := by
      rcases hi with rfl | rfl | ⟨b, rfl⟩
      · exact dequeue_sameTx h
      · exact onByteReceived_sameTx h
      · exact uRxbyte_sameTx h
    exact ⟨k.tx, k.active, k.txr, k.txdata⟩
  · have k : SameRx s t := by
      rcases hi with rfl | rfl | ⟨b, rfl⟩
      · exact onTransmitReady_sameRx h
      · exact uTxrdy_sameRx h
      · exact enqueue_sameRx h
    exact ⟨k.rx, k.rxf, k.rxdata⟩

end Sys2Proof.Machine
end

section
/-! The statements about a cycle of CORE: its status outputs (44_core_cycle.md R110), its results and events (R87, R102),
and the two invocations that serve both flags (43_dispatcher.md R100). -/

namespace Sys2Proof.Machine

variable {s t : State} {w : CwWord}

/-! ### The status outputs (R53, R54, R110) -/

theorem runBundle_status {is : List Instr} (hf : ∀ i ∈ is, i.format ≠ .rb) (h : runBundle is s = .next t) :
    t.out.status = s.out.status :=
  runBundle_keeps (P := fun u => u.out.status = s.out.status)
    (fun i hm _ _ hs e => (exec_core_frame e (hf i hm)).status.trans hs) rfl h

theorem cwCycle_status (hc : s.coreReset = true) (h : cwCycle w s = .next t) : t.out.status = s.coreStatus := by
  rw [runBundle_status (fun i hm => by rw [decodeCw_format w i hm]; decide) h, beginCw_of_reset hc]
  rfl

/-- The operations of a ring-buffer cycle other than the observers drive no status pin. -/
theorem exec_rbOut_status {i : Instr} (h : exec i s = .next t) (hf : i.format = .rb) (ho : i.alwaysOn = false) :
    t.rbOut.status = s.rbOut.status := by
  cases i with
  | isEmpty | isFull => cases ho
  | init => cases init_next h; rfl
  | tryPush v => rcases tryPush_next h with ⟨_, ⟨_, rfl⟩ | ⟨_, rfl⟩⟩ <;> rfl
  | tryPop => rcases tryPop_next h with ⟨_, ⟨_, rfl⟩ | ⟨_, _, _, rfl⟩⟩ <;> rfl
  | rbNop => obtain ⟨_, rfl⟩ := rbNop_next h; rfl
  | coreInit | dispatch | enqueue | dequeue | uTxrdy | uRxbyte | nop | onTransmitReady | onByteReceived => cases hf

theorem runBundle_rbOut_status {is : List Instr} (hf : ∀ i ∈ is, i.format = .rb ∧ i.alwaysOn = false)
    (h : runBundle is s = .next t) : t.rbOut.status = s.rbOut.status :=
  runBundle_keeps (P := fun u => u.rbOut.status = s.rbOut.status)
    (fun i hm _ _ hs e => (exec_rbOut_status e (hf i hm).1 (hf i hm).2).trans hs) rfl h

/-- What a ring-buffer cycle performs besides the reset or the two observers. -/
theorem decodeRb_cases (w : RbWord) : decodeRb w = [.init] ∨
    ∃ is, decodeRb w = .isEmpty :: .isFull :: is ∧ ∀ i ∈ is, i.format = .rb ∧ i.alwaysOn = false := by
  cases hrst : (rbFields w).rst with
  | true => exact .inl (decodeRb_of_rst hrst)
  | false =>
    refine .inr ⟨_, by rw [decodeRb_eq, hrst]; rfl, fun i hm => ?_⟩
    have hi : (rbFields w).rdEn = true ∧ i = .tryPop ∨ (rbFields w).wrEn = true ∧ i = .tryPush (rbFields w).wrData ∨
        ((rbFields w).rdEn = false ∧ (rbFields w).wrEn = false) ∧ i = .rbNop := by simpa using hm
    rcases hi with ⟨_, rfl⟩ | ⟨_, rfl⟩ | ⟨_, rfl⟩ <;> exact ⟨rfl, rfl⟩

theorem rbCycle_status {w : RbWord} (hr : s.rbReset = true) (h : rbCycle w s = .next t) :
    t.rbOut.status = s.rbStatus := by
  have hb : (beginRb s).rbOut.status = s.rbStatus := by rw [beginRb_of_reset hr]; rfl
  rw [rbCycle] at h
  rcases decodeRb_cases w with e | ⟨is, e, hf⟩ <;> rw [e] at h
  · exact (runBundle_rbOut_status (by simp [Instr.format, Instr.alwaysOn]) h).trans hb
  · obtain ⟨u, hu, h⟩ := andThen_eq_next.1 h
    obtain ⟨hready, _⟩ := isEmpty_next hu
    have hshown : (beginRb s).rbOut.status = (beginRb s).rbStatus := by
      rw [beginRb_of_reset hr]
      rfl
    cases hu.symm.trans (exec_isEmpty_of_shown hready hshown)
    rw [runBundle_cons, exec_isFull_of_shown hready hshown, andThen_next] at h
    exact (runBundle_rbOut_status hf h).trans hb

/-- Settles O36: the start of a cycle drives the status pins, and no operation of the cycle drives them anew, except that
the two observers write to theirs what they already show. -/
theorem statusOutputsShowTheStartOfTheCycle : Obligations.StatusOutputsShowTheStartOfTheCycle :=
  ⟨fun _ _ _ => cwCycle_status, fun _ _ _ => rbCycle_status⟩

/-! ### Running states -/

/-- A good state in which CORE has been reset. -/
structure State.Running (s : State) : Prop where
  inv : s.Inv
  reset : s.coreReset = true

theorem State.Running.good (h : s.Running) : s.CoreGood := h.inv.core h.reset

theorem State.Running.ready (h : s.Running) : s.CoreReady := h.inv.coreReady h.reset

theorem State.Running.begin (h : s.Running) : (beginCw s).Running :=
  ⟨beginCw_inv h.inv, (beginCw_kept s).coreReset h.reset⟩

theorem State.Running.exec {i : Instr} (h : s.Running) (e : exec i s = .next t) : t.Running :=
  ⟨exec_inv h.inv e, (exec_kept e).coreReset h.reset⟩

theorem State.Running.execIf {c : Bool} {i : Instr} (h : s.Running) (e : execIf c i s = .next t) : t.Running :=
  execIf_keeps h.exec h e

theorem State.Running.cwCycle (h : s.Running) (e : cwCycle w s = .next t) : t.Running :=
  ⟨runBundle_inv h.begin.inv e, (runBundle_kept e).coreReset h.begin.reset⟩

/-! ### The operations of a cycle on the transmit side -/

/-- The transmit-ready branch, or nothing: the oldest byte goes out, or the path ends, and `TXR` is cleared (R95). -/
structure DispatchTx (c : Bool) (s t : State) : Prop where
  sent : t.out.sent = if c && s.txr then s.tx.contents.head?.toList else s.out.sent
  contents : t.tx.contents = if c && s.txr then s.tx.contents.tail else s.tx.contents
  active : t.active = (s.active && !(c && s.txr && s.tx.empty))
  txr : t.txr = (s.txr && !c)
  txdata : t.out.txWrite = true → s.out.txWrite = true ∨ t.txdata = t.out.txWdata
  enqOk : t.out.enqOk = s.out.enqOk

theorem SameTx.sent (h : SameTx s t) : t.out.sent = s.out.sent := by
  rw [CoreOut.sent, CoreOut.sent, h.txWrite, h.txWdata]

theorem SameTx.dispatchTx {c : Bool} (h : SameTx s t) (hc : (c && s.txr) = false) (hx : t.txr = (s.txr && !c)) :
    DispatchTx c s t where
  sent := by rw [hc, h.sent]; rfl
  contents := by rw [hc, h.tx]; rfl
  active := by simp [hc, h.active]
  txr := hx
  txdata := fun hw => .inl (h.txWrite ▸ hw)
  enqOk := h.enqOk

theorem exec_dispatchTx (h : exec .dispatch s = .next t) (hi : s.Running) (hp : s.out.txWrite = false) :
    DispatchTx true s t := by
  have hg := hi.good.tx
  rcases dispatch_next h with
    ⟨_, ⟨hx, _, rfl⟩ | ⟨hx, he, rfl⟩ | ⟨hx, he, b, hb, rfl⟩ | ⟨hx, _, _, _, rfl⟩ | ⟨hx, _, _, _, rfl⟩⟩
  · exact (SameTx.refl _).dispatchTx (by simp [hx]) (by simp [hx])
  · have hc := contents_empty hg he
    exact ⟨by simp [hx, hc, CoreOut.sent, hp], by simp [hx, hc], by simp [hx, he], by simp, fun hw => .inl hw, rfl⟩
  · have hc := contents_drop hg he hb
    exact ⟨by simp [hx, hc, CoreOut.sent], by simp [hx, hc], by simp [hx, he], by simp, fun _ => .inr rfl, rfl⟩
  · exact SameTx.dispatchTx ⟨rfl, rfl, rfl, rfl, rfl, rfl, rfl⟩ (by simp [hx]) (by simp [hx])
  · exact SameTx.dispatchTx ⟨rfl, rfl, rfl, rfl, rfl, rfl, rfl⟩ (by simp [hx]) (by simp [hx])

theorem execIf_dispatchTx {c : Bool} (h : execIf c .dispatch s = .next t) (hi : s.Running) (hp : s.out.txWrite = false) :
    DispatchTx c s t := by
  cases c with
  | true => exact exec_dispatchTx h hi hp
  | false => cases h; exact (SameTx.refl s).dispatchTx rfl (by simp)

/-- ENQUEUE, or nothing, from pins that show no accepted byte: what the pin `enq_ok` says has happened (R76). -/
structure EnqueueTx (c : Bool) (b : Byte) (s t : State) : Prop where
  enqOk : t.out.enqOk = (c && !s.tx.full)
  contents : t.tx.contents = s.tx.contents ++ if t.out.enqOk then [b] else []
  active : t.active = (s.active || t.out.enqOk)
  txr : t.txr = (s.txr || t.out.enqOk && !s.active)
  txdata : t.txdata = s.txdata
  txWrite : t.out.txWrite = s.out.txWrite
  txWdata : t.out.txWdata = s.out.txWdata

theorem execIf_enqueueTx {c : Bool} {b : Byte} (h : execIf c (.enqueue b) s = .next t) (hi : s.Running)
    (hp : s.out.enqOk = false) : EnqueueTx c b s t := by
  cases c with
  | false => cases h; exact ⟨hp, by simp [hp], by simp [hp], by simp [hp], rfl, rfl, rfl⟩
  | true =>
    obtain ⟨_, ⟨hf, rfl⟩ | ⟨hf, ha, rfl⟩ | ⟨hf, ha, rfl⟩⟩ := enqueue_next h
    · exact ⟨by simp [hf], by simp, by simp, by simp, rfl, rfl, rfl⟩
    · exact ⟨by simp [hf], contents_store b hi.good.tx hf, by simp [ha], by simp [ha], rfl, rfl, rfl⟩
    · exact ⟨by simp [hf], contents_store b hi.good.tx hf, by simp, by simp [ha], rfl, rfl, rfl⟩

/-! ### The transmit side of a cycle -/

/-- The cycle of `w` from `s` takes the transmit-ready branch (R93, R94). -/
def takesTxBranch (w : CwWord) (s : State) : Bool := (cwFields w).ie && s.txr

/-- The transmit path is active after the dispatcher's part of the cycle of `w` from `s`. -/
def activeAfterDispatch (w : CwWord) (s : State) : Bool := s.active && !(takesTxBranch w s && s.tx.empty)

/-- A cycle without reset, from the side of the transmit path: the branch, then ENQUEUE, then U_TXRDY (R106). -/
structure TxCycle (w : CwWord) (s t : State) : Prop where
  sent : t.out.sent = if takesTxBranch w s then s.tx.contents.head?.toList else []
  contents : t.tx.contents = (if takesTxBranch w s then s.tx.contents.tail else s.tx.contents) ++ t.out.accepted w
  active : t.active = (activeAfterDispatch w s || t.out.enqOk)
  txr : t.txr = (s.txr && !(cwFields w).ie || t.out.enqOk && !activeAfterDispatch w s || (cwFields w).uTxrdy)
  txdata : t.out.txWrite = true → t.txdata = t.out.txWdata
  requested : t.out.enqOk = true → (cwFields w).enqReq = true

/-- After its start a cycle has changed no register of the transmit path and drives no result pin. -/
theorem dequeue_of_begin {c : Bool} (hc : s.coreReset = true) (h : execIf c .dequeue (beginCw s) = .next t) :
    SameTx (s.setOut (CoreOut.inactive s.coreStatus)) t :=
  execIf_keeps (P := SameTx _) (fun e => dequeue_sameTx (beginCw_of_reset hc ▸ e))
    (beginCw_of_reset hc ▸ SameTx.refl _) h

theorem execIf_uRxbyte_sameTx {c : Bool} {b : Byte} (h : execIf c (.uRxbyte b) s = .next t) : SameTx s t :=
  execIf_keeps uRxbyte_sameTx (.refl s) h

theorem execIf_uTxrdy_eq {c : Bool} (h : execIf c .uTxrdy s = .next t) : t = s.setTxr (s.txr || c) := by
  cases c with
  | false => cases h; cases s; simp [State.setTxr]
  | true => rw [(uTxrdy_next h).2, Bool.or_true]

theorem cwCycle_tx (hi : s.Running) (hrst : (cwFields w).rst = false) (h : cwCycle w s = .next t) : TxCycle w s t := by
  obtain ⟨s1, s2, s3, s4, h1, h2, h3, h4, h5⟩ := cwCycle_next hi.ready hrst h
  have i1 : s1.Running := hi.begin.execIf h1
  have k1 := dequeue_of_begin hi.reset h1
  have k2 := execIf_dispatchTx h2 i1 k1.txWrite
  have k3 := execIf_enqueueTx h3 (i1.execIf h2) (k2.enqOk.trans k1.enqOk)
  obtain rfl := execIf_uTxrdy_eq h4
  have k5 := execIf_uRxbyte_sameTx h5
  have hok : t.out.enqOk = s3.out.enqOk := k5.enqOk
  have ha1 : s1.active = s.active := k1.active
  have hx1 : s1.txr = s.txr := k1.txr
  have ht1 : s1.tx = s.tx := k1.tx
  have hs1 : s1.out.sent = [] := k1.sent
  have hp1 : s1.out.txWrite = false := k1.txWrite
  have ha2 : s2.active = activeAfterDispatch w s := by rw [k2.active, ha1, hx1, ht1]; rfl
  exact {
    sent := by
      rw [k5.sent, State.setTxr_out, CoreOut.sent, k3.txWrite, k3.txWdata, ← CoreOut.sent, k2.sent, hx1, ht1, hs1]
      rfl
    contents := by rw [k5.tx, State.setTxr_tx, k3.contents, k2.contents, hx1, ht1, CoreOut.accepted, hok]; rfl
    active := by rw [k5.active, State.setTxr_active, k3.active, ha2, hok]
    txr := by rw [k5.txr, State.setTxr_txr, k3.txr, k2.txr, hx1, ha2, hok]
    txdata := fun hw => by
      rw [k5.txWrite, State.setTxr_out, k3.txWrite] at hw
      have hd := (k2.txdata hw).resolve_left (Bool.eq_false_iff.1 hp1)
      rw [k5.txdata, k5.txWdata, State.setTxr_txdata, State.setTxr_out, k3.txdata, k3.txWdata, hd]
    requested := fun hq => by
      rw [hok, k3.enqOk, Bool.and_eq_true] at hq
      exact hq.1 }

/-- What was buffered and then accepted is what was sent and then is buffered (R114). -/
theorem TxCycle.law (h : TxCycle w s t) : s.tx.contents ++ t.out.accepted w = t.out.sent ++ t.tx.contents := by
  rw [h.contents, h.sent]
  cases takesTxBranch w s with
  | false => rfl
  | true => simp only [if_true, ← List.append_assoc, head?_toList_append_tail]

/-! ### The operations of a cycle on the receive side -/

/-- DEQUEUE, or nothing, from pins that show no byte (R87). -/
structure DequeueRx (c : Bool) (s t : State) : Prop where
  deqValid : t.out.deqValid = (c && !s.rx.empty)
  deqData : t.out.deqData = if c then s.rx.contents.headD Byte.idle else Byte.idle
  contents : t.rx.contents = if c then s.rx.contents.tail else s.rx.contents
  full : t.rx.full = (s.rx.full && !c)
  rxf : t.rxf = s.rxf
  rxdata : t.rxdata = s.rxdata
  rxDrop : t.out.rxDrop = s.out.rxDrop

theorem execIf_dequeueRx {c : Bool} (h : execIf c .dequeue s = .next t) (hi : s.Running)
    (hv : s.out.deqValid = false) (hd : s.out.deqData = Byte.idle) : DequeueRx c s t := by
  have hg := hi.good.rx
  cases c with
  | false => cases h; exact ⟨hv, hd, rfl, by simp, rfl, rfl, rfl⟩
  | true =>
    obtain ⟨_, ⟨he, rfl⟩ | ⟨he, b, hb, rfl⟩⟩ := dequeue_next h
    · have hc := contents_empty hg he
      exact ⟨by simp [he], by simp [hc], by simp [hc], by simp [full_eq_false_of_empty hg he], rfl, rfl, rfl⟩
    · have hc := contents_drop hg he hb
      exact ⟨by simp [he], by simp [hc], by simp [hc], by simp [drop_not_full hg he], rfl, rfl, rfl⟩

/-- The byte-received branch, or nothing: the byte is pushed or dropped, and `RXF` is cleared (R96). -/
structure DispatchRx (c : Bool) (s t : State) : Prop where
  rxDrop : t.out.rxDrop = (s.out.rxDrop || c && !s.txr && s.rxf && s.rx.full)
  contents : t.rx.contents = s.rx.contents ++ if c && !s.txr && s.rxf && !s.rx.full then [s.rxdata] else []
  rxf : t.rxf = (s.rxf && !(c && !s.txr && s.rxf))
  rxdata : t.rxdata = s.rxdata
  deqValid : t.out.deqValid = s.out.deqValid
  deqData : t.out.deqData = s.out.deqData

theorem SameRx.dispatchRx {c : Bool} (h : SameRx s t) (hc : (c && !s.txr && s.rxf) = false) : DispatchRx c s t :=
  ⟨by simp [hc, h.rxDrop], by simp [hc, h.rx], by simp [hc, h.rxf], h.rxdata, h.deqValid, h.deqData⟩

theorem execIf_dispatchRx {c : Bool} (h : execIf c .dispatch s = .next t) (hi : s.Running) : DispatchRx c s t := by
  cases c with
  | false => cases h; exact (SameRx.refl s).dispatchRx rfl
  | true =>
    rcases dispatch_next h with
      ⟨_, ⟨_, hf, rfl⟩ | ⟨hx, _, rfl⟩ | ⟨hx, _, b, _, rfl⟩ | ⟨hx, hf, _, hl, rfl⟩ | ⟨hx, hf, _, hl, rfl⟩⟩
    · exact (SameRx.refl _).dispatchRx (by simp [hf])
    · exact SameRx.dispatchRx ⟨rfl, rfl, rfl, rfl, rfl, rfl⟩ (by simp [hx])
    · exact SameRx.dispatchRx ⟨rfl, rfl, rfl, rfl, rfl, rfl⟩ (by simp [hx])
    · exact ⟨by simp [hx, hf, hl], by simp [hl], by simp [hx], rfl, rfl, rfl⟩
    · exact ⟨by simp [hl], by simp [hx, hf, hl, contents_store _ hi.good.rx hl], by simp [hx], rfl, rfl, rfl⟩

/-! ### The receive side of a cycle -/

/-- A cycle without reset, from the side of the receive path: DEQUEUE, then the branch, then U_RXBYTE (R106). -/
structure RxCycle (w : CwWord) (s t : State) : Prop where
  deqValid : t.out.deqValid = ((cwFields w).deqReq && !s.rx.empty)
  deqData : t.out.deqData = if (cwFields w).deqReq then s.rx.contents.headD Byte.idle else Byte.idle
  rxDrop : t.out.rxDrop = (takesRxBranch w s && (s.rx.full && !(cwFields w).deqReq))
  contents : t.rx.contents =
    (if (cwFields w).deqReq then s.rx.contents.tail else s.rx.contents) ++ pushedByte w s t.out
  rxf : t.rxf = (s.rxf && !takesRxBranch w s || (cwFields w).uRxbyte)
  rxdata : t.rxdata = if (cwFields w).uRxbyte then (cwFields w).uRxdata else s.rxdata

/-- U_RXBYTE, or nothing: all it can change is `RXF` and `RXDATA` (R109). -/
structure ReceivedRx (c : Bool) (b : Byte) (s t : State) : Prop where
  rx : t.rx = s.rx
  out : t.out = s.out
  rxf : t.rxf = (s.rxf || c)
  rxdata : t.rxdata = if c then b else s.rxdata

theorem execIf_receivedRx {c : Bool} {b : Byte} (h : execIf c (.uRxbyte b) s = .next t) : ReceivedRx c b s t := by
  cases c with
  | false => cases h; exact ⟨rfl, rfl, by simp, rfl⟩
  | true => obtain ⟨_, rfl⟩ := uRxbyte_next h; exact ⟨rfl, rfl, by simp, rfl⟩

theorem cwCycle_rx (hi : s.Running) (hrst : (cwFields w).rst = false) (h : cwCycle w s = .next t) : RxCycle w s t := by
  obtain ⟨s1, s2, s3, s4, h1, h2, h3, h4, h5⟩ := cwCycle_next hi.ready hrst h
  have i1 : s1.Running := hi.begin.execIf h1
  have hx1 : s1.txr = s.txr := (dequeue_of_begin hi.reset h1).txr
  have hb := beginCw_of_reset hi.reset
  have k1 := execIf_dequeueRx h1 hi.begin (by rw [hb]; rfl) (by rw [hb]; rfl)
  rw [hb] at k1
  have k2 := execIf_dispatchRx h2 i1
  have k3 : SameRx s2 s3 := execIf_keeps enqueue_sameRx (.refl s2) h3
  have k4 : SameRx s3 s4 := execIf_keeps uTxrdy_sameRx (.refl s3) h4
  have k5 := execIf_receivedRx h5
  have hbranch : ((cwFields w).ie && !s1.txr && s1.rxf) = takesRxBranch w s := by
    rw [hx1, k1.rxf, takesRxBranch, hrst]
    rfl
  have hdrop : t.out.rxDrop = (takesRxBranch w s && (s.rx.full && !(cwFields w).deqReq)) := by
    rw [k5.out, k4.rxDrop, k3.rxDrop, k2.rxDrop, hbranch, k1.full, k1.rxDrop]
    rfl
  have hpushed : (if (cwFields w).ie && !s1.txr && s1.rxf && !s1.rx.full then [s1.rxdata] else []) =
      pushedByte w s t.out := by
    rw [hbranch, pushedByte, hdrop, k1.full, k1.rxdata]
    cases takesRxBranch w s <;> rfl
  exact {
    deqValid := by rw [k5.out, k4.deqValid, k3.deqValid, k2.deqValid, k1.deqValid]; rfl
    deqData := by rw [k5.out, k4.deqData, k3.deqData, k2.deqData, k1.deqData]; rfl
    rxDrop := hdrop
    contents := by rw [k5.rx, k4.rx, k3.rx, k2.contents, hpushed, k1.contents]; rfl
    rxf := by rw [k5.rxf, k4.rxf, k3.rxf, k2.rxf, hbranch, k1.rxf]; rfl
    rxdata := by rw [k5.rxdata, k4.rxdata, k3.rxdata, k2.rxdata, k1.rxdata]; rfl }

/-- What was buffered and then pushed is what was returned and then is buffered (R90). -/
theorem RxCycle.law (h : RxCycle w s t) (hi : s.Running) :
    s.rx.contents ++ pushedByte w s t.out = t.out.returned ++ t.rx.contents := by
  rw [h.contents, CoreOut.returned, h.deqValid, h.deqData, ← isSome_head?_contents hi.good.rx]
  cases (cwFields w).deqReq with
  | false => rfl
  | true => cases s.rx.contents <;> rfl

/-! ### The statements about one cycle -/

/-- Settles O37: DEQUEUE comes first, so it sees the receive buffer that `rx_empty` shows. -/
theorem deqValidAgreesWithRxEmpty : Obligations.DeqValidAgreesWithRxEmpty := by
  intro s w hi hc hrst
  obtain ⟨t, ht⟩ := cwCycle_completes w hi hc
  have k := cwCycle_rx ⟨hi, hc⟩ hrst ht
  refine ⟨t, ht, ?_, k.deqData⟩
  rw [cwCycle_status hc ht]
  exact k.deqValid

theorem events_eq (o : CoreOut) : o.events = o.sent.map Event.txWrite ++ if o.rxDrop then [.rxDrop] else [] := by
  unfold CoreOut.events CoreOut.sent
  cases o.txWrite <;> rfl

theorem events_of_reset (hrst : (cwFields w).rst = true) (h : cwCycle w s = .next t) : t.out.events = [] := by
  rw [cwCycle, decodeCw_of_rst hrst, runBundle_singleton] at h
  cases coreInit_next h
  exact congrArg CoreOut.events (beginCw_out_inactive s)

/-- Settles O38: the two branches exclude each other, and each is taken on the flags at the start of the cycle. -/
theorem atMostOneEventPerCycle : Obligations.AtMostOneEventPerCycle := by
  intro s w hi hc
  obtain ⟨t, ht⟩ := cwCycle_completes w hi hc
  refine ⟨t, ht, ?_⟩
  cases hrst : (cwFields w).rst with
  | true => exact events_of_reset hrst ht
  | false =>
    rw [events_eq, (cwCycle_tx ⟨hi, hc⟩ hrst ht).sent, (cwCycle_rx ⟨hi, hc⟩ hrst ht).rxDrop, takesTxBranch,
      takesRxBranch, hrst]
    cases (cwFields w).ie with
    | false => rfl
    | true =>
      cases s.txr with
      | true => simp
      | false => simp [and_assoc]

/-! ### Both flags set (R100) -/

/-- A word of `ie` alone performs DISPATCH and nothing else. -/
theorem cwCycle_ie (s : State) : cwCycle (assembleCw [.ie]) s = exec .dispatch (beginCw s) := by
  have hd : decodeCw (assembleCw [.ie]) = [.dispatch] := by decide
  rw [cwCycle, hd, runBundle_singleton]

theorem dispatch_serves_tx_first (h : exec .dispatch s = .next t) (hx : s.txr = true) :
    t.txr = false ∧ t.rxf = s.rxf ∧ t.rx = s.rx ∧ t.rxdata = s.rxdata := by
  rcases dispatch_next h with
    ⟨_, ⟨hx', _⟩ | ⟨_, _, rfl⟩ | ⟨_, _, _, _, rfl⟩ | ⟨hx', _⟩ | ⟨hx', _⟩⟩
  · exact absurd hx (Bool.eq_false_iff.1 hx')
  · exact ⟨rfl, rfl, rfl, rfl⟩
  · exact ⟨rfl, rfl, rfl, rfl⟩
  · exact absurd hx (Bool.eq_false_iff.1 hx')
  · exact absurd hx (Bool.eq_false_iff.1 hx')

/-- The byte-received branch: the byte is appended, or dropped and shown as dropped. -/
theorem dispatch_serves_rx (h : exec .dispatch s = .next t) (hg : s.rx.Good) (hx : s.txr = false) (hf : s.rxf = true) :
    t.txr = false ∧ t.rxf = false ∧ t.tx = s.tx ∧
    (s.rx.full = false → t.rx.contents = s.rx.contents ++ [s.rxdata]) ∧
    (s.rx.full = true → t.rx = s.rx ∧ t.out.rxDrop = true) := by
  rcases dispatch_next h with
    ⟨_, ⟨_, hf', _⟩ | ⟨hx', _⟩ | ⟨hx', _⟩ | ⟨_, _, _, hl, rfl⟩ | ⟨_, _, _, hl, rfl⟩⟩
  · exact absurd hf (Bool.eq_false_iff.1 hf')
  · exact absurd hx' (Bool.eq_false_iff.1 hx)
  · exact absurd hx' (Bool.eq_false_iff.1 hx)
  · exact ⟨hx, rfl, rfl, fun hn => absurd hl (Bool.eq_false_iff.1 hn), fun _ => ⟨rfl, rfl⟩⟩
  · exact ⟨hx, rfl, rfl, fun _ => contents_store _ hg hl, fun hy => absurd hy (Bool.eq_false_iff.1 hl)⟩

/-- Settles O31: the first invocation clears `TXR` and leaves what the second needs. -/
theorem bothFlagsAreServedTransmitFirst : Obligations.BothFlagsAreServedTransmitFirst := by
  rintro s w v hi hc hx hf rfl rfl
  have hs : s.Running := ⟨hi, hc⟩
  obtain ⟨t, ht⟩ := cwCycle_completes (assembleCw [.ie]) hi hc
  have hrt := hs.cwCycle ht
  obtain ⟨u, hu⟩ := cwCycle_completes (assembleCw [.ie]) hrt.inv hrt.reset
  have ht' := ht
  have hu' := hu
  rw [cwCycle_ie, beginCw_of_reset hc] at ht'
  rw [cwCycle_ie, beginCw_of_reset hrt.reset] at hu'
  obtain ⟨htx, htf, htrx, htd⟩ := dispatch_serves_tx_first ht' hx
  obtain ⟨hux, huf, hutx, hroom, hfull⟩ := dispatch_serves_rx hu' hrt.good.rx htx (htf.trans hf)
  rw [State.setOut_rx, State.setOut_rxdata, htrx, htd] at hroom
  rw [State.setOut_rx, htrx] at hfull
  exact ⟨t, u, ht, htx, htf.trans hf, htrx, hu, hux, huf, hutx, hroom, hfull⟩

end Sys2Proof.Machine
end

section
/-! The statements about runs of CORE: the transmit trace (44_core_cycle.md R114), the receive stream (42_receive_path.md
R90), the drain of the transmit path (41_transmit_path.md R83) and the latencies (70_reset_and_hazards.md R152). -/

namespace Sys2Proof.Machine

variable {s t : State} {w : CwWord} {ws : List CwWord} {r : State × List CoreOut}

/-! ### Induction over a run, packaged once -/

theorem runCw_completes (ws : List CwWord) (hs : s.Running) : ∃ r, runCw ws s = .next r ∧ r.1.Running := by
  induction ws generalizing s with
  | nil => exact ⟨_, rfl, hs⟩
  | cons w ws ih =>
    obtain ⟨t, ht⟩ := cwCycle_completes w hs.inv hs.reset
    obtain ⟨r, hr, hrr⟩ := ih (hs.cwCycle ht)
    exact ⟨(r.1, t.out :: r.2), by rw [runCw, ht, andThen_next, hr, andThen_next], hrr⟩

/-- A relation of a run, its start and its result that each cycle extends at the front holds of every run of words of the
given kind. -/
theorem runCw_induction {Q : CwWord → Prop} {P : List CwWord → State → State × List CoreOut → Prop}
    (nil : ∀ s, s.Running → P [] s (s, []))
    (cons : ∀ w ws s t r, s.Running → Q w → cwCycle w s = .next t → P ws t r → P (w :: ws) s (r.1, t.out :: r.2))
    (hs : s.Running) (hq : ∀ w ∈ ws, Q w) (h : runCw ws s = .next r) : P ws s r := by
  induction ws generalizing s r with
  | nil => cases h; exact nil s hs
  | cons w ws ih =>
    obtain ⟨hw, hws⟩ := List.forall_mem_cons.1 hq
    obtain ⟨t, ht, h⟩ := andThen_eq_next.1 h
    obtain ⟨r', hr, h⟩ := andThen_eq_next.1 h
    cases h
    exact cons w ws s t r' hs hw ht (ih (hs.cwCycle ht) hws hr)

/-! ### The transmit trace and the receive stream -/

theorem runCw_tx_law (hs : s.Running) (hq : ∀ w ∈ ws, (cwFields w).rst = false) (h : runCw ws s = .next r) :
    s.tx.contents ++ acceptedBytes ws r.2 = txOut r.2 ++ r.1.tx.contents := by
  refine runCw_induction (P := fun ws s r => s.tx.contents ++ acceptedBytes ws r.2 = txOut r.2 ++ r.1.tx.contents)
    (fun s _ => by simp [acceptedBytes, txOut]) ?_ hs hq h
  intro w ws s t r hs hw ht ih
  calc s.tx.contents ++ (t.out.accepted w ++ acceptedBytes ws r.2)
      = t.out.sent ++ (t.tx.contents ++ acceptedBytes ws r.2) := by
        rw [← List.append_assoc, (cwCycle_tx hs hw ht).law, List.append_assoc]
    _ = t.out.sent ++ txOut r.2 ++ r.1.tx.contents := by rw [ih, List.append_assoc]

/-- Settles O39: cycle by cycle, a byte accepted joins the buffer at the tail and a byte sent leaves it at the head. -/
theorem transmitTraceIsTheAcceptedBytes : Obligations.TransmitTraceIsTheAcceptedBytes := by
  intro ws s hi hc hq
  obtain ⟨r, hr, _⟩ := runCw_completes ws ⟨hi, hc⟩
  exact ⟨r, hr, runCw_tx_law ⟨hi, hc⟩ hq hr⟩

theorem runCw_rx_law (hs : s.Running) (hq : ∀ w ∈ ws, (cwFields w).rst = false) (h : runCw ws s = .next r) :
    s.rx.contents ++ pushedBytes ws s = rxOut r.2 ++ r.1.rx.contents := by
  refine runCw_induction (P := fun ws s r => s.rx.contents ++ pushedBytes ws s = rxOut r.2 ++ r.1.rx.contents)
    (fun s _ => by simp [pushedBytes, rxOut]) ?_ hs hq h
  intro w ws s t r hs hw ht ih
  have hp : pushedBytes (w :: ws) s = pushedByte w s t.out ++ pushedBytes ws t := by rw [pushedBytes, ht]
  calc s.rx.contents ++ pushedBytes (w :: ws) s
      = t.out.returned ++ (t.rx.contents ++ pushedBytes ws t) := by
        rw [hp, ← List.append_assoc, (cwCycle_rx hs hw ht).law hs, List.append_assoc]
    _ = t.out.returned ++ rxOut r.2 ++ r.1.rx.contents := by rw [ih, List.append_assoc]

/-- Settles O40: the same for the bytes the dispatcher pushes and DEQUEUE returns. -/
theorem receivedBytesAreReturnedInOrder : Obligations.ReceivedBytesAreReturnedInOrder := by
  intro ws s hi hc hq
  obtain ⟨r, hr, _⟩ := runCw_completes ws ⟨hi, hc⟩
  exact ⟨r, hr, runCw_rx_law ⟨hi, hc⟩ hq hr⟩

/-! ### The drain of the transmit path (R83) -/

/-- A word that serves the transmit path and adds nothing to it. -/
structure DrainWord (w : CwWord) : Prop where
  rst : (cwFields w).rst = false
  ie : (cwFields w).ie = true
  uTxrdy : (cwFields w).uTxrdy = true
  enqReq : (cwFields w).enqReq = false

/-- Cycles of a drain that end with an idle path: one until `TXR` is set, one for each byte, one that finds none left. -/
def cyclesToIdle (s : State) : Nat := s.tx.contents.length + 1 + (!s.txr).toNat

/-- The path is idle, and the UART has taken the last byte. -/
structure Drained (s : State) : Prop where
  contents : s.tx.contents = []
  active : s.active = false

theorem TxCycle.accepted_of_no_request (h : TxCycle w s t) (hq : (cwFields w).enqReq = false) : t.out.enqOk = false :=
  Bool.eq_false_iff.2 fun hok => Bool.false_ne_true (hq.symm.trans (h.requested hok))

/-- What a cycle of a drain leaves: `TXR` set again, and of the contents the tail if `TXR` was set. -/
theorem DrainWord.cycle (hw : DrainWord w) (k : TxCycle w s t) : t.txr = true ∧
    t.tx.contents = (if s.txr then s.tx.contents.tail else s.tx.contents) ∧
    t.active = (s.active && !(s.txr && s.tx.empty)) := by
  have hok := k.accepted_of_no_request hw.enqReq
  refine ⟨by rw [k.txr, hw.uTxrdy, Bool.or_true], ?_, ?_⟩
  · simp [k.contents, takesTxBranch, hw.ie, CoreOut.accepted, hok]
  · simp [k.active, activeAfterDispatch, takesTxBranch, hw.ie, hok]

theorem DrainWord.keeps_drained (hw : DrainWord w) (k : TxCycle w s t) (hd : Drained s) : Drained t := by
  obtain ⟨_, hc, ha⟩ := hw.cycle k
  exact ⟨by simp [hc, hd.contents], by simp [ha, hd.active]⟩

/-- A cycle of a drain is one of its cycles, or the last one. -/
theorem DrainWord.advances (hw : DrainWord w) (k : TxCycle w s t) (hs : s.Running) :
    cyclesToIdle s = cyclesToIdle t + 1 ∨ Drained t := by
  obtain ⟨hx, hc, ha⟩ := hw.cycle k
  unfold cyclesToIdle
  rw [hx, hc]
  cases hsx : s.txr with
  | false => simp
  | true =>
    cases hsc : s.tx.contents with
    | nil => exact .inr ⟨by simp [hc, hsx, hsc], by simp [ha, hsx, empty_eq_isEmpty hs.good.tx, hsc]⟩
    | cons b bs => simp

theorem runCw_drains (hs : s.Running) (hq : ∀ w ∈ ws, DrainWord w) (h : runCw ws s = .next r)
    (hl : cyclesToIdle s ≤ ws.length) : Drained r.1 := by
  refine runCw_induction (P := fun ws s r => cyclesToIdle s ≤ ws.length ∨ Drained s → Drained r.1) ?_ ?_ hs hq h (.inl hl)
  · rintro s _ (hl | hd)
    · simp [cyclesToIdle] at hl
    · exact hd
  · rintro w ws s t r hs hw ht ih hl
    have k := cwCycle_tx hs hw.rst ht
    rcases hl with hl | hd
    · rw [List.length_cons] at hl
      exact ih ((hw.advances k hs).imp_left fun e => by omega)
    · exact ih (.inr (hw.keeps_drained k hd))

theorem runCw_accepts_nothing (hs : s.Running) (hq : ∀ w ∈ ws, DrainWord w) (h : runCw ws s = .next r) :
    acceptedBytes ws r.2 = [] := by
  refine runCw_induction (P := fun ws _ r => acceptedBytes ws r.2 = []) (fun _ _ => rfl) ?_ hs hq h
  intro w ws s t r hs hw ht ih
  simp [acceptedBytes, CoreOut.accepted, (cwCycle_tx hs hw.rst ht).accepted_of_no_request hw.enqReq, ih]

/-- Settles O41: each cycle of a drain sends one byte, but for the first, which may only set `TXR`, and the last, which
finds the buffer empty; and the trace is what was buffered, since nothing was accepted. -/
theorem transmitPathDrainsToIdle : Obligations.TransmitPathDrainsToIdle := by
  intro s ws hi hc hl hq
  have hs : s.Running := ⟨hi, hc⟩
  have hq' : ∀ w ∈ ws, DrainWord w := fun w hw =>
    have ⟨hrst, hie, htx, henq⟩ := hq w hw
    ⟨hrst, hie, htx, henq⟩
  obtain ⟨r, hr, hrr⟩ := runCw_completes ws hs
  have hcycles : cyclesToIdle s ≤ ws.length := by
    have := (!s.txr).toNat_le
    rw [cyclesToIdle, contents_length hs.good.tx, hl]
    omega
  have hd := runCw_drains hs hq' hr hcycles
  have hlaw := runCw_tx_law hs (fun w hw => (hq' w hw).rst) hr
  rw [runCw_accepts_nothing hs hq' hr, hd.contents, List.append_nil, List.append_nil] at hlaw
  exact ⟨r, hr, hlaw.symm, empty_of_contents_nil hrr.good.tx hd.contents, hd.active⟩

/-! ### Latencies (R152) -/

theorem State.Running.empty_of_idle (hs : s.Running) (ha : s.active = false) : s.tx.contents = [] :=
  contents_empty hs.good.tx (hs.good.idle ha)

/-- A cycle that takes the transmit-ready branch with a byte buffered writes the oldest one to `TXDATA`. -/
theorem TxCycle.sends {b : Byte} {bs : List Byte} (k : TxCycle w s t) (hie : (cwFields w).ie = true)
    (hx : s.txr = true) (hc : s.tx.contents = b :: bs) :
    t.out.txWrite = true ∧ t.out.txWdata = b ∧ t.txdata = b := by
  have hsent := k.sent
  simp only [takesTxBranch, hie, hx, hc, CoreOut.sent] at hsent
  cases hw : t.out.txWrite with
  | false => simp [hw] at hsent
  | true =>
    have hb : t.out.txWdata = b := by simpa [hw] using hsent
    exact ⟨rfl, hb, (k.txdata hw).trans hb⟩

/-- Settles O42: ENQUEUE on an idle path ARMs, so the next cycle with `ie` finds `TXR` set and this byte the oldest. -/
theorem enqueuedByteIsSentInTheNextCycle : Obligations.EnqueuedByteIsSentInTheNextCycle := by
  intro s w v hi hc ha hwr hwe hvr hvi
  have hs : s.Running := ⟨hi, hc⟩
  obtain ⟨t, ht, _, _, hstart⟩ := setWinsOverClear s w hi hc hwr
  obtain ⟨_, hx, hok⟩ := hstart hwe (.inl ha)
  have hrt := hs.cwCycle ht
  obtain ⟨u, hu⟩ := cwCycle_completes v hrt.inv hrt.reset
  have hcontents : t.tx.contents = [(cwFields w).enqData] := by
    simp [(cwCycle_tx hs hwr ht).contents, hs.empty_of_idle ha, CoreOut.accepted, hok]
  obtain ⟨hwrite, hdata, hreg⟩ := (cwCycle_tx hrt hvr hu).sends hvi hx hcontents
  exact ⟨t, u, ht, hu, hok, hwrite, hdata, hreg⟩

/-- A cycle of an idle dispatcher that receives a byte: the byte waits in `RXDATA`, and the buffer is still empty. -/
theorem cwCycle_receives (hs : s.Running) (hx : s.txr = false) (hf : s.rxf = false) (he : s.rx.contents = [])
    (hrst : (cwFields w).rst = false) (hrx : (cwFields w).uRxbyte = true) (henq : (cwFields w).enqReq = false)
    (htx : (cwFields w).uTxrdy = false) (h : cwCycle w s = .next t) :
    t.txr = false ∧ t.rxf = true ∧ t.rxdata = (cwFields w).uRxdata ∧ t.rx.contents = [] := by
  have kt := cwCycle_tx hs hrst h
  have kr := cwCycle_rx hs hrst h
  refine ⟨?_, by rw [kr.rxf, hrx, Bool.or_true], by rw [kr.rxdata, hrx]; rfl, ?_⟩
  · simp [kt.txr, hx, htx, kt.accepted_of_no_request henq]
  · simp [kr.contents, he, pushedByte, takesRxBranch, hf]

/-- A cycle that takes the byte-received branch with an empty buffer pushes the byte of `RXDATA`. -/
theorem cwCycle_pushes (hs : s.Running) (hx : s.txr = false) (hf : s.rxf = true) (he : s.rx.contents = [])
    (hrst : (cwFields w).rst = false) (hie : (cwFields w).ie = true) (h : cwCycle w s = .next t) :
    t.rx.contents = [s.rxdata] := by
  have kr := cwCycle_rx hs hrst h
  have hfull := full_eq_false_of_empty hs.good.rx (empty_of_contents_nil hs.good.rx he)
  simp [kr.contents, he, pushedByte, takesRxBranch, hrst, hie, hx, hf, kr.rxDrop, hfull]

theorem RxCycle.deqValid_of_empty (k : RxCycle w s t) (hs : s.Running) (he : s.rx.contents = []) :
    t.out.deqValid = false := by
  rw [k.deqValid, empty_of_contents_nil hs.good.rx he, Bool.not_true, Bool.and_false]

/-- Settles O43: the byte waits one cycle in `RXDATA`, the next pushes it, and DEQUEUE comes before the push. -/
theorem receivedByteIsReturnedTwoCyclesLater : Obligations.ReceivedByteIsReturnedTwoCyclesLater := by
  intro s w v u hi hc hx hf he hwr hwx hwe hwt hvr hvi hur hud
  have hs : s.Running := ⟨hi, hc⟩
  have hs0 := contents_empty hs.good.rx he
  obtain ⟨a, ha⟩ := cwCycle_completes w hi hc
  have hra := hs.cwCycle ha
  obtain ⟨b, hb⟩ := cwCycle_completes v hra.inv hra.reset
  have hrb := hra.cwCycle hb
  obtain ⟨c, hc'⟩ := cwCycle_completes u hrb.inv hrb.reset
  obtain ⟨hax, haf, had, ha0⟩ := cwCycle_receives hs hx hf hs0 hwr hwx hwe hwt ha
  have hb1 := cwCycle_pushes hra hax haf ha0 hvr hvi hb
  have kc := cwCycle_rx hrb hur hc'
  refine ⟨a, b, c, ha, hb, hc', (cwCycle_rx hs hwr ha).deqValid_of_empty hs hs0,
    (cwCycle_rx hra hvr hb).deqValid_of_empty hra ha0, ?_, ?_⟩
  · rw [kc.deqValid, hud, empty_eq_isEmpty hrb.good.rx, hb1]
    rfl
  · rw [kc.deqData, hud, hb1, had]
    rfl

end Sys2Proof.Machine
end

section
/-! The statements about ENQUEUE_STRING (41_transmit_path.md R80): the loop, the words it expands to, and what may run
between its bytes. -/

namespace Sys2Proof.Machine

variable {s t : State}

/-! ### ENQUEUE as a push (R76) -/

theorem enqueue_tx (s : State) (b : Byte) : (enqueue s b).1.tx = (s.tx.tryPush b).1 := by
  rcases s.tx.tryPush_cases b with ⟨hf, e⟩ | ⟨hf, e⟩ <;> rw [e]
  · rw [enqueue_of_full b hf]
  · rw [enqueue_of_not_full b hf, startIfIdle_tx, State.setTx_tx]

theorem enqueue_ok_iff (s : State) (b : Byte) : (enqueue s b).2 = .ok ↔ (s.tx.tryPush b).2 = true := by
  rcases s.tx.tryPush_cases b with ⟨hf, e⟩ | ⟨hf, e⟩ <;> rw [e]
  · simp [enqueue_of_full b hf]
  · simp [enqueue_of_not_full b hf]

theorem enqueue_contents (b : Byte) (hs : s.Running) :
    (enqueue s b).1.tx.contents = s.tx.contents ++ if (enqueue s b).2 = .ok then [b] else [] := by
  simp only [enqueue_tx, enqueue_ok_iff, tryPush_contents b hs.good.tx]

theorem State.Running.enqueue (hs : s.Running) (b : Byte) : (enqueue s b).1.Running := by
  refine ⟨enqueue_inv b hs.inv hs.reset, ?_⟩
  rcases enqueue_cases s b with ⟨_, e⟩ | ⟨_, e⟩ <;> rw [e]
  · exact hs.reset
  · rw [startIfIdle_eq]
    exact hs.reset

/-! ### The loop -/

theorem enqueueString_cons (b : Byte) (bs : List Byte) (s : State) : enqueueString (b :: bs) s =
    ((enqueueString bs (enqueue s b).1).1,
      (enqueueString bs (enqueue s b).1).2 + if (enqueue s b).2 = .ok then 0 else 1) := by
  rcases h : enqueue s b with ⟨t, _ | _⟩ <;> simp [enqueueString, h]

/-- The loop does to the transmit buffer what the pushes do, and counts the rejected ones. -/
theorem enqueueString_pushAll (bs : List Byte) (s : State) :
    (enqueueString bs s).1.tx = (pushAll bs s.tx).1 ∧ (enqueueString bs s).2 = (pushAll bs s.tx).2.count false := by
  induction bs generalizing s with
  | nil => exact ⟨rfl, rfl⟩
  | cons b bs ih =>
    obtain ⟨htx, htally⟩ := ih (enqueue s b).1
    rw [enqueueString_cons, htx, htally, enqueue_tx]
    cases hr : (s.tx.tryPush b).2 <;> simp [pushAll, enqueue_ok_iff, hr]

theorem State.Running.enqueueString (hs : s.Running) (bs : List Byte) : (enqueueString bs s).1.Running := by
  induction bs generalizing s with
  | nil => exact hs
  | cons b bs ih =>
    rw [enqueueString_cons]
    exact ih (hs.enqueue b)

theorem enqueueString_tally (hs : s.Running) (bs : List Byte) : (enqueueString bs s).2 = bs.length - s.tx.room := by
  rw [(enqueueString_pushAll bs s).2, pushAll_results bs hs.good.tx]
  simp [List.count_replicate]

theorem enqueueString_contents (hs : s.Running) (bs : List Byte) :
    (enqueueString bs s).1.tx.contents = s.tx.contents ++ bs.take s.tx.room := by
  rw [(enqueueString_pushAll bs s).1, pushAll_contents bs hs.good.tx]

/-! ### What may run between two steps of MAIN, seen from the transmit path (R144) -/

theorem mayInterrupt_cases {i : Instr} (hm : mayInterrupt i = true) : i = .dispatch ∨ i = .uTxrdy ∨ ∃ b, i = .uRxbyte b := by
  cases i <;> simp [mayInterrupt, mayPerform, agentOf] at hm ⊢

/-- A gap between two steps of MAIN: it holds only what may interrupt MAIN. -/
def IsGap (gap : List Instr) : Prop := ∀ i ∈ gap, mayInterrupt i = true

/-- Bytes only leave the transmit buffer, at its head; its store and its write index stay. -/
structure TxShrinks (s t : State) : Prop where
  running : t.Running
  contents : ∃ sent, s.tx.contents = sent ++ t.tx.contents
  mem : t.tx.mem = s.tx.mem
  writeIndex : t.tx.writeIndex = s.tx.writeIndex
  slots : t.tx.slots = s.tx.slots

theorem TxShrinks.refl (hs : s.Running) : TxShrinks s s := ⟨hs, ⟨[], rfl⟩, rfl, rfl, rfl⟩

theorem TxShrinks.trans {u : State} (h : TxShrinks s t) (k : TxShrinks t u) : TxShrinks s u := by
  obtain ⟨a, ha⟩ := h.contents
  obtain ⟨b, hb⟩ := k.contents
  exact ⟨k.running, ⟨a ++ b, by rw [ha, hb, List.append_assoc]⟩, k.mem.trans h.mem, k.writeIndex.trans h.writeIndex,
    k.slots.trans h.slots⟩

theorem TxShrinks.of_tx_eq (ht : t.Running) (h : t.tx = s.tx) : TxShrinks s t :=
  ⟨ht, ⟨[], by rw [h]; rfl⟩, by rw [h], by rw [h], by rw [h]⟩

theorem exec_txShrinks {i : Instr} (hm : mayInterrupt i = true) (hs : s.Running) (h : exec i s = .next t) :
    TxShrinks s t := by
  have ht := hs.exec h
  rcases mayInterrupt_cases hm with rfl | rfl | ⟨b, rfl⟩
  · rcases dispatch_next h with
      ⟨_, ⟨_, _, rfl⟩ | ⟨_, _, rfl⟩ | ⟨_, he, b, hb, rfl⟩ | ⟨_, _, _, _, rfl⟩ | ⟨_, _, _, _, rfl⟩⟩
    · exact .refl ht
    · exact .of_tx_eq ht rfl
    · exact ⟨ht, ⟨[b], contents_drop hs.good.tx he hb⟩, rfl, rfl, rfl⟩
    · exact .of_tx_eq ht rfl
    · exact .of_tx_eq ht rfl
  · obtain ⟨_, rfl⟩ := uTxrdy_next h
    exact .of_tx_eq ht rfl
  · obtain ⟨_, rfl⟩ := uRxbyte_next h
    exact .of_tx_eq ht rfl

theorem gap_txShrinks {gap : List Instr} (hg : IsGap gap) (hs : s.Running) :
    ∃ t, runBundle gap s = .next t ∧ TxShrinks s t := by
  obtain ⟨t, ht, _⟩ := gap_rxGrows hg hs.inv hs.reset
  exact ⟨t, ht, runBundle_keeps (P := TxShrinks s)
    (fun i hi _ _ k e => k.trans (exec_txShrinks (hg i hi) k.running e)) (.refl hs) ht⟩

/-! ### The loop with gaps -/

/-- What a string leaves behind, interrupted or not, when `n` bytes had been rejected before it. -/
structure StringOutcome (bs : List Byte) (s : State) (n : Nat) (r : State × Nat) (accepted sent : List Byte) : Prop where
  running : r.1.Running
  inOrder : accepted.Sublist bs
  counted : accepted.length + r.2 = bs.length + n
  contents : s.tx.contents ++ accepted = sent ++ r.1.tx.contents

theorem runSplit_enqueueByte_outcome {ps : List (Byte × List Instr)} (hs : s.Running)
    (hg : ∀ p ∈ ps, IsGap p.2) (n : Nat) :
    ∃ r accepted sent, runSplit enqueueByte ps s n = .next r ∧ StringOutcome (ps.map Prod.fst) s n r accepted sent := by
  induction ps generalizing s n with
  | nil => exact ⟨(s, n), [], [], rfl, hs, List.Sublist.refl _, rfl, by simp⟩
  | cons p ps ih =>
    obtain ⟨hgp, hgs⟩ := List.forall_mem_cons.1 hg
    obtain ⟨t, ht, k⟩ := gap_txShrinks hgp (hs.enqueue p.1)
    obtain ⟨left, hleft⟩ := k.contents
    obtain ⟨r, accepted, sent, hr, ho⟩ := ih k.running hgs (if (enqueue s p.1).2 = .ok then n else n + 1)
    have hrun : runSplit enqueueByte (p :: ps) s n = .next r := by simp [runSplit, enqueueByte, ht, hr]
    have hc := enqueue_contents p.1 hs
    have hcount := ho.counted
    refine ⟨r, (if (enqueue s p.1).2 = .ok then [p.1] else []) ++ accepted, left ++ sent, hrun, ho.running, ?_, ?_, ?_⟩
    · split_ifs
      · exact ho.inOrder.cons_cons p.1
      · exact ho.inOrder.cons p.1
    · split_ifs at hcount ⊢ <;> simp at hcount ⊢ <;> omega
    · rw [← List.append_assoc, ← hc, hleft, List.append_assoc, ho.contents, List.append_assoc]

/-- Settles O23: uninterrupted, the loop is a list of pushes; interrupted, each byte is pushed in its turn or counted, and
the gaps only take bytes out at the head. -/
theorem enqueueStringCountsItsRejections : Obligations.EnqueueStringCountsItsRejections := by
  constructor
  · intro s bs hi hc
    have hs : s.Running := ⟨hi, hc⟩
    refine ⟨(enqueueString bs s).1, ?_, enqueueString_contents hs bs, (hs.enqueueString bs).inv, ?_⟩
    · rw [runEnqueueString, coreChecked_of_ready hs.ready, ← Prod.eta (enqueueString bs s), enqueueString_tally hs bs]
      rfl
    · rintro rfl
      rfl
  · intro s ps hi hc hg
    have hs : s.Running := ⟨hi, hc⟩
    obtain ⟨r, accepted, sent, hr, ho⟩ := runSplit_enqueueByte_outcome hs hg 0
    refine ⟨r, accepted, sent, ?_, ho.running.inv, ho.inOrder, ?_, ho.contents⟩
    · rw [splitEnqueueString, coreChecked_of_ready hs.ready, hr]
    · rw [ho.counted, List.length_map, Nat.add_zero]

/-! ### The words (R56) -/

theorem cwFields_enq (b : Byte) : cwFields (assembleCw [.enq b]) = ⟨false, false, true, false, false, false, b, 0⟩ := by
  simp [assembleCw, CwMnemonic.bits]

theorem cwCycle_enq (b : Byte) (s : State) : cwCycle (assembleCw [.enq b]) s = exec (.enqueue b) (beginCw s) := by
  have hd : decodeCw (assembleCw [.enq b]) = [.enqueue b] := by
    simp [decodeCw_eq, cwFields_enq, cwRequests, cwRequested]
  rw [cwCycle, hd, runBundle_singleton]

/-- ENQUEUE reads and writes nothing outside the state of CORE. -/
theorem enqueue_sameCore {u : State} (b : Byte) (h : SameCore s u) :
    SameCore (enqueue s b).1 (enqueue u b).1 ∧ (enqueue u b).2 = (enqueue s b).2 := by
  cases hf : s.tx.full with
  | true => rw [enqueue_of_full b hf, enqueue_of_full b (h.tx ▸ hf)]; exact ⟨h, rfl⟩
  | false =>
    rw [enqueue_of_not_full b hf, enqueue_of_not_full b (h.tx ▸ hf), startIfIdle_eq, startIfIdle_eq]
    refine ⟨⟨?_, h.rx, rfl, ?_, h.rxf, h.txdata, h.rxdata⟩, rfl⟩
    · exact congrArg (·.store b) h.tx
    · exact congrArg₂ (fun x a => x || !a) h.txr h.active

theorem beginCw_sameCore (hc : s.coreReset = true) : SameCore s (beginCw s) := by
  rw [beginCw_of_reset hc]
  exact ⟨rfl, rfl, rfl, rfl, rfl, rfl, rfl⟩

theorem SameCore.trans {u : State} (h : SameCore s t) (k : SameCore t u) : SameCore s u :=
  ⟨k.tx.trans h.tx, k.rx.trans h.rx, k.active.trans h.active, k.txr.trans h.txr, k.rxf.trans h.rxf,
    k.txdata.trans h.txdata, k.rxdata.trans h.rxdata⟩

/-- The cycle of one word of the plain expansion is ENQUEUE, and its pins tell whether it was rejected. -/
theorem cwCycle_enq_sameCore {u : State} (b : Byte) (h : SameCore s u) (hu : u.Running) :
    ∃ t, cwCycle (assembleCw [.enq b]) u = .next t ∧ t.Running ∧ SameCore (enqueue s b).1 t ∧
      t.out.rejected (assembleCw [.enq b]) = !decide ((enqueue s b).2 = .ok) := by
  obtain ⟨hcore, hres⟩ := enqueue_sameCore b (h.trans (beginCw_sameCore hu.reset))
  have ht := (cwCycle_enq b u).trans (exec_enqueue_of_ready b hu.begin.ready)
  refine ⟨_, ht, hu.cwCycle ht, ⟨hcore.tx, hcore.rx, hcore.active, hcore.txr, hcore.rxf, hcore.txdata, hcore.rxdata⟩, ?_⟩
  rw [CoreOut.rejected, cwFields_enq, ← hres]
  rfl

/-- The run of the plain expansion simulates the loop. -/
theorem runCw_enqueueStringWords {u : State} (bs : List Byte) (h : SameCore s u) (hu : u.Running) :
    ∃ r, runCw (enqueueStringWords bs) u = .next r ∧ SameCore (enqueueString bs s).1 r.1 ∧
      stringTally (enqueueStringWords bs) r.2 = (enqueueString bs s).2 := by
  induction bs generalizing s u with
  | nil => exact ⟨(u, []), rfl, h, rfl⟩
  | cons b bs ih =>
    obtain ⟨t, ht, hrt, hcore, hrej⟩ := cwCycle_enq_sameCore b h hu
    obtain ⟨r, hr, hrcore, htally⟩ := ih hcore hrt
    rw [enqueueString_cons]
    refine ⟨(r.1, t.out :: r.2), ?_, hrcore, ?_⟩
    · exact andThen_eq_next.2 ⟨t, ht, andThen_eq_next.2 ⟨r, hr, rfl⟩⟩
    · show (t.out.rejected (assembleCw [.enq b])).toNat + stringTally (enqueueStringWords bs) r.2 = _
      rw [hrej, htally, Nat.add_comm]
      cases (enqueue s b).2 <;> rfl

/-! ### The words with gaps and free fields (R80) -/

/-- The bytes the words of a run without reset ask to enqueue, in order. -/
def enqRequests (ws : List CwWord) : List Byte :=
  ws.flatMap fun w => if (cwFields w).enqReq then [(cwFields w).enqData] else []

/-- Each byte asked for is accepted in its turn, or its cycle answers `Rejected`. -/
theorem runCw_requests {ws : List CwWord} {r : State × List CoreOut} (hs : s.Running)
    (hq : ∀ w ∈ ws, (cwFields w).rst = false) (h : runCw ws s = .next r) :
    (acceptedBytes ws r.2).Sublist (enqRequests ws) ∧
    (acceptedBytes ws r.2).length + stringTally ws r.2 = (enqRequests ws).length := by
  refine runCw_induction (P := fun ws _ r => (acceptedBytes ws r.2).Sublist (enqRequests ws) ∧
    (acceptedBytes ws r.2).length + stringTally ws r.2 = (enqRequests ws).length)
    (fun _ _ => ⟨List.Sublist.refl _, rfl⟩) ?_ hs hq h
  rintro w ws s t r hs hw ht ⟨hsub, hcount⟩
  have hstep : enqRequests (w :: ws) = (if (cwFields w).enqReq then [(cwFields w).enqData] else []) ++ enqRequests ws :=
    List.flatMap_cons
  rw [hstep, acceptedBytes, stringTally, CoreOut.accepted, CoreOut.rejected, hw]
  cases hreq : (cwFields w).enqReq with
  | false =>
    rw [(cwCycle_tx hs hw ht).accepted_of_no_request hreq]
    exact ⟨by simpa using hsub, by simpa using hcount⟩
  | true =>
    cases t.out.enqOk with
    | true => exact ⟨hsub.cons_cons _, by simp; omega⟩
    | false => exact ⟨by simpa using hsub.cons _, by simp; omega⟩

theorem enqRequests_gap (gap : List CwFields) : enqRequests (gap.map gapWord) = [] := by
  simp [enqRequests, gapWord]

theorem enqRequests_word (p : StringByte) : enqRequests [p.word] = [p.byte] := by
  simp [enqRequests, StringByte.word]

theorem enqRequests_append (ws vs : List CwWord) : enqRequests (ws ++ vs) = enqRequests ws ++ enqRequests vs :=
  List.flatMap_append

theorem enqRequests_spread (ps : List StringByte) : enqRequests (spreadStringWords ps) = ps.map StringByte.byte := by
  induction ps with
  | nil => rfl
  | cons p ps ih =>
    show enqRequests (p.gap.map gapWord ++ [p.word] ++ spreadStringWords ps) = _
    rw [enqRequests_append, enqRequests_append, enqRequests_gap, enqRequests_word, ih]
    rfl

theorem spreadStringWords_rst {ps : List StringByte} (h : ∀ p ∈ ps, ∀ f ∈ p.gap, f.rst = false) :
    ∀ w ∈ spreadStringWords ps, (cwFields w).rst = false := by
  intro w hw
  obtain ⟨p, hp, hw⟩ := List.mem_flatMap.1 hw
  rcases List.mem_append.1 hw with hw | hw
  · obtain ⟨f, hf, rfl⟩ := List.mem_map.1 hw
    simpa [gapWord] using h p hp f hf
  · rw [List.mem_singleton.1 hw, StringByte.word, cwFields_cwWordOf]

/-- Settles O24: the plain words simulate the loop cycle by cycle; the general ones ask for the bytes of the string, in
order, so the laws of a run say what becomes of them. -/
theorem enqueueStringWordsDoTheSame : Obligations.EnqueueStringWordsDoTheSame := by
  constructor
  · intro s bs hi hc
    exact runCw_enqueueStringWords bs ⟨rfl, rfl, rfl, rfl, rfl, rfl, rfl⟩ ⟨hi, hc⟩
  · intro s ps hi hc hq
    have hs : s.Running := ⟨hi, hc⟩
    have hrst := spreadStringWords_rst hq
    obtain ⟨r, hr, hrr⟩ := runCw_completes (spreadStringWords ps) hs
    obtain ⟨hsub, hcount⟩ := runCw_requests hs hrst hr
    rw [enqRequests_spread] at hsub hcount
    exact ⟨r, _, hr, hrr.inv, rfl, hsub, by rw [hcount, List.length_map], runCw_tx_law hs hrst hr⟩

end Sys2Proof.Machine
end

section
/-! The statements about split operations: ENQUEUE in its six steps (41_transmit_path.md R81), the order that strands a
byte and the event that is lost (70_reset_and_hazards.md R145, R146). -/

namespace Sys2Proof.Machine

variable {s t : State}

/-! ### Uninterrupted, and in the wrong order -/

/-- Settles O49: the store and the advance are the push, and the last three steps start an idle path. -/
theorem splitEnqueueAloneIsEnqueue : Obligations.SplitEnqueueAloneIsEnqueue := by
  intro s b
  cases hf : s.tx.full with
  | true =>
    refine ⟨⟨b, true, true⟩, ?_, by simp [enqueue_of_full b hf]⟩
    simp [splitEnqueue, enqueueOrder, runSplit, enqueueStep, EnqueueLocals.start, hf, enqueue_of_full b hf]
  | false =>
    refine ⟨⟨b, false, s.active⟩, ?_, by simp [enqueue_of_not_full b hf]⟩
    cases ha : s.active <;>
      simp [splitEnqueue, enqueueOrder, runSplit, enqueueStep, EnqueueLocals.start, hf, ha, enqueue_of_not_full b hf,
        startIfIdle] <;> rfl

/-- Settles O51: the invocation in the first gap finds the buffer empty and clears `active`, which has been read as 1. -/
theorem readingActiveFirstStrandsAByte : Obligations.ReadingActiveFirstStrandsAByte := by
  intro s b hi hc ha hx he
  have hs : s.Running := ⟨hi, hc⟩
  have hf := full_eq_false_of_empty hs.good.tx he
  have hd : exec .dispatch s = .next ((s.setActive false).setTxr false) := by
    rw [exec_dispatch_of_txr hs.ready hx, txBranch, onTransmitReady_of_empty he]
    rfl
  refine ⟨(((s.setActive false).setTxr false).setTx (s.tx.store b), ⟨b, false, true⟩), ?_, ?_, rfl, rfl⟩
  · simp [splitEnqueue, activeFirstOrder, runSplit, enqueueStep, EnqueueLocals.start, hd, ha, hf]
    rfl
  · exact (contents_store b hs.good.tx hf).trans (by rw [contents_empty hs.good.tx he]; rfl)

/-! ### The event between the write and the clear (R146) -/

/-- A word without a reset and without a transmit-ready event. -/
structure QuietWord (w : CwWord) : Prop where
  rst : (cwFields w).rst = false
  uTxrdy : (cwFields w).uTxrdy = false

/-- A path that is active with `TXR` clear waits for a U_TXRDY: a quiet cycle sends nothing and leaves it so. -/
theorem QuietWord.hangs {w : CwWord} (hw : QuietWord w) (k : TxCycle w s t) (hx : s.txr = false)
    (ha : s.active = true) : t.out.sent = [] ∧ t.txr = false ∧ t.active = true := by
  have hb : takesTxBranch w s = false := by rw [takesTxBranch, hx, Bool.and_false]
  have hd : activeAfterDispatch w s = true := by rw [activeAfterDispatch, hb, ha]; rfl
  exact ⟨by rw [k.sent, hb]; rfl, by simp [k.txr, hx, hd, hw.uTxrdy], by rw [k.active, hd]; rfl⟩

theorem runCw_hangs {ws : List CwWord} {r : State × List CoreOut} (hs : s.Running) (hq : ∀ w ∈ ws, QuietWord w)
    (h : runCw ws s = .next r) (hx : s.txr = false) (ha : s.active = true) : txOut r.2 = [] ∧ r.1.txr = false := by
  refine runCw_induction
    (P := fun _ s r => s.txr = false → s.active = true → txOut r.2 = [] ∧ r.1.txr = false) ?_ ?_ hs hq h hx ha
  · exact fun s _ hx _ => ⟨rfl, hx⟩
  · intro w ws s t r hs hw ht ih hx ha
    obtain ⟨hsent, htx, hta⟩ := hw.hangs (cwCycle_tx hs hw.rst ht) hx ha
    obtain ⟨hout, hend⟩ := ih htx hta
    exact ⟨by rw [txOut, List.flatMap_cons, hsent]; exact hout, hend⟩

/-- The transmit-ready branch with U_TXRDY between the write and the clear. -/
theorem splitTxBranch_uTxrdy {b : Byte} {bs : List Byte} (hs : s.Running) (hc : s.tx.contents = b :: bs) :
    ∃ t, splitTxBranch [.uTxrdy] s = .next t ∧ t.Running ∧ t.txr = false ∧ t.active = s.active ∧ t.tx.contents = bs := by
  obtain ⟨he, hv⟩ := load_of_contents hs.good.tx hc
  have ho := (exec_onTransmitReady_of_ready hs.ready).trans (onTransmitReady_of_loaded he hv)
  have hr := hs.exec ho
  have hu : exec .uTxrdy _ = .next _ := coreChecked_of_ready hr.ready _
  have hru := hr.exec hu
  refine ⟨(((emitTxWrite ((s.setTx s.tx.drop).setTxdata b) b).setTxr true).setTxr false), ?_,
    ⟨hru.inv.congr rfl rfl rfl rfl rfl rfl rfl rfl, hru.reset⟩, rfl, rfl, ?_⟩
  · simp [splitTxBranch, onTransmitReady_of_loaded he hv, hu]
  · exact (List.cons.inj ((contents_drop hs.good.tx he hv).symm.trans hc)).2

/-- Settles O52: the clear erases the event with the flag, and nothing but another U_TXRDY sets `TXR` on an active path. -/
theorem eventBetweenWriteAndClearIsLost : Obligations.EventBetweenWriteAndClearIsLost := by
  intro s hi hc hx hn
  have hs : s.Running := ⟨hi, hc⟩
  obtain ⟨b, c, bs, hbs⟩ : ∃ b c bs, s.tx.contents = b :: c :: bs := by
    rw [← contents_length hs.good.tx] at hn
    match s.tx.contents, hn with
    | b :: c :: bs, _ => exact ⟨b, c, bs, rfl⟩
  obtain ⟨t, ht, hrt, htx, hta, htc⟩ := splitTxBranch_uTxrdy hs hbs
  have hact : t.active = true := by
    by_contra ha
    rw [hta, Bool.not_eq_true] at ha
    rw [hs.empty_of_idle ha] at hbs
    cases hbs
  refine ⟨t, ht, htx, hact, by rw [empty_eq_isEmpty hrt.good.tx, htc]; rfl, fun ws hq => ?_⟩
  obtain ⟨r, hr, _⟩ := runCw_completes ws hrt
  have hquiet : ∀ w ∈ ws, QuietWord w := fun w hw => ⟨(hq w hw).1, (hq w hw).2⟩
  obtain ⟨hout, hend⟩ := runCw_hangs hrt hquiet hr htx hact
  exact ⟨r, hr, hout, hend⟩

/-! ### The push in two steps (R40) -/

/-- A buffer whose element has been stored and whose index has not been advanced. -/
def RingBuffer.written (b : RingBuffer) (v : Byte) : RingBuffer := { b with mem := b.mem.write b.storeSlot v }

/-- A buffer whose write index has been advanced. -/
def RingBuffer.advanced (b : RingBuffer) : RingBuffer := { b with writeIndex := b.nextWrite }

/-- The store goes to a slot that is not live, so it changes nothing that can be seen. -/
theorem RingBuffer.written_good {b : RingBuffer} (v : Byte) (h : b.Good) : (b.written v).Good where
  shape := h.shape
  live := fun i hi => by
    have hr : (b.written v).mem.read i = b.mem.read i := RingBuffer.store_read_live v h.shape hi
    rw [hr]
    exact h.live i hi

theorem RingBuffer.written_storeOk {b : RingBuffer} (v : Byte) (hs : b.shapeOk = true) (h : b.StoreOk) :
    (b.written v).StoreOk := by
  have k := RingBuffer.store_storeOk v (RingBuffer.shapeOk_iff.1 hs).2.1 h
  exact ⟨k.canonical, k.inRange⟩

/-- The advance makes the slot of the write index live, which holds the stored element. -/
theorem RingBuffer.advanced_good {b : RingBuffer} (h : b.Good) (hf : b.full = false)
    (hv : (b.mem.read b.storeSlot).isSome) : b.advanced.Good where
  shape := RingBuffer.store_shapeOk 0 h.shape
  live := fun i hi => by
    have hl : i ∈ b.liveSlots ++ [b.storeSlot] := RingBuffer.liveSlots_store 0 h.shape hf ▸ hi
    rcases List.mem_append.1 hl with hl | hl
    · exact h.live i hl
    · rw [List.mem_singleton.1 hl]
      exact hv

/-! ### Good but for a byte behind `active = 0` -/

/-- A good state, except that a byte may be buffered with `active = 0`: what ENQUEUE passes through between the advance and
the set of `active` (R81). -/
def State.AlmostRunning (s : State) : Prop := (s.setActive true).Running

theorem State.AlmostRunning.running (h : s.AlmostRunning) (ha : s.active = true) : s.Running := by
  have e : s.setActive true = s := by
    rw [← ha]
    rfl
  exact e ▸ h

/-- Setting `active` keeps a good state good. -/
theorem State.Running.almost (h : s.Running) : s.AlmostRunning :=
  ⟨⟨h.inv.stores.congr rfl rfl rfl, fun _ => ⟨h.good.tx, h.good.rx, fun ha => absurd ha Bool.noConfusion, h.good.received⟩,
    h.inv.rb⟩, h.reset⟩

/-- Operations that may interrupt MAIN do not read `active`; what they write to it hides behind setting it again. -/
theorem exec_ignores_active {i : Instr} {a : Bool} (hm : mayInterrupt i = true) (h : exec i (s.setActive a) = .next t) :
    ∃ u, exec i s = .next u ∧ u.setActive true = t.setActive true := by
  have hready (r : (s.setActive a).CoreReady) : s.CoreReady := ⟨r.reset, r.tx, r.rx⟩
  rcases mayInterrupt_cases hm with rfl | rfl | ⟨b, rfl⟩
  · rcases dispatch_next h with
      ⟨r, ⟨hx, hf, rfl⟩ | ⟨hx, he, rfl⟩ | ⟨hx, he, b, hb, rfl⟩ | ⟨hx, hf, hw, hl, rfl⟩ | ⟨hx, hf, hw, hl, rfl⟩⟩
    · exact ⟨s, exec_dispatch_of_no_flag (hready r) hx hf, rfl⟩
    · refine ⟨(s.setActive false).setTxr false, ?_, rfl⟩
      rw [exec_dispatch_of_txr (hready r) hx, txBranch, onTransmitReady_of_empty (s := s) he, andThen_next]
    · refine ⟨(emitTxWrite ((s.setTx s.tx.drop).setTxdata b) b).setTxr false, ?_, rfl⟩
      rw [exec_dispatch_of_txr (hready r) hx, txBranch, onTransmitReady_of_loaded (s := s) he hb, andThen_next]
    · refine ⟨(emitRxDrop s).setRxf false, ?_, rfl⟩
      rw [exec_dispatch_of_rxf (hready r) hx hf, rxBranch, readRxdata_of_written (s := s) hw, andThen_next,
        onByteReceived_of_full (s := s) _ hl]
    · refine ⟨(s.setRx (s.rx.store s.rxdata)).setRxf false, ?_, rfl⟩
      rw [exec_dispatch_of_rxf (hready r) hx hf, rxBranch, readRxdata_of_written (s := s) hw, andThen_next,
        onByteReceived_of_not_full (s := s) _ hl]
  · obtain ⟨r, rfl⟩ := uTxrdy_next h
    exact ⟨s.setTxr true, coreChecked_of_ready (hready r) _, rfl⟩
  · obtain ⟨r, rfl⟩ := uRxbyte_next h
    exact ⟨((s.setRxdata b).setRxdataWritten true).setRxf true, coreChecked_of_ready (hready r) _, rfl⟩

theorem exec_almost {i : Instr} (hm : mayInterrupt i = true) (hs : s.AlmostRunning) :
    ∃ t, exec i s = .next t ∧ t.AlmostRunning := by
  obtain ⟨u, hu, k⟩ := mayInterrupt_rxGrows hm hs.inv hs.reset
  obtain ⟨t, ht, e⟩ := exec_ignores_active hm hu
  have ha : u.AlmostRunning := State.Running.almost ⟨k.inv, k.reset⟩
  exact ⟨t, ht, show (t.setActive true).Running from e ▸ ha⟩

theorem gap_almost {gap : List Instr} (hg : IsGap gap) (hs : s.AlmostRunning) :
    ∃ t, runBundle gap s = .next t ∧ t.AlmostRunning := by
  induction gap generalizing s with
  | nil => exact ⟨s, rfl, hs⟩
  | cons i gap ih =>
    obtain ⟨hi, hgap⟩ := List.forall_mem_cons.1 hg
    obtain ⟨u, hu, hau⟩ := exec_almost hi hs
    obtain ⟨t, ht, hat⟩ := ih hgap hau
    exact ⟨t, by rw [runBundle_cons, hu, andThen_next, ht], hat⟩

/-- The store keeps a good state good: the slot is not live yet. -/
theorem State.Running.written (hs : s.Running) (b : Byte) : (s.setTx (s.tx.written b)).Running :=
  ⟨⟨⟨RingBuffer.written_storeOk b hs.good.tx.shape hs.inv.stores.tx, hs.inv.stores.rx, hs.inv.stores.rb,
      hs.inv.stores.txSlots, hs.inv.stores.rxSlots, hs.inv.stores.rbSlots⟩,
    fun _ => ⟨RingBuffer.written_good b hs.good.tx, hs.good.rx, hs.good.idle, hs.good.received⟩, hs.inv.rb⟩, hs.reset⟩

/-- The advance leaves a state that is good but for `active`. -/
theorem State.Running.advanced (hs : s.Running) (hf : s.tx.full = false) (hv : (s.tx.mem.read s.tx.storeSlot).isSome) :
    (s.setTx s.tx.advanced).AlmostRunning :=
  ⟨⟨⟨⟨hs.inv.stores.tx.canonical, hs.inv.stores.tx.inRange⟩, hs.inv.stores.rx, hs.inv.stores.rb,
      hs.inv.stores.txSlots, hs.inv.stores.rxSlots, hs.inv.stores.rbSlots⟩,
    fun _ => ⟨RingBuffer.advanced_good hs.good.tx hf hv, hs.good.rx, fun ha => absurd ha Bool.noConfusion,
      hs.good.received⟩, hs.inv.rb⟩, hs.reset⟩

/-- Interrupts only take bytes out, so there is room for the byte still. -/
theorem TxShrinks.not_full (k : TxShrinks s t) (hs : s.Running) (hf : s.tx.full = false) : t.tx.full = false := by
  obtain ⟨sent, hc⟩ := k.contents
  have hle : t.tx.count ≤ s.tx.count := by
    rw [← contents_length k.running.good.tx, ← contents_length hs.good.tx, hc, List.length_append]
    omega
  have hlt := RingBuffer.count_lt hs.good.tx.shape
  rw [Bool.eq_false_iff, ne_eq, RingBuffer.full_iff_count k.running.good.tx.shape, k.slots]
  rw [Bool.eq_false_iff, ne_eq, RingBuffer.full_iff_count hs.good.tx.shape] at hf
  omega

/-! ### The six steps, interrupted -/

/-- A split ENQUEUE from some step on, with what falls into the gaps (R81). -/
def runEnqueueSteps (l : List (EnqueueStep × List Instr)) (s : State) (loc : EnqueueLocals) :
    Res (State × EnqueueLocals) :=
  runSplit (fun e s l => .next (enqueueStep e s l)) l s loc

/-- From here on the split ENQUEUE ends in a good state, whatever interrupts it. -/
def EndsRunning (l : List (EnqueueStep × List Instr)) (s : State) (loc : EnqueueLocals) : Prop :=
  ∃ r, runEnqueueSteps l s loc = .next r ∧ r.1.Running

/-- One step and its gap, then the rest. -/
theorem EndsRunning.step {e : EnqueueStep} {gap : List Instr} {l : List (EnqueueStep × List Instr)}
    {loc : EnqueueLocals} (hgap : runBundle gap (enqueueStep e s loc).1 = .next t)
    (h : EndsRunning l t (enqueueStep e s loc).2) : EndsRunning ((e, gap) :: l) s loc := by
  obtain ⟨r, hr, hrr⟩ := h
  refine ⟨r, ?_, hrr⟩
  rw [runEnqueueSteps, runSplit, andThen_next, hgap, andThen_next]
  exact hr

theorem endsRunning_nil {loc : EnqueueLocals} (hs : s.Running) : EndsRunning [] s loc := ⟨(s, loc), rfl, hs⟩

/-- Steps that do nothing, after a full buffer or an active path was seen. -/
theorem endsRunning_of_skipped {l : List (EnqueueStep × List Instr)} {loc : EnqueueLocals}
    (hskip : ∀ p ∈ l, ∀ u, enqueueStep p.1 u loc = (u, loc)) (hg : ∀ p ∈ l, IsGap p.2)
    (hs : s.Running) : EndsRunning l s loc := by
  induction l generalizing s with
  | nil => exact endsRunning_nil hs
  | cons p l ih =>
    obtain ⟨hp, hl⟩ := List.forall_mem_cons.1 hskip
    obtain ⟨hgp, hgl⟩ := List.forall_mem_cons.1 hg
    obtain ⟨t, ht, k⟩ := gap_txShrinks hgp hs
    refine .step (t := t) ?_ ?_
    · rw [hp]
      exact ht
    · rw [hp]
      exact ih hl hgl k.running

section
variable {g₀ g₁ g₂ g₃ g₄ g₅ : List Instr} {b : Byte}

/-- Steps 4 to 6, after the byte has been made visible: `active` is read after the push, so either the path is active now
and the interrupt side will find the byte, or ENQUEUE starts it. -/
theorem endsRunning_from_readActive (hs : s.AlmostRunning) (h₃ : IsGap g₃) (h₄ : IsGap g₄) (h₅ : IsGap g₅) :
    EndsRunning [(.readActive, g₃), (.setActive, g₄), (.arm, g₅)] s ⟨b, false, true⟩ := by
  cases ha : s.active with
  | true =>
    obtain ⟨t, ht, k⟩ := gap_txShrinks h₃ (hs.running ha)
    refine .step (t := t) ht (endsRunning_of_skipped ?_ ?_ k.running)
    · simp [enqueueStep, ha]
    · simpa using ⟨h₄, h₅⟩
  | false =>
    obtain ⟨t, ht, kt⟩ := gap_almost h₃ hs
    obtain ⟨u, hu, ku⟩ := gap_txShrinks h₄ kt
    have harm : (arm u).Running := ⟨ku.running.inv.congr rfl rfl rfl rfl rfl rfl rfl rfl, ku.running.reset⟩
    obtain ⟨v, hv, kv⟩ := gap_txShrinks h₅ harm
    refine .step ht (.step (t := u) ?_ (.step (t := v) ?_ (endsRunning_nil kv.running)))
    · simpa [enqueueStep, ha] using hu
    · simpa [enqueueStep, ha] using hv

/-- Steps 2 to 6, after room was seen: the interrupts only make more room, and leave the stored byte where it is. -/
theorem endsRunning_from_store (hs : s.Running) (hf : s.tx.full = false) (h₁ : IsGap g₁)
    (h₂ : IsGap g₂) (h₃ : IsGap g₃) (h₄ : IsGap g₄) (h₅ : IsGap g₅) :
    EndsRunning [(.store, g₁), (.advance, g₂), (.readActive, g₃), (.setActive, g₄), (.arm, g₅)] s ⟨b, false, true⟩ := by
  have hw := hs.written b
  obtain ⟨t, ht, kt⟩ := gap_txShrinks h₁ hw
  have hslot : (t.tx.mem.read t.tx.storeSlot).isSome := by
    rw [RingBuffer.storeSlot, kt.mem, kt.writeIndex]
    exact Option.isSome_iff_exists.2 ⟨b, Memory.read_write_same _ _ _⟩
  obtain ⟨u, hu, ku⟩ := gap_almost h₂ (kt.running.advanced (kt.not_full hw hf) hslot)
  exact .step ht (.step hu (endsRunning_from_readActive ku h₃ h₄ h₅))

/-- The six steps: after a full buffer was seen the other five do nothing. -/
theorem endsRunning_of_enqueueOrder (hs : s.Running) (h₀ : IsGap g₀) (h₁ : IsGap g₁) (h₂ : IsGap g₂)
    (h₃ : IsGap g₃) (h₄ : IsGap g₄) (h₅ : IsGap g₅) :
    EndsRunning (enqueueOrder.zip [g₀, g₁, g₂, g₃, g₄, g₅]) s (EnqueueLocals.start b) := by
  obtain ⟨t, ht, k⟩ := gap_txShrinks h₀ hs
  refine .step (t := t) ht ?_
  cases hf : s.tx.full with
  | true =>
    refine endsRunning_of_skipped ?_ ?_ k.running
    · simp [enqueueStep, hf]
    · simpa using ⟨h₁, h₂, h₃, h₄, h₅⟩
  | false =>
    have hloc : (enqueueStep .testFull s (EnqueueLocals.start b)).2 = ⟨b, false, true⟩ := by
      simp [enqueueStep, EnqueueLocals.start, hf]
    rw [hloc]
    exact endsRunning_from_store k.running (k.not_full hs hf) h₁ h₂ h₃ h₄ h₅

end

/-- Settles O50: between the advance and the set of `active` the state is good but for a byte behind `active = 0`, and
`active` is read after the byte can be seen, so the byte is either found by the interrupt side or started. -/
theorem splitEnqueueNeverStrandsAByte : Obligations.SplitEnqueueNeverStrandsAByte := by
  intro s b gaps hi hc hl hg
  match gaps, hl with
  | [g₀, g₁, g₂, g₃, g₄, g₅], _ =>
    simp only [List.forall_mem_cons] at hg
    obtain ⟨h₀, h₁, h₂, h₃, h₄, h₅, _⟩ := hg
    obtain ⟨r, hr, hrr⟩ := endsRunning_of_enqueueOrder (b := b) ⟨hi, hc⟩ h₀ h₁ h₂ h₃ h₄ h₅
    refine ⟨r, hr, hrr.inv, fun he => ?_⟩
    by_contra ha
    exact Bool.false_ne_true (he.symm.trans (hrr.good.idle (by simpa using ha)))

end Sys2Proof.Machine
end
